-- ==== Sys2Proof/Config.lean ====
section
/-! DEFINITION. The parameters of 00_scope.md R8 that have a value, and the one free value.
`PORT_PROTOCOL` and `HOST_LOAD` are open parameters "no rule depends on" (R8, U19): nothing here stands for them. -/

namespace Sys2Proof.Config

/-- `ALPHABET` and `CTAB_DEPTH` (R2, R8): byte values, hence entries of CTAB. -/
abbrev alphabet : Nat := 256

/-- `NODE_MAX` (R8): the most nodes of a tree the host builder makes. -/
abbrev nodeMax : Nat := 511

/-- `CODE_MAX` (R8): the greatest code length, also the width of the `code` field. -/
abbrev codeMax : Nat := 255

/-- `TMEM_DEPTH` (R8): words of the tree memory. -/
abbrev tmemDepth : Nat := 512

/-- `CNT_W` (R8): width of the counters; a counter holds a number below `2 ^ cntW` (R15, R48). -/
abbrev cntW : Nat := 64

/-- Bits of a command word (`CMD_W`, R8). -/
abbrev cmdW : Nat := 10

/-- FREE VALUE (log 11): the datum of a status read above register 5, which "is not specified" (U9).
Arguments: the engine (0 DEC, 1 ENC), the register number, and which read of the host it is, so that no two
reads are bound to agree. It has no body, so nothing can be proved of it. -/
opaque reservedStatusDatum : Nat → Nat → Nat → BitVec 64

end Sys2Proof.Config
end

