-- ==== Sys2Proof/Word.lean ====
section
/-! DEFINITION. The word types of 00_scope.md R8 and the two ports of R90. -/

namespace Sys2Proof

/-- A byte: a symbol (R2), a bit symbol (R93), an element of a stream (R24, R38). -/
abbrev Byte := BitVec 8

/-- A command word (R90). -/
abbrev CmdWord := BitVec 10

/-- A node index of TMEM (R8 `NIDX_W`). -/
abbrev NodeIdx := BitVec 9

/-- A tree-memory word (R96). -/
abbrev TreeWord := BitVec 19

/-- A code-table entry (R100). -/
abbrev CodeEntry := BitVec 263

/-- A counter (R8 `CNT_W`). -/
abbrev Count := BitVec 64

/-- The two command ports, one per engine: "the port, not the word, selects the engine" (R90). -/
inductive Port where
  | dec
  | enc
deriving DecidableEq, Repr

end Sys2Proof
end

