-- ==== Sys2Proof/Syntax.lean ====
section
/-! DEFINITION. The six commands of spec/opcode_table.json (R91, R92). -/

namespace Sys2Proof

/-- One constructor per row of the opcode table. The argument is the field `arg` where R93 lets it vary. -/
inductive Instr where
  /-- `D_START`, begin a decoder run (R191). -/
  | dStart
  /-- `D_BIT v`, one bit symbol (R195). -/
  | dBit (v : Byte)
  /-- `D_END`, end of the bit sequence (R200). -/
  | dEnd
  /-- `E_START`, begin an encoder run (R161). -/
  | eStart
  /-- `E_SYM b`, one input byte (R165). -/
  | eSym (b : Byte)
  /-- `E_END`, end of the input (R170). -/
  | eEnd
deriving DecidableEq, Repr

/-- The port a command belongs to, by its prefix (R105). -/
def Instr.port : Instr → Port
  | .dStart => .dec
  | .dBit _ => .dec
  | .dEnd => .dec
  | .eStart => .enc
  | .eSym _ => .enc
  | .eEnd => .enc

end Sys2Proof
end

