-- ==== Sys2Proof/WellFormed.lean ====
section
/-! DEFINITION. What the host owes about what it sends and writes: commands on the port they belong to (R105), and
table words with their ignored bits written as 0 (R96, R100). Every argument of every command is legal (R93), so
the port is the only check on a command. The engines check none of this (R65, R69, D37). -/

namespace Sys2Proof

/-- A command is well-formed for a port when it is one of that port's commands (R91, R92). -/
def Instr.wellFormed (p : Port) (i : Instr) : Bool := decide (i.port = p)

/-- "a stream for one port holds lines of one prefix only" (R105). -/
def streamWellFormed (p : Port) (is : List Instr) : Bool := is.all (Instr.wellFormed p)

/-- A tree word as the host writes it: bits 17:8 of a leaf word are 0 (R96). -/
def treeWordWellFormed (w : TreeWord) : Bool := !w.getLsbD 18 || decide (w.extractLsb' 8 10 = 0#10)

/-- A table entry as the host writes it: the bits of `code` below position `255 - clen` are 0 (R100). -/
def codeEntryWellFormed (e : CodeEntry) : Bool :=
  decide (e.toNat % 2 ^ (255 - (e.extractLsb' 255 8).toNat) = 0)

end Sys2Proof
end

