-- ==== Sys2Proof/Decode.lean ====
section
/-! DEFINITION. Decoding and encoding of command words (R90 to R95), and the opcode table as data (R107). -/

namespace Sys2Proof

/-- What a port reads from a word (R95): a command, or `RESERVED`. -/
inductive Decoded where
  | command (i : Instr)
  /-- A reserved command word (R94). -/
  | reserved
deriving DecidableEq, Repr

/-- Field `op`, bits 9:8 (R90). -/
def opField (w : CmdWord) : BitVec 2 := w.extractLsb' 8 2

/-- Field `arg`, bits 7:0 (R90). -/
def argField (w : CmdWord) : Byte := w.extractLsb' 0 8

/-- The data token of a port (R91, R92). -/
def dataToken (p : Port) (v : Byte) : Instr :=
  match p with
  | .dec => .dBit v
  | .enc => .eSym v

/-- The END command of a port. -/
def endCommand (p : Port) : Instr :=
  match p with
  | .dec => .dEnd
  | .enc => .eEnd

/-- The START command of a port. -/
def startCommand (p : Port) : Instr :=
  match p with
  | .dec => .dStart
  | .enc => .eStart

/-- `decode(cw)` by R95's test order, for every one of the 1024 words of a port. -/
def decode (p : Port) (w : CmdWord) : Decoded :=
  if opField w = 0#2 then .command (dataToken p (argField w))
  else if opField w = 1#2 ∧ argField w = 0#8 then .command (endCommand p)
  else if opField w = 2#2 ∧ argField w = 0#8 then .command (startCommand p)
  else .reserved

/-- The instruction the first `nbits` bits of `w` hold, every bit above them 0. The table's numbering does not tell
the port, and the two ports share every word (R90): this is the DEC port, the primary block (R1); see log 2. A word
with a bit above bit 9 is no command word. -/
def decodeTableWord (nbits w : Nat) : Option Instr :=
  if w % 2 ^ nbits < 1024 then
    match decode .dec (BitVec.ofNat 10 (w % 2 ^ nbits)) with
    | .command i => some i
    | .reserved => none
  else none

/-- A command word from its two fields: `{op, arg}` (R90). -/
def cmdWord (op : BitVec 2) (arg : Byte) : CmdWord := (op.setWidth 10 <<< 8) ||| arg.setWidth 10

/-- The word of a command (R91, R92). -/
def encode : Instr → CmdWord
  | .dStart => cmdWord 2#2 0#8
  | .dBit v => cmdWord 0#2 v
  | .dEnd => cmdWord 1#2 0#8
  | .eStart => cmdWord 2#2 0#8
  | .eSym b => cmdWord 0#2 b
  | .eEnd => cmdWord 1#2 0#8

/-- A row of the opcode table as far as decoding reads it (R107). -/
structure OpRow where
  mnemonic : String
  port : Port
  matchBits : CmdWord
  maskBits : CmdWord
deriving DecidableEq, Repr

/-- The six rows of spec/opcode_table.json (R91, R92, R107). -/
def opcodeTable : List OpRow :=
  [ ⟨"D_START", .dec, 0x200#10, 0x3FF#10⟩,
    ⟨"D_BIT", .dec, 0x000#10, 0x300#10⟩,
    ⟨"D_END", .dec, 0x100#10, 0x3FF#10⟩,
    ⟨"E_START", .enc, 0x200#10, 0x3FF#10⟩,
    ⟨"E_SYM", .enc, 0x000#10, 0x300#10⟩,
    ⟨"E_END", .enc, 0x100#10, 0x3FF#10⟩ ]

/-- "A word cw is the command of a row when (cw AND mask) = match", among the rows of its port (R91, R107). -/
def rowMatches (p : Port) (w : CmdWord) (r : OpRow) : Bool :=
  decide (r.port = p) && decide (w &&& r.maskBits = r.matchBits)

/-- The mnemonics of the rows of a port that a word matches. -/
def matchingMnemonics (p : Port) (w : CmdWord) : List String :=
  (opcodeTable.filter (rowMatches p w)).map OpRow.mnemonic

/-- The mnemonic of a command, as the table spells it (R105). -/
def mnemonicOf : Instr → String
  | .dStart => "D_START"
  | .dBit _ => "D_BIT"
  | .dEnd => "D_END"
  | .eStart => "E_START"
  | .eSym _ => "E_SYM"
  | .eEnd => "E_END"

/-- The operand of a command line, at most one (R105). -/
def operandOf : Instr → Option Byte
  | .dStart => none
  | .dBit v => some v
  | .dEnd => none
  | .eStart => none
  | .eSym b => some b
  | .eEnd => none

end Sys2Proof
end

