-- ==== Sys2Proof/Machine/State.lean ====
section
/-! DEFINITION. The state of 10_state.md R20 as plain data, the reasons a step can stop, and reset (R49). -/

namespace Sys2Proof.Machine

/-- The run state of an engine, `DSTATE` (R21) or `ESTATE` (R35). -/
inductive RunState where
  | idle
  | run
  | done
  | error
deriving DecidableEq, Repr

/-- The content of an error register: `NONE` or one of the four kinds, in one code space (R230). -/
inductive ErrKind where
  | none
  | malformedBit
  | truncatedStream
  | internalEncoding
  | treeFault
deriving DecidableEq, Repr

/-- A table memory: its written words with their addresses, addresses strictly rising. An unlisted address holds no
value (R82). `Memory.wf` of Machine/Ops.lean says the form holds. -/
abbrev Cells (w : Nat) := List (Nat × BitVec w)

/-- DEC's registers, output stream and tree memory (R20). -/
structure Dec where
  /-- Run state (R21). -/
  dstate : RunState
  /-- Kind of the error that ended the last run (R22). -/
  derr : ErrKind
  /-- Node the walk stands on, 0 at the root (R26). -/
  dcur : NodeIdx
  /-- `D_BIT` commands accepted (R27). -/
  dpos : Count
  /-- Symbols emitted (R25). -/
  dsyms : Count
  /-- The malformed bit symbol, or 0x00 (R23). -/
  dbad : Byte
  /-- Symbols emitted, first one first (R24). -/
  dout : List Byte
  /-- The tree memory (R29, R61). -/
  tmem : Cells 19
deriving DecidableEq, Repr

/-- ENC's registers, output stream and code table (R20). -/
structure Enc where
  /-- Run state (R35). -/
  estate : RunState
  /-- Kind of the error that ended the last run (R36). -/
  eerr : ErrKind
  /-- Pending bits, left-aligned (R39). -/
  eacc : Byte
  /-- `E_SYM` commands accepted (R41). -/
  epos : Count
  /-- Bits appended (R40). -/
  ebits : Count
  /-- The byte that has no code, or 0x00 (R37). -/
  ebad : Byte
  /-- Complete bytes of the packed sequence, first one first (R38). -/
  eout : List Byte
  /-- The code table (R43, R66). -/
  ctab : Cells 263
deriving DecidableEq, Repr

/-- What the host can make happen next (R7): a command word on a port (R6), a table write (R81), reset (R270). -/
inductive HostEvent where
  | command (p : Port) (w : CmdWord)
  /-- `H_TWRITE(i, w)`. -/
  | tWrite (i : NodeIdx) (w : TreeWord)
  /-- `H_CWRITE(b, e)`. -/
  | cWrite (b : Byte) (e : CodeEntry)
  | reset
deriving DecidableEq, Repr

/-- The machine: two engines with no shared state (R7, R20). `inbox` is the MODEL's own field (log 1): the host's
coming actions, next one first; a step takes the first. -/
structure State where
  dec : Dec
  enc : Enc
  inbox : List HostEvent
deriving DecidableEq, Repr

/-- Why a step has no next state although the hardware would go on with something. -/
inductive Fault where
  /-- Raised by `D_BIT` when it reads a TMEM word never written since reset: "a model must treat that step as a
  fault" (R82). Safe: no value is assumed. -/
  | unwrittenTmem (i : NodeIdx)
  /-- Raised by `E_SYM` when it reads a CTAB entry never written since reset (R82). Safe: no value is assumed. -/
  | unwrittenCtab (b : Byte)
deriving DecidableEq, Repr

/-- Why a step is outside the model. -/
inductive Refusal where
  /-- Raised by `exec` for an instruction that has no meaning yet, by its mnemonic. Safe. No arm uses it. -/
  | notModelled (mnemonic : String)
  /-- Raised by `D_BIT` and `E_SYM` when a counter would pass `2^64 - 1`: "a model must refuse it, and must not
  wrap the counter" (R48). Safe. -/
  | counterOverflow
  /-- Raised by a host write to TMEM while DEC is in RUN: "a model must refuse such a trace" (R285, U5). Safe. -/
  | tmemWriteDuringRun
  /-- Raised by a host write to CTAB while ENC is in RUN (R285, U5). Safe. -/
  | ctabWriteDuringRun
deriving DecidableEq, Repr

/-- What a step or a meaning answers. -/
abbrev Result := Host.Outcome State Fault Refusal

/-- DEC after reset (R49). -/
def Dec.reset : Dec :=
  { dstate := .idle, derr := .none, dcur := 0#9, dpos := 0#64, dsyms := 0#64, dbad := 0x00#8, dout := [], tmem := [] }

/-- ENC after reset (R49). -/
def Enc.reset : Enc :=
  { estate := .idle, eerr := .none, eacc := 0x00#8, epos := 0#64, ebits := 0#64, ebad := 0x00#8, eout := [], ctab := [] }

/-- The machine right after reset (R49), with nothing presented by the host (log 1). -/
def State.reset : State := { dec := Dec.reset, enc := Enc.reset, inbox := [] }

/-- The state with another DEC. -/
def State.setDec (s : State) (d : Dec) : State := { s with dec := d }

/-- The state with another ENC. -/
def State.setEnc (s : State) (e : Enc) : State := { s with enc := e }

/-- The state with other host events to come. -/
def State.setInbox (s : State) (evs : List HostEvent) : State := { s with inbox := evs }

end Sys2Proof.Machine
end

