-- ==== Sys2Proof/Machine/Flags.lean ====
section
/-! DEFINITION. The flag-like state (R47): the codes of the status registers (R21, R22, R35, R36), the state test at
the head of the commands, the level outputs (R240) and the host's status reads (R45). There are no condition codes. -/

namespace Sys2Proof.Machine

/-- The value of `DSTATE` or `ESTATE` (R21, R35). -/
def runStateCode : RunState → BitVec 2
  | .idle => 0#2
  | .run => 1#2
  | .done => 2#2
  | .error => 3#2

/-- The value of `DERR` or `EERR` (R230). -/
def errCode : ErrKind → BitVec 3
  | .none => 0#3
  | .malformedBit => 1#3
  | .truncatedStream => 2#3
  | .internalEncoding => 3#3
  | .treeFault => 4#3

/-- DEC is in a run: "if DSTATE != RUN then return" (R47). -/
def decRunning (s : State) : Bool := decide (s.dec.dstate = .run)

/-- ENC is in a run. -/
def encRunning (s : State) : Bool := decide (s.enc.estate = .run)

/-- `dec_done = (DSTATE = DONE)` (R240). -/
def decDone (s : State) : Bool := decide (s.dec.dstate = .done)

/-- `dec_err = (DSTATE = ERROR)` (R240). -/
def decErr (s : State) : Bool := decide (s.dec.dstate = .error)

/-- `enc_done = (ESTATE = DONE)` (R240). -/
def encDone (s : State) : Bool := decide (s.enc.estate = .done)

/-- `enc_err = (ESTATE = ERROR)` (R240). -/
def encErr (s : State) : Bool := decide (s.enc.estate = .error)

/-- A host read of DEC's status register `n` (R45), zero-extended to 64 bits; `occasion` says which read of the host
it is and matters above register 5 only, where the datum is free (U9, log 11). -/
def decStatusRead (n occasion : Nat) (d : Dec) : BitVec 64 :=
  match n with
  | 0 => (runStateCode d.dstate).setWidth 64
  | 1 => (errCode d.derr).setWidth 64
  | 2 => d.dcur.setWidth 64
  | 3 => d.dpos
  | 4 => d.dsyms
  | 5 => d.dbad.setWidth 64
  | k + 6 => Config.reservedStatusDatum 0 (k + 6) occasion

/-- A host read of ENC's status register `n` (R45). -/
def encStatusRead (n occasion : Nat) (e : Enc) : BitVec 64 :=
  match n with
  | 0 => (runStateCode e.estate).setWidth 64
  | 1 => (errCode e.eerr).setWidth 64
  | 2 => e.eacc.setWidth 64
  | 3 => e.epos
  | 4 => e.ebits
  | 5 => e.ebad.setWidth 64
  | k + 6 => Config.reservedStatusDatum 1 (k + 6) occasion

/-- A host read of a status register: a function of the state at the end of the last completed step, so it has no
side effect (R45, R284). -/
def statusRead (p : Port) (n occasion : Nat) (s : State) : BitVec 64 :=
  match p with
  | .dec => decStatusRead n occasion s.dec
  | .enc => encStatusRead n occasion s.enc

end Sys2Proof.Machine
end

