-- ==== Sys2Proof/Machine/Operands.lean ====
section
/-! DEFINITION. Operand forms: the bit symbol of `D_BIT` (R93), the fields of a tree word (R96) and of a table
entry (R100), and the words the host composes from those fields (R138, R139). -/

namespace Sys2Proof.Machine

/-- The two formats of a tree word, by bit 18 (R96). -/
inductive NodeKind where
  | internal
  | leaf
deriving DecidableEq, Repr

/-- A bit symbol read as a bit: 0x00 is the bit 0, 0x01 the bit 1, every other value is malformed (R93). All 8 bits
are compared (R207). -/
def bitOfSymbol (v : Byte) : Option Bool :=
  if v = 0x00#8 then some false else if v = 0x01#8 then some true else none

/-- A bit as the bit symbol that stands for it (R93). -/
def symbolOfBit (b : Bool) : Byte := if b then 0x01#8 else 0x00#8

/-- `kind(w) = w[18]`: 0 `INTERNAL`, 1 `LEAF` (R96). -/
def kindOf (w : TreeWord) : NodeKind := if w.getLsbD 18 then .leaf else .internal

/-- `left(w) = w[17:9]` (R96). -/
def leftOf (w : TreeWord) : NodeIdx := w.extractLsb' 9 9

/-- `right(w) = w[8:0]` (R96). -/
def rightOf (w : TreeWord) : NodeIdx := w.extractLsb' 0 9

/-- `sym(w) = w[7:0]` (R96); bits 17:8 of a leaf word are ignored (D37). -/
def symOf (w : TreeWord) : Byte := w.extractLsb' 0 8

/-- The child a bit chooses: left on 0, right on 1 (R13, R195). -/
def childOf (w : TreeWord) (b : Bool) : NodeIdx := if b then rightOf w else leftOf w

/-- `clen(e) = e[262:255]` (R100), as a length. -/
def clenOf (e : CodeEntry) : Nat := (e.extractLsb' 255 8).toNat

/-- `cbit(e, k) = e[254 - k]` for `k < clen(e)` (R100). -/
def cbitOf (e : CodeEntry) (k : Nat) : Bool := e.getLsbD (254 - k)

/-- `code_of(e) = [cbit(e, 0), ..., cbit(e, clen(e) - 1)]` (R67, R100); the bits below are not read (D37). -/
def codeOf (e : CodeEntry) : List Bool := (List.range (clenOf e)).map (cbitOf e)

/-- `{kind=LEAF, sym=s}` with bits 17:8 zero (R138). -/
def leafWord (s : Byte) : TreeWord := 0x40000#19 ||| s.setWidth 19

/-- `{kind=INTERNAL, left=l, right=r}`, `(l << 9) | r` (R138). -/
def internalWord (l r : NodeIdx) : TreeWord := (l.setWidth 19 <<< 9) ||| r.setWidth 19

/-- `{clen = len(p), code = p left-aligned}`, for a code of at most 255 bits (R100, R139). -/
def codeEntry (p : List Bool) : CodeEntry :=
  (BitVec.ofNat 263 p.length <<< 255) ||| ((BitVec.ofBoolListBE p).setWidth 263 <<< (255 - p.length))

end Sys2Proof.Machine
end

