-- ==== Sys2Proof/Machine/Ops.lean ====
section
/-! DEFINITION. The shared operations: table memories (R61, R66, R81, R82), counters (R48), the error entry (R236)
and the way out of it (R239), the packing micro-operation (R166), and what the host does between commands. -/

namespace Sys2Proof.Machine

/-! ### Table memories -/

/-- The word the host last wrote at an address, none where it never wrote (R61, R66, R82). -/
def Memory.read {w : Nat} : Cells w → Nat → Option (BitVec w)
  | [], _ => none
  | (k, v) :: m, a => if k = a then some v else Memory.read m a

/-- The memory with one word written (R81), addresses kept strictly rising. -/
def Memory.write {w : Nat} : Cells w → Nat → BitVec w → Cells w
  | [], a, v => [(a, v)]
  | (k, u) :: m, a, v =>
    if a < k then (a, v) :: (k, u) :: m
    else if a = k then (a, v) :: m
    else (k, u) :: Memory.write m a v

/-- The canonical form: addresses strictly rising and inside the space. An unlisted address holds no value, so no
listed entry can equal it. -/
abbrev Memory.wf {w : Nat} (depth : Nat) (m : Cells w) : Prop :=
  m.Pairwise (fun c d => c.1 < d.1) ∧ ∀ c ∈ m, c.1 < depth

/-- `TMEM[i]` (R61): every 9-bit index is an address. -/
def readTmem (i : NodeIdx) (s : State) : Option TreeWord := Memory.read s.dec.tmem i.toNat

/-- `CTAB[b]` (R66): every byte is an address. -/
def readCtab (b : Byte) (s : State) : Option CodeEntry := Memory.read s.enc.ctab b.toNat

/-! ### Counters -/

/-- A counter `k` up, none where it would pass `2 ^ 64 - 1` (R15, R48): it never wraps. -/
def countUp (c : Count) (k : Nat) : Option Count :=
  if c.toNat + k < 2 ^ Config.cntW then some (c + BitVec.ofNat 64 k) else none

/-! ### The error entry and the way out -/

/-- The argument of `raise K(info)` (R14, R230): the kind with the value it records. -/
inductive ErrorEvent where
  | malformedBit (v : Byte)
  | truncatedStream
  | internalEncoding (b : Byte)
  | treeFault
deriving DecidableEq, Repr

/-- The error entry (R236), from the state at the start of the step: the owning engine's state becomes ERROR, its
error register takes the kind, its capture register the offending value where the kind has one; all else stays. -/
def raise (k : ErrorEvent) (s : State) : State :=
  match k with
  | .malformedBit v => s.setDec { s.dec with dstate := .error, derr := .malformedBit, dbad := v }
  | .truncatedStream => s.setDec { s.dec with dstate := .error, derr := .truncatedStream }
  | .treeFault => s.setDec { s.dec with dstate := .error, derr := .treeFault }
  | .internalEncoding b => s.setEnc { s.enc with estate := .error, eerr := .internalEncoding, ebad := b }

/-- A new decoder run on clean state, the only way out of ERROR but reset (R191, R239). TMEM is not touched. -/
def startDec (s : State) : State :=
  s.setDec { s.dec with
    dstate := .run, derr := .none, dbad := 0x00#8, dcur := 0#9, dpos := 0#64, dsyms := 0#64, dout := [] }

/-- A new encoder run on clean state (R161, R239). CTAB is not touched. -/
def startEnc (s : State) : State :=
  s.setEnc { s.enc with
    estate := .run, eerr := .none, ebad := 0x00#8, eacc := 0x00#8, ebits := 0#64, epos := 0#64, eout := [] }

/-! ### The decoder's walk -/

/-- The end of a `D_BIT` step that goes to the child at `c`, whose word is `m` (R195): a leaf is emitted and the
walk is back at the root in the same step; an internal child becomes the pointer. A counter that would pass its
range refuses the step (R48). -/
def walkTo (c : NodeIdx) (m : TreeWord) (s : State) : Result :=
  match countUp s.dec.dpos 1 with
  | none => .refused .counterOverflow
  | some pos =>
    match kindOf m with
    | .internal => .next (s.setDec { s.dec with dpos := pos, dcur := c })
    | .leaf =>
      match countUp s.dec.dsyms 1 with
      | none => .refused .counterOverflow
      | some syms =>
        .next (s.setDec { s.dec with dpos := pos, dsyms := syms, dcur := 0#9, dout := s.dec.dout ++ [symOf m] })

/-! ### The encoder's packing -/

/-- The number of pending bits, `EBITS[2:0]` (R40). -/
def pendingBits (e : Enc) : Nat := e.ebits.toNat % 8

/-- `append_bit(v)` (R166). -/
def appendBit (e : Enc) (v : Bool) : Enc :=
  let acc := e.eacc ||| ((BitVec.ofBool v).setWidth 8 <<< (7 - pendingBits e))
  if pendingBits e = 7 then { e with ebits := e.ebits + 1#64, eout := e.eout ++ [acc], eacc := 0x00#8 }
  else { e with ebits := e.ebits + 1#64, eacc := acc }

/-- The calls of one `E_SYM` step, one after the other in order (R165, R166). -/
def appendBits (e : Enc) (bs : List Bool) : Enc := bs.foldl appendBit e

/-- The flush of `E_END`: a partial byte is appended, its low bits 0 (R170). -/
def flushBits (e : Enc) : Enc :=
  if pendingBits e = 0 then e else { e with eout := e.eout ++ [e.eacc], eacc := 0x00#8 }

/-! ### What the host does -/

/-- The next host event and the state without it (R76: in the order the host issued them; log 1). -/
def fetch (s : State) : Option (HostEvent × State) :=
  match s.inbox with
  | [] => none
  | ev :: rest => some (ev, s.setInbox rest)

/-- The command word of the port a fetched event carries is a reserved one: "the engine takes a step that changes no
state: no register, no stream, no error" (R94, log 3). -/
def reservedWord (s : State) : Result := .next s

/-- `H_TWRITE(i, w)` (R81), refused while DEC is in RUN (R285). -/
def hostTWrite (i : NodeIdx) (w : TreeWord) (s : State) : Result :=
  if decRunning s then .refused .tmemWriteDuringRun
  else .next (s.setDec { s.dec with tmem := Memory.write s.dec.tmem i.toNat w })

/-- `H_CWRITE(b, e)` (R81), refused while ENC is in RUN (R285). -/
def hostCWrite (b : Byte) (e : CodeEntry) (s : State) : Result :=
  if encRunning s then .refused .ctabWriteDuringRun
  else .next (s.setEnc { s.enc with ctab := Memory.write s.enc.ctab b.toNat e })

/-- The reset event (R270, R271, R272): both engines together, every table word unwritten again. What the host has
yet to do stays to be done (log 10). -/
def hostReset (s : State) : State := State.reset.setInbox s.inbox

/-- A command word put on a port, in front of what the host has yet to do. -/
def presentWord (p : Port) (w : CmdWord) (s : State) : State := s.setInbox (.command p w :: s.inbox)

end Sys2Proof.Machine
end

