-- ==== Sys2Proof/Machine/Decoder.lean ====
section
/-! DEFINITION. The meanings of DEC's three commands (42_decoder.md). -/

namespace Sys2Proof.Machine

/-- `D_START` (R191): accepted in every state. -/
def execDStart (s : State) : Result := .next (startDec s)

/-- `D_BIT v` (R195). The order of the checks is the rule's: the state, the bit symbol, the word at `DCUR`. -/
def execDBit (v : Byte) (s : State) : Result :=
  if !decRunning s then .next s
  else
    match bitOfSymbol v with
    | none => .next (raise (.malformedBit v) s)
    | some b =>
      match readTmem s.dec.dcur s with
      | none => .fault (.unwrittenTmem s.dec.dcur)
      | some n =>
        match kindOf n with
        | .leaf => .next (raise .treeFault s)
        | .internal =>
          match readTmem (childOf n b) s with
          | none => .fault (.unwrittenTmem (childOf n b))
          | some m => walkTo (childOf n b) m s

/-- `D_END` (R200). -/
def execDEnd (s : State) : Result :=
  if !decRunning s then .next s
  else if s.dec.dcur = 0#9 then .next (s.setDec { s.dec with dstate := .done })
  else .next (raise .truncatedStream s)

end Sys2Proof.Machine
end

