-- ==== Sys2Proof/Machine/Encoder.lean ====
section
/-! DEFINITION. The meanings of ENC's three commands (41_encoder.md). -/

namespace Sys2Proof.Machine

/-- `E_START` (R161): accepted in every state. -/
def execEStart (s : State) : Result := .next (startEnc s)

/-- `E_SYM b` (R165): the whole code in one step, or nothing of it. A step that would take a counter past its range
is refused whole (R48, log 5). -/
def execESym (b : Byte) (s : State) : Result :=
  if !encRunning s then .next s
  else
    match readCtab b s with
    | none => .fault (.unwrittenCtab b)
    | some e =>
      if clenOf e = 0 then .next (raise (.internalEncoding b) s)
      else
        match countUp s.enc.ebits (clenOf e), countUp s.enc.epos 1 with
        | some _, some pos => .next (s.setEnc { appendBits s.enc (codeOf e) with epos := pos })
        | _, _ => .refused .counterOverflow

/-- `E_END` (R170): it cannot fail. -/
def execEEnd (s : State) : Result :=
  if !encRunning s then .next s
  else .next (s.setEnc { flushBits s.enc with estate := .done })

end Sys2Proof.Machine
end

