-- ==== Sys2Proof/Machine/Dispatch.lean ====
section
/-! DEFINITION. One arm per command: its meaning. -/

namespace Sys2Proof.Machine

def exec (i : Instr) (s : State) : Host.Outcome State Fault Refusal :=
  match i with
  | .dStart => Sys2Proof.Machine.execDStart s
  | .dBit v => Sys2Proof.Machine.execDBit v s
  | .dEnd => Sys2Proof.Machine.execDEnd s
  | .eStart => Sys2Proof.Machine.execEStart s
  | .eSym b => Sys2Proof.Machine.execESym b s
  | .eEnd => Sys2Proof.Machine.execEEnd s

end Sys2Proof.Machine
end

