-- ==== Sys2Proof/Machine/Step.lean ====
section
/-! DEFINITION. One step of the machine: the host's next event. A command word is decoded for its port and run
(R160, R190); a table write or reset takes effect (R81, R270); with nothing presented, the engines do nothing and
keep their state (R254). -/

namespace Sys2Proof.Machine

/-- What a host event does to the state it is taken from. DESIGN CHOICE (log 15): a fault or refusal of one engine's
step ends the run of the whole machine, the other engine included; the spec only denies that step a result. -/
def takeEvent (ev : HostEvent) (s : State) : Host.Outcome State Fault Refusal :=
  match ev with
  | .command p w =>
    match decode p w with
    | .command i => exec i s
    | .reserved => reservedWord s
  | .tWrite i w => hostTWrite i w s
  | .cWrite b e => hostCWrite b e s
  | .reset => .next (hostReset s)

/-- One step. -/
def step (s : State) : Host.Outcome State Fault Refusal :=
  match fetch s with
  | none => .next s
  | some (ev, rest) => takeEvent ev rest

/-- The state whose next step takes the given command word. The table's word does not name its port; it is put on
DEC's, the one `decodeTableWord` reads (log 2). It stands for the host's sending the command: a machine at reset
with nothing presented stays as it is. -/
def State.withFetchWord (s : State) (nbits w : Nat) : State :=
  presentWord .dec (BitVec.ofNat 10 (w % 2 ^ nbits)) s

/-- `n` steps, stopping at the first fault or refusal. -/
def runSteps : Nat → State → Host.Outcome State Fault Refusal
  | 0, s => .next s
  | n + 1, s =>
    match step s with
    | .next t => runSteps n t
    | .fault f => .fault f
    | .refused r => .refused r

end Sys2Proof.Machine
end

