-- ==== Sys2Proof/Machine/HostTree.lean ====
section
/-! DEFINITION. The host's reference functions on trees (R4, R120 to R135): frequency table, tree builder, code
table builder. Nothing here is hardware. -/

namespace Sys2Proof.Machine

/-- `Tree` (R120): a leaf with its symbol, or an internal node with two children, each with a frequency. -/
inductive Tree where
  | leaf (sym : Byte) (freq : Nat)
  | internal (freq : Nat) (left right : Tree)
deriving DecidableEq, Repr

/-- The abstract tree an image denotes: a tree without frequencies (R63). -/
inductive Shape where
  | leaf (sym : Byte)
  | internal (left right : Shape)
deriving DecidableEq, Repr

/-- `FreqTable` (R120): 256 counts, index = symbol value. -/
abbrev FreqTable := List Nat

/-- `CodeTable` (R120): a partial map from symbols to bit-strings. -/
abbrev CodeTable := Byte → Option (List Bool)

/-- A tree without its frequencies (R63, R138). -/
def shapeOf : Tree → Shape
  | .leaf s _ => .leaf s
  | .internal _ l r => .internal (shapeOf l) (shapeOf r)

/-- `n.freq` (R123). -/
def freqOf : Tree → Nat
  | .leaf _ f => f
  | .internal f _ _ => f

/-- `minsym(n)`, the least symbol of the subtree (R123). -/
def minSym : Tree → Nat
  | .leaf s _ => s.toNat
  | .internal _ l r => min (minSym l) (minSym r)

/-- The symbols of the leaves, left to right. -/
def leafSyms : Tree → List Byte
  | .leaf s _ => [s]
  | .internal _ l r => leafSyms l ++ leafSyms r

/-- The sum of the frequencies of the leaves (R130). -/
def leafFreqSum : Tree → Nat
  | .leaf _ f => f
  | .internal _ l r => leafFreqSum l + leafFreqSum r

/-- The leaves with their frequencies, left to right. -/
def leavesOf : Tree → List (Byte × Nat)
  | .leaf s f => [(s, f)]
  | .internal _ l r => leavesOf l ++ leavesOf r

/-- The weighted external path length (R19, R129) of a subtree whose root is at depth `d`: "sum over leaves of (leaf
depth × leaf frequency)". -/
def weightedPathLength : Tree → Nat → Nat
  | .leaf _ f, d => d * f
  | .internal _ l r, d => weightedPathLength l (d + 1) + weightedPathLength r (d + 1)

/-- The number of nodes (R131). -/
def nodeCount : Tree → Nat
  | .leaf _ _ => 1
  | .internal _ l r => nodeCount l + nodeCount r + 1

/-- The depth: 0 for a leaf (R131). -/
def depthOf : Tree → Nat
  | .leaf _ _ => 0
  | .internal _ l r => max (depthOf l) (depthOf r) + 1

/-- `freq(X)` (R121): entry `s` counts the positions of `X` that hold `s`. -/
def freq (X : List Byte) : FreqTable :=
  (List.range Config.alphabet).map (fun s => X.countP (fun b => decide (b.toNat = s)))

/-- `key(a) < key(b)`: by frequency, then by least symbol (R123). -/
def keyLt (a b : Tree) : Bool :=
  decide (freqOf a < freqOf b) || (decide (freqOf a = freqOf b) && decide (minSym a < minSym b))

/-- The member of the queue with the least key, and the queue without it (R126, R127). -/
def popLeast : List Tree → Option (Tree × List Tree)
  | [] => none
  | a :: q =>
    match popLeast q with
    | none => some (a, [])
    | some (b, q') => if keyLt b a then some (b, a :: q') else some (a, q)

/-- Step 1: one leaf per symbol of non-zero frequency (R124). -/
def initialQueue (F : FreqTable) : List Tree :=
  (List.range Config.alphabet).filterMap (fun s =>
    if F.getD s 0 = 0 then none else some (.leaf (BitVec.ofNat 8 s) (F.getD s 0)))

/-- `SYN(s)` (R125): 0x00, or 0x01 when the one real symbol is 0x00. -/
def synSym (s : Byte) : Byte := if s = 0x00#8 then 0x01#8 else 0x00#8

/-- Step 2: the synthetic leaf beside a single one (R125). -/
def withSynthetic (q : List Tree) : List Tree :=
  match q with
  | [.leaf s f] => [.leaf s f, .leaf (synSym s) 1]
  | _ => q

/-- Step 3, the merge loop (R126, R127); `n` passes are enough when the queue has at most `n + 1` members. -/
def mergeLoop : Nat → List Tree → Option Tree
  | 0, q => q.head?
  | n + 1, q =>
    match popLeast q with
    | none => none
    | some (a, q1) =>
      match popLeast q1 with
      | none => some a
      | some (b, q2) => mergeLoop n (.internal (freqOf a + freqOf b) a b :: q2)

/-- `build(F)` (R127); none is `NoTree` (R128). -/
def build (F : FreqTable) : Option Tree :=
  mergeLoop (withSynthetic (initialQueue F)).length (withSynthetic (initialQueue F))

/-- `walk(n, p)` (R135): every leaf's symbol with the path to it, 0 for left and 1 for right. -/
def walkCodes : Tree → List Bool → List (Byte × List Bool)
  | .leaf s _, p => [(s, p)]
  | .internal _ l r, p => walkCodes l (p ++ [false]) ++ walkCodes r (p ++ [true])

/-- `codes(T)` (R135). -/
def codes (T : Tree) : CodeTable := fun b => (walkCodes T []).lookup b

end Sys2Proof.Machine
end

