-- ==== Sys2Proof/Machine/Images.lean ====
section
/-! DEFINITION. What the contents of TMEM and CTAB mean (R63, R64, R67, R68), and the images the host makes of a
tree and a code table (R138, R139). -/

namespace Sys2Proof.Machine

/-- The node a path from the node at `i` leads to: 0 takes the left child, 1 the right; a path goes on only from a
written internal word (R63, R64). -/
def nodeAt (M : Cells 19) (i : NodeIdx) : List Bool → Option NodeIdx
  | [] => some i
  | b :: p =>
    match Memory.read M i.toNat with
    | none => none
    | some w =>
      match kindOf w with
      | .leaf => none
      | .internal => nodeAt M (childOf w b) p

/-- A path from the root to a leaf with symbol `s` (R68). -/
def LeafAt (M : Cells 19) (p : List Bool) (s : Byte) : Prop :=
  ∃ i w, nodeAt M 0#9 p = some i ∧ Memory.read M i.toNat = some w ∧ kindOf w = .leaf ∧ symOf w = s

/-- `tree_of(M, i)` (R63), a partial function: it holds of `t` exactly when the recursion from `i` ends with `t`. -/
inductive TreeOf (M : Cells 19) : NodeIdx → Shape → Prop where
  | leaf (i : NodeIdx) (w : TreeWord) (hw : Memory.read M i.toNat = some w) (hk : kindOf w = .leaf) :
      TreeOf M i (.leaf (symOf w))
  | internal (i : NodeIdx) (w : TreeWord) (l r : Shape) (hw : Memory.read M i.toNat = some w)
      (hk : kindOf w = .internal) (hl : TreeOf M (leftOf w) l) (hr : TreeOf M (rightOf w) r) :
      TreeOf M i (.internal l r)

/-- `WF_TREE(M)` (R64), clause by clause. -/
structure WfTree (M : Cells 19) : Prop where
  /-- (a) Every word reachable from index 0 has been written. -/
  written : ∀ p i, nodeAt M 0#9 p = some i → ∃ w, Memory.read M i.toNat = some w
  /-- (b) The root is not a leaf. -/
  root : ∃ w, Memory.read M 0 = some w ∧ kindOf w = .internal
  /-- (c) No index is reachable from index 0 by two different paths. -/
  unshared : ∀ p q i, nodeAt M 0#9 p = some i → nodeAt M 0#9 q = some i → p = q
  /-- (d) The symbols of the reachable leaves are pairwise different. -/
  distinct : ∀ p q s, LeafAt M p s → LeafAt M q s → p = q

/-- The code table a CTAB image denotes (R67): length 0 is "no entry". -/
def tableOf (C : Cells 263) : CodeTable := fun b =>
  match Memory.read C b.toNat with
  | none => none
  | some e => if clenOf e = 0 then none else some (codeOf e)

/-- All 256 entries have been written (R68 (a), R281). -/
def AllWritten (C : Cells 263) : Prop := ∀ b : Byte, ∃ e, Memory.read C b.toNat = some e

/-- `WF_CTAB(C)` (R68). Clause (b) is about the SET of codes, so two symbols may have one and the same code. -/
structure WfCtab (C : Cells 263) : Prop where
  /-- (a) All 256 entries have been written. -/
  written : AllWritten C
  /-- (b) "no code is a prefix of another". -/
  prefixFree : ∀ b b' p p', tableOf C b = some p → tableOf C b' = some p' → p ≠ p' → ¬ p <+: p'

/-- `MATCH(M, C)` (R68): the image `C` is the code table of the tree image `M`. -/
structure Matches (M : Cells 19) (C : Cells 263) : Prop where
  wfTree : WfTree M
  /-- A leaf's symbol has the path to the leaf as its code, and its depth as the length. -/
  onLeaf : ∀ b p, LeafAt M p b → ∃ e, Memory.read C b.toNat = some e ∧ codeOf e = p ∧ clenOf e = p.length
  /-- A symbol of no leaf has length 0. -/
  offLeaf : ∀ b, (¬ ∃ p, LeafAt M p b) → ∃ e, Memory.read C b.toNat = some e ∧ clenOf e = 0

/-- `place(n)` from `next = i` (R138): the words of the nodes in pre-order, and the next index. -/
def placeNode : Tree → Nat → Cells 19 × Nat
  | .leaf s _, i => ([(i, leafWord s)], i + 1)
  | .internal _ l r, i =>
    let L := placeNode l (i + 1)
    let R := placeNode r L.2
    ((i, internalWord (BitVec.ofNat 9 (i + 1)) (BitVec.ofNat 9 L.2)) :: (L.1 ++ R.1), R.2)

/-- `layout(T)` (R138), for a tree of at most 512 nodes. -/
def layout (T : Tree) : Cells 19 := (placeNode T 0).1

/-- `ctab_image(CT)` (R139): all 256 entries, "no entry" as 0. -/
def ctabImage (CT : CodeTable) : Cells 263 :=
  (List.range Config.alphabet).map (fun b =>
    (b, match CT (BitVec.ofNat 8 b) with
        | none => 0#263
        | some p => codeEntry p))

end Sys2Proof.Machine
end

