-- ==== Sys2Proof/Machine/Packing.lean ====
section
/-! DEFINITION. The packing functions (R16, R17), and the encoded bit sequence ENC's registers stand for (R42). -/

namespace Sys2Proof.Machine

/-- Bit `i` of a packed byte sequence: bit `7 - (i mod 8)` of byte `i div 8` (R16). -/
def packedBit (Y : List Byte) (i : Nat) : Bool := (Y.getD (i / 8) 0x00#8).getLsbD (7 - i % 8)

/-- The first `n` bits of a packed byte sequence (R17). -/
def bitsOf (Y : List Byte) (n : Nat) : List Bool := (List.range n).map (packedBit Y)

/-- `unpack(Y, n)`, "defined when len(Y) = ceil(n / 8)" (R17). -/
def unpack (Y : List Byte) (n : Nat) : Option (List Bool) :=
  if Y.length = (n + 7) / 8 then some (bitsOf Y n) else none

/-- Byte `j` of `pack(B)`: the earlier bit is the more significant, bits past the end are 0 (R16). -/
def packByte (B : List Bool) (j : Nat) : Byte :=
  (List.range 8).foldl (fun acc k => if B.getD (8 * j + k) false then acc ||| (0x80#8 >>> k) else acc) 0x00#8

/-- `pack(B)` (R16). -/
def pack (B : List Bool) : List Byte × Nat :=
  ((List.range ((B.length + 7) / 8)).map (packByte B), B.length)

/-- The sequence of all bits appended since the last `E_START`, as ENC's registers hold it: the complete bytes, then
the pending ones of `EACC` (R42: "keep EOUT, EACC and EBITS and define B as unpack"). -/
def encodedBits (e : Enc) : List Bool := bitsOf (e.eout ++ [e.eacc]) e.ebits.toNat

end Sys2Proof.Machine
end

