-- ==== Sys2Proof/Machine/Reference.lean ====
section
/-! DEFINITION. Command streams and pseudo-commands (R105, R106), the transforms as pure functions (R142, R143),
and `compress` and `decompress` as host functions around engine runs (R146, R147). -/

namespace Sys2Proof.Machine

/-! ### Command streams -/

/-- `D_BITS`: one `D_BIT` per bit (R106). -/
def dBits (B : List Bool) : List Instr := B.map (fun b => .dBit (symbolOfBit b))

/-- The characters of a `D_BITS` string read as bits; none where a character is neither `0` nor `1` (R106). -/
def bitsOfChars : List Char → Option (List Bool)
  | [] => some []
  | c :: cs =>
    match bitsOfChars cs with
    | none => none
    | some B => if c = '0' then some (false :: B) else if c = '1' then some (true :: B) else none

/-- `E_STR`: one `E_SYM` per byte (R106). -/
def eStr (X : List Byte) : List Instr := X.map .eSym

/-- A whole decoder run on bit symbols, malformed ones included (R144). -/
def dRun (S : List Byte) : List Instr := .dStart :: (S.map .dBit ++ [.dEnd])

/-- `D_DECODE` (R106). -/
def dDecode (B : List Bool) : List Instr := .dStart :: (dBits B ++ [.dEnd])

/-- `E_ENCODE` (R106). -/
def eEncode (X : List Byte) : List Instr := .eStart :: (eStr X ++ [.eEnd])

/-- The host events that present a stream of commands, each on its own port (R105). -/
def present (is : List Instr) : List HostEvent := is.map (fun i => .command i.port (encode i))

/-- A stream of commands run one after the other, stopping at the first fault or refusal. -/
def execAll : List Instr → State → Result
  | [], s => .next s
  | i :: is, s =>
    match exec i s with
    | .next t => execAll is t
    | .fault f => .fault f
    | .refused r => .refused r

/-! ### The transforms as pure functions -/

/-- `enc(CT, X)` (R142). -/
def enc (CT : CodeTable) : List Byte → Except ErrKind (List Bool)
  | [] => .ok []
  | b :: X =>
    match CT b with
    | none => .error .internalEncoding
    | some p =>
      match enc CT X with
      | .error k => .error k
      | .ok B => .ok (p ++ B)

/-- `go(n, S, out)` of R143. `atRoot` says that the walk is at the root position. A leaf is stood on only when the
whole tree is one. -/
def decGo (root : Shape) : Shape → Bool → List Byte → List Byte → Except ErrKind (List Byte)
  | _, atRoot, [], out => if atRoot then .ok out else .error .truncatedStream
  | n, _, v :: S, out =>
    match bitOfSymbol v with
    | none => .error .malformedBit
    | some b =>
      match n with
      | .leaf _ => .error .treeFault
      | .internal l r =>
        match if b then r else l with
        | .leaf s => decGo root root true S (out ++ [s])
        | .internal l' r' => decGo root (.internal l' r') false S out

/-- `dec(T, S)` (R143). -/
def dec (T : Shape) (S : List Byte) : Except ErrKind (List Byte) := decGo T T true S []

/-! ### compress and decompress -/

/-- What a host function gives its caller: a value, the error kind of the run, or nothing because the machine
stopped or the input has no meaning. -/
inductive HostResult (α : Type) where
  | ok (a : α)
  | error (k : ErrKind)
  | refused
deriving DecidableEq, Repr

/-- An ENC instance whose launch state is the image `C` (R81, log 16). -/
def launchEnc (C : Cells 263) : State := State.reset.setEnc { Enc.reset with ctab := C }

/-- A DEC instance whose launch state is the image `M` (R81, log 16). -/
def launchDec (M : Cells 19) : State := State.reset.setDec { Dec.reset with tmem := M }

/-- The result of an ENC run (R11): the bit sequence where it ended well, the error kind where it ended in error. -/
def encResult (s : State) : HostResult (List Bool) :=
  match s.enc.estate with
  | .done =>
    match unpack s.enc.eout s.enc.ebits.toNat with
    | some B => .ok B
    | none => .refused
  | .error => .error s.enc.eerr
  | .idle => .refused
  | .run => .refused

/-- The result of a DEC run (R11). -/
def decResult (s : State) : HostResult (List Byte) :=
  match s.dec.dstate with
  | .done => .ok s.dec.dout
  | .error => .error s.dec.derr
  | .idle => .refused
  | .run => .refused

/-- `compress(X)` (R146): a pair of the encoded bits and the tree, none for `NoTree`. -/
def compress (X : List Byte) : HostResult (List Bool × Option Tree) :=
  match build (freq X) with
  | none => .ok ([], none)
  | some T =>
    match execAll (eEncode X) (launchEnc (ctabImage (codes T))) with
    | .next t =>
      match encResult t with
      | .ok B => .ok (B, some T)
      | .error k => .error k
      | .refused => .refused
    | .fault _ => .refused
    | .refused _ => .refused

/-- `decompress(B, T)` (R147). With `NoTree` only the empty sequence has a meaning (U3). -/
def decompress (B : List Bool) (T : Option Tree) : HostResult (List Byte) :=
  match T, B with
  | none, _ :: _ => .refused
  | none, [] =>
    match execAll (dDecode []) State.reset with
    | .next t => decResult t
    | .fault _ => .refused
    | .refused _ => .refused
  | some T, B =>
    match execAll (dDecode B) (launchDec (layout T)) with
    | .next t => decResult t
    | .fault _ => .refused
    | .refused _ => .refused

end Sys2Proof.Machine
end

