-- ==== Sys2Proof/Machine/Listing.lean ====
section
/-! DEFINITION. The textual notation for command streams (R105, R106): one command or pseudo-command a line, read from
its characters. What the spec leaves to the reader of a line (blanks, quotes, `0x` numbers) is log 20. -/

namespace Sys2Proof.Machine

/-- The text before the comment (R105): a `;` that stands neither in a string nor as a quoted character starts it. The
flag says that a string is open. DESIGN CHOICE (log 20): a quoted character is an apostrophe, any one character and an
apostrophe, so `'''` is the apostrophe quoted and `';'` no comment; any other apostrophe opens nothing. -/
def stripComment : Bool → List Char → List Char
  | _, [] => []
  | true, c :: cs => c :: stripComment (c != '"') cs
  | false, '\'' :: c :: '\'' :: cs => '\'' :: c :: '\'' :: stripComment false cs
  | false, c :: cs => if c = ';' then [] else c :: stripComment (c == '"') cs

/-- The text without blanks at its two ends. -/
def trimBlanks (cs : List Char) : List Char :=
  ((cs.dropWhile (· == ' ')).reverse.dropWhile (· == ' ')).reverse

/-- A digit's value: 0 to 9, and for hexadecimal a to f in either case. -/
def digitValue (c : Char) : Option Nat :=
  if 48 ≤ c.toNat ∧ c.toNat ≤ 57 then some (c.toNat - 48)
  else if 65 ≤ c.toNat ∧ c.toNat ≤ 70 then some (c.toNat - 55)
  else if 97 ≤ c.toNat ∧ c.toNat ≤ 102 then some (c.toNat - 87)
  else none

/-- The number the digits of a base write, after the digits already read. -/
def numberOfDigits (base : Nat) : Nat → List Char → Option Nat
  | acc, [] => some acc
  | acc, c :: cs =>
    match digitValue c with
    | none => none
    | some d => if d < base then numberOfDigits base (base * acc + d) cs else none

/-- "a number 0 to 255" (R105), hexadecimal when it begins with `0x`, else decimal (R12). -/
def byteOfNumber (cs : List Char) : Option Byte :=
  match
    match cs with
    | [] => none
    | '0' :: 'x' :: c :: ds => numberOfDigits 16 0 (c :: ds)
    | c :: ds => numberOfDigits 10 0 (c :: ds) with
  | none => none
  | some n => if n < 256 then some (BitVec.ofNat 8 n) else none

/-- A character as the byte it stands for, by ASCII (R106, G1). -/
def byteOfChar (c : Char) : Option Byte := if c.toNat < 128 then some (BitVec.ofNat 8 c.toNat) else none

/-- The bytes of a string, one a character (R106). -/
def bytesOfChars : List Char → Option (List Byte)
  | [] => some []
  | c :: cs =>
    match byteOfChar c, bytesOfChars cs with
    | some b, some bs => some (b :: bs)
    | _, _ => none

/-- What stands between the quotes of a string operand (R106). -/
def unquote (cs : List Char) : Option (List Char) :=
  match cs with
  | '"' :: rest => if rest.getLast? = some '"' ∧ '"' ∉ rest.dropLast then some rest.dropLast else none
  | _ => none

/-- The operand of `E_SYM`: "a number 0 to 255, or a quoted character standing for its byte value" (R105). -/
def symOperand (cs : List Char) : Option Byte :=
  match cs with
  | ['\'', c, '\''] => byteOfChar c
  | _ => byteOfNumber cs

/-- A mnemonic of the table or of R106, with the operand that follows it, as the commands it stands for. -/
def commandsOf (mnemonic operand : List Char) : Option (List Instr) :=
  if mnemonic = ['D', '_', 'S', 'T', 'A', 'R', 'T'] then if operand = [] then some [.dStart] else none
  else if mnemonic = ['D', '_', 'B', 'I', 'T'] then (byteOfNumber operand).map (fun v => [.dBit v])
  else if mnemonic = ['D', '_', 'E', 'N', 'D'] then if operand = [] then some [.dEnd] else none
  else if mnemonic = ['E', '_', 'S', 'T', 'A', 'R', 'T'] then if operand = [] then some [.eStart] else none
  else if mnemonic = ['E', '_', 'S', 'Y', 'M'] then (symOperand operand).map (fun b => [.eSym b])
  else if mnemonic = ['E', '_', 'E', 'N', 'D'] then if operand = [] then some [.eEnd] else none
  else if mnemonic = ['D', '_', 'B', 'I', 'T', 'S'] then
    ((unquote operand).bind bitsOfChars).map dBits
  else if mnemonic = ['D', '_', 'D', 'E', 'C', 'O', 'D', 'E'] then
    ((unquote operand).bind bitsOfChars).map dDecode
  else if mnemonic = ['E', '_', 'S', 'T', 'R'] then ((unquote operand).bind bytesOfChars).map eStr
  else if mnemonic = ['E', '_', 'E', 'N', 'C', 'O', 'D', 'E'] then
    ((unquote operand).bind bytesOfChars).map eEncode
  else none

/-- What a line says, without its comment and the blanks around it. -/
def lineText (cs : List Char) : List Char := trimBlanks (stripComment false cs)

/-- The commands of one line, none where it is not a line of the notation; a blank or comment line holds none. -/
def parseLine (cs : List Char) : Option (List Instr) :=
  let text := lineText cs
  if text = [] then some []
  else commandsOf (text.takeWhile (· != ' ')) (trimBlanks (text.dropWhile (· != ' ')))

/-- The port a line is for: "the prefix `D_` or `E_` says which port the line is for" (R105). -/
def linePort (cs : List Char) : Option Port :=
  match lineText cs with
  | 'D' :: '_' :: _ => some .dec
  | 'E' :: '_' :: _ => some .enc
  | _ => none

/-- The commands of a list of lines for one port: "a stream for one port holds lines of one prefix only" (R105). A
blank or comment line has no prefix and stands in either. DESIGN CHOICE (log 20): a pseudo-command that expands to
nothing counts as a line of its prefix, so `D_BITS ""` stands in no ENC stream. -/
def parseStream (p : Port) : List (List Char) → Option (List Instr)
  | [] => some []
  | line :: lines =>
    if linePort line = some p ∨ lineText line = [] then
      match parseLine line, parseStream p lines with
      | some is, some js => some (is ++ js)
      | _, _ => none
    else none

/-- The line of a command: its mnemonic and its operand as a decimal number (R105). -/
def lineOf (i : Instr) : List Char :=
  (mnemonicOf i).toList ++
    match operandOf i with
    | none => []
    | some v => ' ' :: Nat.toDigits 10 v.toNat

/-- The line of a command or pseudo-command with a string operand (R106). -/
def stringLine (mnemonic : String) (cs : List Char) : List Char := mnemonic.toList ++ ' ' :: '"' :: (cs ++ ['"'])

/-- A bit as the character of R13. -/
def charOfBit (b : Bool) : Char := if b then '1' else '0'

end Sys2Proof.Machine
end

