-- ==== Sys2Proof/Safety.lean ====
section
/-! DEFINITION. What counts as a good state and a good end of a run, in the terms the statements use: the invariants
of 10_state.md, and how a run ends (R10). -/

namespace Sys2Proof.Safety

open Sys2Proof.Machine

/-- The run of DEC ended well (R10). -/
abbrev DecEndsWell (s : State) : Prop := s.dec.dstate = .done

/-- The run of DEC ended in the error `k` (R10, R230). -/
abbrev DecEndsInError (s : State) (k : ErrKind) : Prop := s.dec.dstate = .error ∧ s.dec.derr = k

/-- The run of ENC ended well (R10). -/
abbrev EncEndsWell (s : State) : Prop := s.enc.estate = .done

/-- The run of ENC ended in the error `k` (R10, R230). -/
abbrev EncEndsInError (s : State) (k : ErrKind) : Prop := s.enc.estate = .error ∧ s.enc.eerr = k

/-- The pointer stands at the root or on an internal word (R28). -/
def PointerOk (d : Dec) : Prop :=
  d.dcur = 0#9 ∨ ∃ w, Memory.read d.tmem d.dcur.toNat = some w ∧ kindOf w = .internal

/-- The invariants of DEC. -/
structure DecInv (d : Dec) : Prop where
  /-- "DERR != 0 if and only if DSTATE = ERROR" (R22). -/
  errIff : d.derr ≠ .none ↔ d.dstate = .error
  /-- ENC's kind never appears in `DERR` (R22). -/
  errKind : d.derr ≠ .internalEncoding
  /-- `DBAD` is 0x00 unless the last error is `MALFORMED_BIT`, and then it is a malformed symbol (R23). -/
  bad : if d.derr = .malformedBit then bitOfSymbol d.dbad = none else d.dbad = 0x00#8
  /-- `DSYMS = len(DOUT)` (R25). -/
  syms : d.dsyms.toNat = d.dout.length
  /-- `DSYMS <= DPOS` (R207). -/
  order : d.dsyms.toNat ≤ d.dpos.toNat
  /-- The pointer invariant while TMEM is a run's launch state (R28). -/
  pointer : d.dstate = .run → PointerOk d
  /-- No run since reset: nothing has been counted or emitted (R21, R49). -/
  idle : d.dstate = .idle → d.dcur = 0#9 ∧ d.dpos = 0#64 ∧ d.dout = []
  /-- A run ends well at the root only (R200). -/
  done : d.dstate = .done → d.dcur = 0#9
  /-- A truncated run ended mid-path (R200, R230). -/
  truncated : d.derr = .truncatedStream → d.dcur ≠ 0#9
  /-- `TREE_FAULT` is raised at the root (R197, R230). -/
  treeFault : d.derr = .treeFault → d.dcur = 0#9
  /-- TMEM keeps its canonical form inside its 512 words (R61). -/
  tmem : Memory.wf Config.tmemDepth d.tmem

/-- The invariants of ENC. -/
structure EncInv (e : Enc) : Prop where
  /-- "EERR != 0 if and only if ESTATE = ERROR" (R36). -/
  errIff : e.eerr ≠ .none ↔ e.estate = .error
  /-- "No other value appears in EERR" (R36). -/
  errKind : e.eerr = .none ∨ e.eerr = .internalEncoding
  /-- `EBAD` is 0x00 unless the last run ended in `INTERNAL_ENCODING` (R37). -/
  bad : e.eerr = .none → e.ebad = 0x00#8
  /-- Before the end of a run, `EOUT` holds the complete bytes only (R38, R42). -/
  outOpen : e.estate ≠ .done → e.eout.length = e.ebits.toNat / 8
  /-- "the 8 - (EBITS mod 8) low bits are 0" (R39). -/
  accLow : e.estate ≠ .done → ∀ k, k < 8 - e.ebits.toNat % 8 → e.eacc.getLsbD k = false
  /-- After `E_END`, (EOUT, EBITS) is a packed sequence and nothing is pending (R42, R170). -/
  outDone : e.estate = .done → pack (bitsOf e.eout e.ebits.toNat) = (e.eout, e.ebits.toNat) ∧ e.eacc = 0x00#8
  /-- No run since reset: nothing has been counted or appended (R35, R49). -/
  idle : e.estate = .idle → e.epos = 0#64 ∧ e.ebits = 0#64 ∧ e.eacc = 0x00#8 ∧ e.eout = []
  /-- CTAB keeps its canonical form inside its 256 entries (R66). -/
  ctab : Memory.wf Config.alphabet e.ctab

/-- The invariant of the machine. -/
structure Inv (s : State) : Prop where
  dec : DecInv s.dec
  enc : EncInv s.enc

/-- A host event that is the START command of a port (R161, R191). -/
def isStart (p : Port) (ev : HostEvent) : Prop :=
  ∃ w, ev = .command p w ∧ decode p w = .command (startCommand p)

/-- Two contents of TMEM that differ only in bits DEC ignores: the same addresses written, internal words equal,
leaf words with the same symbol (R96, D37, U8). -/
def SameTreeWords (M M' : Cells 19) : Prop :=
  ∀ a, match Memory.read M a, Memory.read M' a with
    | none, none => True
    | some w, some w' =>
      kindOf w = kindOf w' ∧
        (kindOf w = .internal → leftOf w = leftOf w' ∧ rightOf w = rightOf w') ∧
        (kindOf w = .leaf → symOf w = symOf w')
    | _, _ => False

/-- Two contents of CTAB that differ only in bits ENC ignores: the same entries written, with equal codes
(R100, D37, U8). -/
def SameCodes (C C' : Cells 263) : Prop :=
  ∀ a, match Memory.read C a, Memory.read C' a with
    | none, none => True
    | some e, some e' => codeOf e = codeOf e'
    | _, _ => False

/-- The answer with another content of TMEM in its next state. -/
def withTmem (M : Cells 19) : Result → Result
  | .next t => .next (t.setDec { t.dec with tmem := M })
  | .fault f => .fault f
  | .refused r => .refused r

/-- The answer with another content of CTAB in its next state. -/
def withCtab (C : Cells 263) : Result → Result
  | .next t => .next (t.setEnc { t.enc with ctab := C })
  | .fault f => .fault f
  | .refused r => .refused r

/-- The number of leaves of an abstract tree. -/
def leafCount : Shape → Nat
  | .leaf _ => 1
  | .internal l r => leafCount l + leafCount r

/-- The number of nodes of an abstract tree. -/
def shapeNodes : Shape → Nat
  | .leaf _ => 1
  | .internal l r => shapeNodes l + shapeNodes r + 1

end Sys2Proof.Safety
end

