-- ==== Sys2Proof/Certificates/Slice0/Obligations.lean ====
section
/-! DEFINITION. The statements for the provers, one per `def`. -/

open Sys2Proof Sys2Proof.Machine Sys2Proof.Safety

/-! ### Reset -/

/-- R49: every register and stream has its reset value and no table word holds a value. -/
def Obligations.ResetValues : Prop :=
  State.reset.dec.dstate = .idle ∧ State.reset.dec.derr = .none ∧ State.reset.dec.dcur = 0#9 ∧
  State.reset.dec.dpos = 0#64 ∧ State.reset.dec.dsyms = 0#64 ∧ State.reset.dec.dbad = 0x00#8 ∧
  State.reset.dec.dout = [] ∧ (∀ i, readTmem i State.reset = none) ∧
  State.reset.enc.estate = .idle ∧ State.reset.enc.eerr = .none ∧ State.reset.enc.eacc = 0x00#8 ∧
  State.reset.enc.epos = 0#64 ∧ State.reset.enc.ebits = 0#64 ∧ State.reset.enc.ebad = 0x00#8 ∧
  State.reset.enc.eout = [] ∧ (∀ b, readCtab b State.reset = none)

/-- R270, R271: the reset event acts on both engines together, in any state; every table word is then treated as
never written; until its START an engine ignores data tokens and END commands. -/
def Obligations.ResetEventClearsBothEngines : Prop :=
  ∀ (s : State) (rest : List HostEvent), s.inbox = .reset :: rest →
    ∃ t, step s = .next t ∧ t.dec = State.reset.dec ∧ t.enc = State.reset.enc ∧
      (∀ i, readTmem i t = none) ∧ (∀ b, readCtab b t = none) ∧
      ∀ i : Instr, i ≠ .dStart → i ≠ .eStart → exec i t = .next t

/-! ### Command words and steps -/

/-- The words of the spec's tables and vectors decode to the commands they stand for, and reserved words to none
(R91, R92, R94, V-W1 to V-W9). -/
def Obligations.DecodeOfSpecWords : Prop :=
  decode .dec 0x200#10 = .command .dStart ∧ decode .dec 0x000#10 = .command (.dBit 0x00#8) ∧
  decode .dec 0x001#10 = .command (.dBit 0x01#8) ∧ decode .dec 0x032#10 = .command (.dBit 0x32#8) ∧
  decode .dec 0x100#10 = .command .dEnd ∧ decode .enc 0x068#10 = .command (.eSym 0x68#8) ∧
  decode .enc 0x0FF#10 = .command (.eSym 0xFF#8) ∧ decode .enc 0x200#10 = .command .eStart ∧
  decode .enc 0x100#10 = .command .eEnd ∧
  ∀ p : Port, ∀ w ∈ [0x101#10, 0x1FF#10, 0x201#10, 0x2FF#10, 0x300#10, 0x3FF#10], decode p w = .reserved

/-- Decoding and encoding agree in both directions: a port reads a command from a word exactly when the command is
well-formed for the port and the word is its encoding (R91, R92, R95). -/
def Obligations.DecodeEncodeAgree : Prop :=
  ∀ (p : Port) (w : CmdWord) (i : Instr),
    decode p w = .command i ↔ Instr.wellFormed p i = true ∧ encode i = w

/-- Decoding by the match and mask of the opcode table gives what R95's test order gives: one row for a command,
none for a reserved word; 766 words of each port are reserved (R94, R107). -/
def Obligations.DecodeFollowsTheOpcodeTable : Prop :=
  (∀ (p : Port) (w : CmdWord), matchingMnemonics p w =
    match decode p w with
    | .command i => [mnemonicOf i]
    | .reserved => []) ∧
  ∀ p : Port, ((List.range 1024).filter (fun w => decide (decode p (BitVec.ofNat 10 w) = .reserved))).length = 766

/-- R105: the line of every command, its operand a decimal number, reads back as that command. That a number without
`0x` is decimal is R12; the rest of the line form is log 20. -/
def Obligations.CommandLinesReadBack : Prop :=
  ∀ i : Instr, parseLine (lineOf i) = some [i]

/-- R106: the lines of the four pseudo-commands expand as the rule's table says, for every bit sequence, and for every
string of ASCII bytes but the quote. -/
def Obligations.PseudoCommandsExpand : Prop :=
  (∀ B : List Bool,
    parseLine (stringLine "D_BITS" (B.map charOfBit)) =
      some (B.map (fun b => Instr.dBit (if b then 0x01#8 else 0x00#8))) ∧
    parseLine (stringLine "D_DECODE" (B.map charOfBit)) =
      some (.dStart :: (B.map (fun b => Instr.dBit (if b then 0x01#8 else 0x00#8)) ++ [.dEnd]))) ∧
  ∀ X : List Byte, (∀ b ∈ X, b.toNat < 128 ∧ b ≠ 0x22#8) →
    parseLine (stringLine "E_STR" (X.map (fun b => Char.ofNat b.toNat))) = some (X.map Instr.eSym) ∧
    parseLine (stringLine "E_ENCODE" (X.map (fun b => Char.ofNat b.toNat))) =
      some (.eStart :: (X.map Instr.eSym ++ [.eEnd]))

/-- A step whose next host event is a command word of a port runs the command the word decodes to, on the state
without that event (R160, R190). -/
def Obligations.StepRunsTheDecodedCommand : Prop :=
  ∀ (s : State) (p : Port) (w : CmdWord) (rest : List HostEvent) (i : Instr),
    s.inbox = .command p w :: rest → decode p w = .command i →
    step s = exec i { s with inbox := rest }

/-- R94: which words are reserved, and that an engine given one takes a step that changes no state. The spec also
lets a model refuse the stream (R243, U7); that the step is taken is the model's choice, log 3. -/
def Obligations.ReservedWordChangesNothing : Prop :=
  (∀ (p : Port) (w : CmdWord), decode p w = .reserved ↔
    (opField w = 3#2 ∨ (opField w = 1#2 ∧ argField w ≠ 0x00#8) ∨ (opField w = 2#2 ∧ argField w ≠ 0x00#8))) ∧
  ∀ (s : State) (p : Port) (w : CmdWord) (rest : List HostEvent),
    s.inbox = .command p w :: rest → decode p w = .reserved →
    step s = .next { s with inbox := rest }

/-- R254: with no command to process the engines do nothing and keep their state. -/
def Obligations.NoCommandKeepsState : Prop :=
  ∀ s : State, s.inbox = [] → step s = .next s

/-! ### The decoder -/

/-- R191: `D_START` is accepted in every state and leaves a clean run; a second one leaves the same state. -/
def Obligations.DStartBeginsCleanRun : Prop :=
  ∀ s : State, ∃ t, exec .dStart s = .next t ∧
    t = { s with dec := { s.dec with
      dstate := .run, derr := .none, dbad := 0x00#8, dcur := 0#9, dpos := 0#64, dsyms := 0#64, dout := [] } } ∧
    exec .dStart t = .next t

/-- `D_BIT` on a well-formed bit symbol walks one edge (R195, R207): with both words it reads written and the word at
`DCUR` internal, an internal child becomes the pointer, and a leaf child is emitted with the pointer back at the root
in the same step. -/
def Obligations.DBitWalksOneEdge : Prop :=
  ∀ (s : State) (v : Byte) (n m : TreeWord) (c : NodeIdx),
    s.dec.dstate = .run → (v = 0x00#8 ∧ c = leftOf n ∨ v = 0x01#8 ∧ c = rightOf n) →
    readTmem s.dec.dcur s = some n → kindOf n = .internal → readTmem c s = some m →
    s.dec.dpos.toNat + 1 < 2 ^ 64 →
    (kindOf m = .internal →
      exec (.dBit v) s = .next { s with dec := { s.dec with dpos := s.dec.dpos + 1#64, dcur := c } }) ∧
    (kindOf m = .leaf → s.dec.dsyms.toNat + 1 < 2 ^ 64 →
      exec (.dBit v) s = .next { s with dec := { s.dec with
        dpos := s.dec.dpos + 1#64, dsyms := s.dec.dsyms + 1#64, dcur := 0#9, dout := s.dec.dout ++ [symOf m] } })

/-- R231, R238: a malformed bit symbol raises `MALFORMED_BIT` whatever TMEM holds, so it also wins over
`TREE_FAULT`. -/
def Obligations.DBitMalformedRaises : Prop :=
  ∀ (s : State) (v : Byte), s.dec.dstate = .run → v ≠ 0x00#8 → v ≠ 0x01#8 →
    exec (.dBit v) s =
      .next { s with dec := { s.dec with dstate := .error, derr := .malformedBit, dbad := v } }

/-- R195, R234: a well-formed bit symbol at a leaf word raises `TREE_FAULT`. -/
def Obligations.DBitOnLeafRaisesTreeFault : Prop :=
  ∀ (s : State) (v : Byte) (n : TreeWord), s.dec.dstate = .run → (v = 0x00#8 ∨ v = 0x01#8) →
    readTmem s.dec.dcur s = some n → kindOf n = .leaf →
    exec (.dBit v) s = .next { s with dec := { s.dec with dstate := .error, derr := .treeFault } }

/-- R197: in a state that meets DEC's invariant, `TREE_FAULT` is raised only at the root, on a leaf root word; on a
well-formed image it is never raised. -/
def Obligations.TreeFaultOnlyOnLeafRoot : Prop :=
  ∀ (s t : State) (v : Byte), DecInv s.dec → s.dec.dstate = .run → exec (.dBit v) s = .next t →
    (t.dec.derr = .treeFault → s.dec.dcur = 0#9 ∧ ∃ w, readTmem 0#9 s = some w ∧ kindOf w = .leaf) ∧
    (WfTree s.dec.tmem → t.dec.derr ≠ .treeFault)

/-- R200: `D_END` in a run ends it well at the root and raises `TRUNCATED_STREAM` elsewhere; outside a run it changes
nothing. -/
def Obligations.DEndChecksTheRoot : Prop :=
  ∀ s : State,
    (s.dec.dstate = .run → s.dec.dcur = 0#9 → exec .dEnd s = .next { s with dec := { s.dec with dstate := .done } }) ∧
    (s.dec.dstate = .run → s.dec.dcur ≠ 0#9 →
      exec .dEnd s = .next { s with dec := { s.dec with dstate := .error, derr := .truncatedStream } }) ∧
    (s.dec.dstate ≠ .run → exec .dEnd s = .next s)

/-- R174, R204: outside a run, data tokens and END commands change no state at all, malformed tokens included. -/
def Obligations.CommandsOutsideRunIgnored : Prop :=
  ∀ s : State,
    (s.dec.dstate ≠ .run → (∀ v, exec (.dBit v) s = .next s) ∧ exec .dEnd s = .next s) ∧
    (s.enc.estate ≠ .run → (∀ b, exec (.eSym b) s = .next s) ∧ exec .eEnd s = .next s)

/-! ### The encoder -/

/-- R161: `E_START` is accepted in every state and leaves a clean run; a second one leaves the same state. -/
def Obligations.EStartBeginsCleanRun : Prop :=
  ∀ s : State, ∃ t, exec .eStart s = .next t ∧
    t = { s with enc := { s.enc with
      estate := .run, eerr := .none, ebad := 0x00#8, eacc := 0x00#8, ebits := 0#64, epos := 0#64, eout := [] } } ∧
    exec .eStart t = .next t

/-- R165, R166, R176: in a state that meets ENC's invariant, `E_SYM b` appends exactly the code of `b` to the encoded
bit sequence, puts `floor((p + n) / 8)` bytes, at most 32, behind those of `EOUT`, and counts. -/
def Obligations.ESymAppendsTheCode : Prop :=
  ∀ (s : State) (b : Byte) (e : CodeEntry), EncInv s.enc → s.enc.estate = .run →
    readCtab b s = some e → clenOf e ≠ 0 →
    s.enc.ebits.toNat + clenOf e < 2 ^ 64 → s.enc.epos.toNat + 1 < 2 ^ 64 →
    ∃ t ys, exec (.eSym b) s = .next t ∧
      encodedBits t.enc = encodedBits s.enc ++ codeOf e ∧
      t.enc.ebits.toNat = s.enc.ebits.toNat + clenOf e ∧ t.enc.epos = s.enc.epos + 1#64 ∧
      t.enc.eout = s.enc.eout ++ ys ∧ ys.length = (s.enc.ebits.toNat % 8 + clenOf e) / 8 ∧ ys.length ≤ 32 ∧
      t.enc.estate = .run ∧ t.enc.eerr = s.enc.eerr ∧ t.enc.ebad = s.enc.ebad ∧ t.enc.ctab = s.enc.ctab ∧
      t.dec = s.dec ∧ t.inbox = s.inbox

/-- R165, R233: `E_SYM` on an entry of length 0 raises `INTERNAL_ENCODING` and appends nothing. -/
def Obligations.ESymWithoutCodeRaises : Prop :=
  ∀ (s : State) (b : Byte) (e : CodeEntry), s.enc.estate = .run → readCtab b s = some e → clenOf e = 0 →
    exec (.eSym b) s = .next { s with enc := { s.enc with estate := .error, eerr := .internalEncoding, ebad := b } }

/-- R170: `E_END` in a run appends the partial byte if there is one, leaves `EBITS` as it is and ends the run; with
ENC's invariant (EOUT, EBITS) is then the packed form of the encoded bit sequence. Outside a run it changes
nothing. -/
def Obligations.EEndFlushesAndEndsWell : Prop :=
  ∀ s : State,
    (s.enc.estate = .run → ∃ t, exec .eEnd s = .next t ∧
      t = { s with enc := { s.enc with
        estate := .done
        eout := if s.enc.ebits.toNat % 8 = 0 then s.enc.eout else s.enc.eout ++ [s.enc.eacc]
        eacc := if s.enc.ebits.toNat % 8 = 0 then s.enc.eacc else 0x00#8 } } ∧
      (EncInv s.enc → pack (encodedBits s.enc) = (t.enc.eout, t.enc.ebits.toNat) ∧ t.enc.eacc = 0x00#8 ∧
        t.enc.eout.length = (t.enc.ebits.toNat + 7) / 8)) ∧
    (s.enc.estate ≠ .run → exec .eEnd s = .next s)

/-- R42: in a state that meets ENC's invariant, `EOUT` is the complete bytes of `pack(B)` and `EACC` its last partial
byte, for the encoded bit sequence `B`; after the end of a run (EOUT, EBITS) is `pack(B)`. -/
def Obligations.OutputIsPackedSequence : Prop :=
  ∀ e : Enc, EncInv e →
    (encodedBits e).length = e.ebits.toNat ∧
    (e.estate ≠ .done →
      (pack (encodedBits e)).1 = (if e.ebits.toNat % 8 = 0 then e.eout else e.eout ++ [e.eacc]) ∧
      e.eout = (pack (encodedBits e)).1.take (e.ebits.toNat / 8) ∧ (e.ebits.toNat % 8 = 0 → e.eacc = 0x00#8)) ∧
    (e.estate = .done → pack (encodedBits e) = (e.eout, e.ebits.toNat) ∧ e.eacc = 0x00#8)

/-- R16, R17: bit `i` of a sequence is bit `7 - (i mod 8)` of byte `i div 8` of its packed form, the bits past the end
are 0; `unpack` is defined on the right number of bytes only and reads the bits at those places; and
`unpack(pack(B)) = B`. -/
def Obligations.UnpackInvertsPack : Prop :=
  (∀ B : List Bool,
    (pack B).2 = B.length ∧ (pack B).1.length = (B.length + 7) / 8 ∧
    (∀ i, i < 8 * (pack B).1.length →
      ((pack B).1.getD (i / 8) 0x00#8).getLsbD (7 - i % 8) = B.getD i false) ∧
    unpack (pack B).1 (pack B).2 = some B) ∧
  ∀ (Y : List Byte) (n : Nat),
    (Y.length ≠ (n + 7) / 8 → unpack Y n = none) ∧
    (Y.length = (n + 7) / 8 → ∃ B, unpack Y n = some B ∧ B.length = n ∧
      ∀ i, i < n → B.getD i false = (Y.getD (i / 8) 0x00#8).getLsbD (7 - i % 8))

/-! ### Stops -/

/-- R82: a `D_BIT` or `E_SYM` step that reads a table word never written is a fault, whichever of the two TMEM reads
it is. -/
def Obligations.UnwrittenReadFaults : Prop :=
  ∀ s : State,
    (∀ v, s.dec.dstate = .run → (v = 0x00#8 ∨ v = 0x01#8) → readTmem s.dec.dcur s = none →
      exec (.dBit v) s = .fault (.unwrittenTmem s.dec.dcur)) ∧
    (∀ v n c, s.dec.dstate = .run → (v = 0x00#8 ∧ c = leftOf n ∨ v = 0x01#8 ∧ c = rightOf n) →
      readTmem s.dec.dcur s = some n → kindOf n = .internal → readTmem c s = none →
      exec (.dBit v) s = .fault (.unwrittenTmem c)) ∧
    (∀ b, s.enc.estate = .run → readCtab b s = none → exec (.eSym b) s = .fault (.unwrittenCtab b))

/-- R48: a counter never wraps. In a next state of a command it has grown by at most one (`EBITS` by at most 255)
unless START cleared it, and a `D_BIT` or `E_SYM` that would take one past `2^64 - 1` is refused. -/
def Obligations.CountersNeverWrap : Prop :=
  (∀ (i : Instr) (s t : State), exec i s = .next t →
    (i ≠ .dStart →
      s.dec.dpos.toNat ≤ t.dec.dpos.toNat ∧ t.dec.dpos.toNat ≤ s.dec.dpos.toNat + 1 ∧
      s.dec.dsyms.toNat ≤ t.dec.dsyms.toNat ∧ t.dec.dsyms.toNat ≤ s.dec.dsyms.toNat + 1) ∧
    (i ≠ .eStart →
      s.enc.epos.toNat ≤ t.enc.epos.toNat ∧ t.enc.epos.toNat ≤ s.enc.epos.toNat + 1 ∧
      s.enc.ebits.toNat ≤ t.enc.ebits.toNat ∧ t.enc.ebits.toNat ≤ s.enc.ebits.toNat + 255)) ∧
  (∀ (s : State) (v : Byte) (n m : TreeWord) (c : NodeIdx),
    s.dec.dstate = .run → (v = 0x00#8 ∧ c = leftOf n ∨ v = 0x01#8 ∧ c = rightOf n) →
    readTmem s.dec.dcur s = some n → kindOf n = .internal → readTmem c s = some m →
    (s.dec.dpos.toNat = 2 ^ 64 - 1 ∨ kindOf m = .leaf ∧ s.dec.dsyms.toNat = 2 ^ 64 - 1) →
    exec (.dBit v) s = .refused .counterOverflow) ∧
  (∀ (s : State) (b : Byte) (e : CodeEntry), s.enc.estate = .run → readCtab b s = some e → clenOf e ≠ 0 →
    (2 ^ 64 ≤ s.enc.ebits.toNat + clenOf e ∨ s.enc.epos.toNat = 2 ^ 64 - 1) →
    exec (.eSym b) s = .refused .counterOverflow)

/-- The steps that stop, each where the spec says so (R48, R82, R285): a fault is a well-formed `D_BIT` in a run that
reads an unwritten word, at `DCUR` or at the child the bit chooses, or an `E_SYM` in a run on an unwritten entry; a
refusal is a counter at its limit or a host write during the owner's run. That nothing else stops is the model's choice
where the spec also lets a model refuse: a reserved word (log 3), a token or END outside a run (log 7), an ill-formed
image (log 8). -/
def Obligations.OnlyNamedStops : Prop :=
  ∀ (s : State) (ev : HostEvent) (rest : List HostEvent), s.inbox = ev :: rest →
    (∀ f, step s = .fault f →
      (∃ v b i, ev = .command .dec (encode (.dBit v)) ∧ s.dec.dstate = .run ∧ bitOfSymbol v = some b ∧
        f = .unwrittenTmem i ∧ readTmem i s = none ∧
        (i = s.dec.dcur ∨ ∃ n, readTmem s.dec.dcur s = some n ∧ kindOf n = .internal ∧ i = childOf n b)) ∨
      (∃ b, ev = .command .enc (encode (.eSym b)) ∧ s.enc.estate = .run ∧ f = .unwrittenCtab b ∧
        readCtab b s = none)) ∧
    (∀ r, step s = .refused r →
      (∃ v b n m, ev = .command .dec (encode (.dBit v)) ∧ s.dec.dstate = .run ∧ bitOfSymbol v = some b ∧
        r = .counterOverflow ∧ readTmem s.dec.dcur s = some n ∧ kindOf n = .internal ∧
        readTmem (childOf n b) s = some m ∧
        (s.dec.dpos.toNat = 2 ^ 64 - 1 ∨ kindOf m = .leaf ∧ s.dec.dsyms.toNat = 2 ^ 64 - 1)) ∨
      (∃ b e, ev = .command .enc (encode (.eSym b)) ∧ s.enc.estate = .run ∧ r = .counterOverflow ∧
        readCtab b s = some e ∧ clenOf e ≠ 0 ∧
        (2 ^ 64 ≤ s.enc.ebits.toNat + clenOf e ∨ s.enc.epos.toNat = 2 ^ 64 - 1)) ∨
      (∃ i w, ev = .tWrite i w ∧ s.dec.dstate = .run ∧ r = .tmemWriteDuringRun) ∨
      (∃ b e, ev = .cWrite b e ∧ s.enc.estate = .run ∧ r = .ctabWriteDuringRun))

/-! ### Frames -/

/-- What DEC's commands leave unchanged (R190, R191, R195, R200): all of ENC, what the host has yet to do, every word
of both memories; of DEC's registers, `D_BIT` leaves the state and error registers or, on an error, the pointer, the
counters and the stream; `D_END` leaves all but `DSTATE` and `DERR`. -/
def Obligations.DecoderCommandFrame : Prop :=
  ∀ (i : Instr) (s t : State), exec i s = .next t → i.port = .dec →
    t.enc = s.enc ∧ t.inbox = s.inbox ∧
    (∀ j, readTmem j t = readTmem j s) ∧ (∀ b, readCtab b t = readCtab b s) ∧ t.dec.tmem = s.dec.tmem ∧
    (∀ v, i = .dBit v →
      (t.dec.dstate = s.dec.dstate ∧ t.dec.derr = s.dec.derr ∧ t.dec.dbad = s.dec.dbad ∧
        (t.dec.dsyms = s.dec.dsyms ∧ t.dec.dout = s.dec.dout ∨ t.dec.dcur = 0#9 ∧ ∃ y, t.dec.dout = s.dec.dout ++ [y])) ∨
      (t.dec.dstate = .error ∧ t.dec.dcur = s.dec.dcur ∧ t.dec.dpos = s.dec.dpos ∧ t.dec.dsyms = s.dec.dsyms ∧
        t.dec.dout = s.dec.dout)) ∧
    (i = .dEnd → t.dec.dcur = s.dec.dcur ∧ t.dec.dpos = s.dec.dpos ∧ t.dec.dsyms = s.dec.dsyms ∧
      t.dec.dbad = s.dec.dbad ∧ t.dec.dout = s.dec.dout)

/-- What ENC's commands leave unchanged (R160, R161, R165, R170): all of DEC, what the host has yet to do, every word
of both memories; of ENC's registers, `E_SYM` leaves the state and error registers or, on an error, the accumulator,
the counters and the stream; `E_END` leaves the counters and the error registers. -/
def Obligations.EncoderCommandFrame : Prop :=
  ∀ (i : Instr) (s t : State), exec i s = .next t → i.port = .enc →
    t.dec = s.dec ∧ t.inbox = s.inbox ∧
    (∀ j, readTmem j t = readTmem j s) ∧ (∀ b, readCtab b t = readCtab b s) ∧ t.enc.ctab = s.enc.ctab ∧
    (∀ b, i = .eSym b →
      (t.enc.estate = s.enc.estate ∧ t.enc.eerr = s.enc.eerr ∧ t.enc.ebad = s.enc.ebad ∧
        ∃ ys, t.enc.eout = s.enc.eout ++ ys) ∨
      (t.enc.estate = .error ∧ t.enc.eacc = s.enc.eacc ∧ t.enc.epos = s.enc.epos ∧ t.enc.ebits = s.enc.ebits ∧
        t.enc.eout = s.enc.eout)) ∧
    (i = .eEnd → t.enc.epos = s.enc.epos ∧ t.enc.ebits = s.enc.ebits ∧ t.enc.eerr = s.enc.eerr ∧
      t.enc.ebad = s.enc.ebad)

/-! ### Errors -/

/-- R236, R237: an error entry changes nothing but the engine's state, its error register and its capture register,
whichever command raised it; the other engine is untouched; the kind and the capture are those of R230. -/
def Obligations.ErrorEntryIsPrecise : Prop :=
  ∀ (i : Instr) (s t : State), exec i s = .next t →
    (s.dec.dstate ≠ .error → t.dec.dstate = .error →
      ((∃ v, i = .dBit v ∧ bitOfSymbol v = none ∧
          t = { s with dec := { s.dec with dstate := .error, derr := .malformedBit, dbad := v } }) ∨
        (∃ v, i = .dBit v ∧ bitOfSymbol v ≠ none ∧
          t = { s with dec := { s.dec with dstate := .error, derr := .treeFault } }) ∨
        (i = .dEnd ∧ s.dec.dcur ≠ 0#9 ∧
          t = { s with dec := { s.dec with dstate := .error, derr := .truncatedStream } }))) ∧
    (s.enc.estate ≠ .error → t.enc.estate = .error →
      ∃ b, i = .eSym b ∧
        t = { s with enc := { s.enc with estate := .error, eerr := .internalEncoding, ebad := b } })

/-- R239: ERROR is sticky. Whatever the host does next but the engine's START command or reset, the engine in ERROR
keeps every register and its stream; START leaves it in RUN with no error, reset in IDLE with none. -/
def Obligations.ErrorIsSticky : Prop :=
  ∀ (s t : State) (ev : HostEvent) (rest : List HostEvent), s.inbox = ev :: rest → step s = .next t →
    (s.dec.dstate = .error →
      (¬ isStart .dec ev → ev ≠ .reset → t.dec = { s.dec with tmem := t.dec.tmem }) ∧
      (isStart .dec ev → t.dec.dstate = .run ∧ t.dec.derr = .none) ∧
      (ev = .reset → t.dec.dstate = .idle ∧ t.dec.derr = .none)) ∧
    (s.enc.estate = .error →
      (¬ isStart .enc ev → ev ≠ .reset → t.enc = { s.enc with ctab := t.enc.ctab }) ∧
      (isStart .enc ev → t.enc.estate = .run ∧ t.enc.eerr = .none) ∧
      (ev = .reset → t.enc.estate = .idle ∧ t.enc.eerr = .none))

/-- R21, R35: the codes and the transitions of `DSTATE` and `ESTATE`: reset to IDLE, START to RUN from any state, END
from RUN to DONE (`D_END` also to ERROR), a data token from RUN to ERROR; no other event changes them. -/
def Obligations.RunStateTransitions : Prop :=
  (runStateCode .idle = 0#2 ∧ runStateCode .run = 1#2 ∧ runStateCode .done = 2#2 ∧ runStateCode .error = 3#2) ∧
  ∀ (s t : State) (ev : HostEvent) (rest : List HostEvent), s.inbox = ev :: rest → step s = .next t →
    (ev = .reset → t.dec.dstate = .idle ∧ t.enc.estate = .idle) ∧
    (ev = .command .dec 0x200#10 → t.dec.dstate = .run) ∧
    (ev = .command .dec 0x100#10 → s.dec.dstate = .run → t.dec.dstate = .done ∨ t.dec.dstate = .error) ∧
    (t.dec.dstate ≠ s.dec.dstate → ev = .reset ∨ ev = .command .dec 0x200#10 ∨
      (s.dec.dstate = .run ∧ (ev = .command .dec 0x100#10 ∨
        ∃ v, ev = .command .dec (encode (.dBit v)) ∧ t.dec.dstate = .error))) ∧
    (ev = .command .enc 0x200#10 → t.enc.estate = .run) ∧
    (ev = .command .enc 0x100#10 → s.enc.estate = .run → t.enc.estate = .done) ∧
    (t.enc.estate ≠ s.enc.estate → ev = .reset ∨ ev = .command .enc 0x200#10 ∨
      (s.enc.estate = .run ∧ (ev = .command .enc 0x100#10 ∨
        ∃ b, ev = .command .enc (encode (.eSym b)) ∧ t.enc.estate = .error)))

/-! ### Invariants -/

/-- The invariant holds at reset. -/
def Obligations.InvAtReset : Prop := Inv State.reset

/-- Every step keeps the invariant: R22, R23, R25, R28, R36, R37, R38, R39, R42, R207 and the canonical form of the
two memories. -/
def Obligations.StepKeepsInv : Prop :=
  ∀ s t : State, Inv s → step s = .next t → Inv t

/-- R24, R38, R70: a consumer never sees a byte withdrawn or changed: a step extends each stream, unless START or
reset empties it. -/
def Obligations.StreamsOnlyGrow : Prop :=
  ∀ (s t : State) (ev : HostEvent) (rest : List HostEvent), s.inbox = ev :: rest → step s = .next t →
    (s.dec.dout <+: t.dec.dout ∨ ((isStart .dec ev ∨ ev = .reset) ∧ t.dec.dout = [])) ∧
    (s.enc.eout <+: t.enc.eout ∨ ((isStart .enc ev ∨ ev = .reset) ∧ t.enc.eout = []))

/-! ### Memories and the host -/

/-- R61, R66, R79, R81: a host write made while the owning engine is not in RUN is what a later read of that address
returns; every other word, every register and the other engine stay; the memory keeps its canonical form. -/
def Obligations.HostWritesTakeEffect : Prop :=
  (∀ (s : State) (i : NodeIdx) (w : TreeWord) (rest : List HostEvent),
    s.inbox = .tWrite i w :: rest → s.dec.dstate ≠ .run →
    ∃ t, step s = .next t ∧ readTmem i t = some w ∧ (∀ j, j ≠ i → readTmem j t = readTmem j s) ∧
      t = { s with dec := { s.dec with tmem := t.dec.tmem }, inbox := rest } ∧
      (Memory.wf Config.tmemDepth s.dec.tmem → Memory.wf Config.tmemDepth t.dec.tmem)) ∧
  (∀ (s : State) (b : Byte) (e : CodeEntry) (rest : List HostEvent),
    s.inbox = .cWrite b e :: rest → s.enc.estate ≠ .run →
    ∃ t, step s = .next t ∧ readCtab b t = some e ∧ (∀ a, a ≠ b → readCtab a t = readCtab a s) ∧
      t = { s with enc := { s.enc with ctab := t.enc.ctab }, inbox := rest } ∧
      (Memory.wf Config.alphabet s.enc.ctab → Memory.wf Config.alphabet t.enc.ctab))

/-- R285: a host write to the table an engine in RUN reads is refused: neither the old nor the new word is picked. -/
def Obligations.HostWriteDuringRunRefused : Prop :=
  (∀ (s : State) (i : NodeIdx) (w : TreeWord) (rest : List HostEvent),
    s.inbox = .tWrite i w :: rest → s.dec.dstate = .run → step s = .refused .tmemWriteDuringRun) ∧
  (∀ (s : State) (b : Byte) (e : CodeEntry) (rest : List HostEvent),
    s.inbox = .cWrite b e :: rest → s.enc.estate = .run → step s = .refused .ctabWriteDuringRun)

/-- R45: what a host read of each status register returns, with the codes of R21, R22, R35 and R36. -/
def Obligations.StatusReadsReturnRegisters : Prop :=
  ∀ (s : State) (k : Nat),
    statusRead .dec 0 k s = (match s.dec.dstate with | .idle => 0#64 | .run => 1#64 | .done => 2#64 | .error => 3#64) ∧
    statusRead .dec 1 k s = (match s.dec.derr with
      | .none => 0#64 | .malformedBit => 1#64 | .truncatedStream => 2#64 | .internalEncoding => 3#64
      | .treeFault => 4#64) ∧
    (statusRead .dec 2 k s).toNat = s.dec.dcur.toNat ∧ statusRead .dec 3 k s = s.dec.dpos ∧
    statusRead .dec 4 k s = s.dec.dsyms ∧ (statusRead .dec 5 k s).toNat = s.dec.dbad.toNat ∧
    statusRead .enc 0 k s = (match s.enc.estate with | .idle => 0#64 | .run => 1#64 | .done => 2#64 | .error => 3#64) ∧
    statusRead .enc 1 k s = (match s.enc.eerr with
      | .none => 0#64 | .malformedBit => 1#64 | .truncatedStream => 2#64 | .internalEncoding => 3#64
      | .treeFault => 4#64) ∧
    (statusRead .enc 2 k s).toNat = s.enc.eacc.toNat ∧ statusRead .enc 3 k s = s.enc.epos ∧
    statusRead .enc 4 k s = s.enc.ebits ∧ (statusRead .enc 5 k s).toNat = s.enc.ebad.toNat

/-- R96, R97: the fields of a tree word, on every word the host composes and on the spec's worked encodings. -/
def Obligations.TreeWordFields : Prop :=
  (∀ l r : NodeIdx, kindOf (internalWord l r) = .internal ∧ leftOf (internalWord l r) = l ∧
    rightOf (internalWord l r) = r ∧ treeWordWellFormed (internalWord l r) = true) ∧
  (∀ s : Byte, kindOf (leafWord s) = .leaf ∧ symOf (leafWord s) = s ∧ treeWordWellFormed (leafWord s) = true) ∧
  internalWord 1#9 2#9 = 0x00202#19 ∧ internalWord 1#9 8#9 = 0x00208#19 ∧ leafWord 0x61#8 = 0x40061#19 ∧
  leafWord 0x00#8 = 0x40000#19

/-- R100, R139: a table entry composed from a code of at most 255 bits gives back the code and its length, and its
ignored bits are 0. -/
def Obligations.CodeEntryFields : Prop :=
  ∀ p : List Bool, p.length ≤ 255 →
    clenOf (codeEntry p) = p.length ∧ codeOf (codeEntry p) = p ∧ codeEntryWellFormed (codeEntry p) = true

/-- R96, R100, D37: the engines ignore the bits the formats leave unused: on two contents of a memory that differ
only there, every command gives the same answer. -/
def Obligations.IgnoredBitsHaveNoEffect : Prop :=
  ∀ (i : Instr) (s : State),
    (∀ M, SameTreeWords s.dec.tmem M →
      exec i { s with dec := { s.dec with tmem := M } } = withTmem M (exec i s)) ∧
    (∀ C, SameCodes s.enc.ctab C →
      exec i { s with enc := { s.enc with ctab := C } } = withCtab C (exec i s))

/-! ### Independence and runs -/

/-- R252: DEC and ENC share no state. Any interleaving of commands for both engines gives each engine what its own
commands give it alone, and completes exactly when both do alone (that a stop of either engine stops the stream is log
15). -/
def Obligations.InterleavingsAgreeWithEachEngineAlone : Prop :=
  ∀ (is : List Instr) (s : State),
    (∀ t, execAll is s = .next t →
      execAll (is.filter (fun i => decide (i.port = .dec))) s = .next { s with dec := t.dec } ∧
      execAll (is.filter (fun i => decide (i.port = .enc))) s = .next { s with enc := t.enc }) ∧
    (∀ d e, execAll (is.filter (fun i => decide (i.port = .dec))) s = .next d →
      execAll (is.filter (fun i => decide (i.port = .enc))) s = .next e →
      execAll is s = .next { s with dec := d.dec, enc := e.enc })

/-- R172, R202: the empty runs end well in any state, whatever the memories hold. -/
def Obligations.EmptyRunsEndWell : Prop :=
  (∀ (s : State) (rest : List HostEvent), s.inbox = present [.dStart, .dEnd] ++ rest →
    ∃ t, runSteps 2 s = .next t ∧ t.dec.dstate = .done ∧ t.dec.derr = .none ∧ t.dec.dout = [] ∧
      t.dec.dpos = 0#64 ∧ t.dec.dsyms = 0#64 ∧ t.dec.tmem = s.dec.tmem ∧ t.enc = s.enc ∧ t.inbox = rest) ∧
  (∀ (s : State) (rest : List HostEvent), s.inbox = present [.eStart, .eEnd] ++ rest →
    ∃ t, runSteps 2 s = .next t ∧ t.enc.estate = .done ∧ t.enc.eerr = .none ∧ t.enc.eout = [] ∧
      t.enc.ebits = 0#64 ∧ t.enc.eacc = 0x00#8 ∧ t.enc.epos = 0#64 ∧ t.enc.ctab = s.enc.ctab ∧ t.dec = s.dec ∧
      t.inbox = rest)

/-- R143, R144 (b): from any state, a decoder run on the bit symbols `S`, with TMEM an image of the tree `T`, ends as
`dec(T, S)` says: well with its bytes, or in its error kind. -/
def Obligations.DecRunComputesDec : Prop :=
  ∀ (s : State) (T : Shape) (S : List Byte) (rest : List HostEvent),
    TreeOf s.dec.tmem 0#9 T → S.length < 2 ^ 64 → s.inbox = present (dRun S) ++ rest →
    ∃ t, runSteps (S.length + 2) s = .next t ∧ t.inbox = rest ∧ t.enc = s.enc ∧ t.dec.tmem = s.dec.tmem ∧
      (∀ out, dec T S = .ok out → DecEndsWell t ∧ t.dec.dout = out ∧ t.dec.dpos.toNat = S.length) ∧
      (∀ k, dec T S = .error k → DecEndsInError t k)

/-- R142, R144 (a), R173: from any state, an encoder run on the bytes `X` that the counters can count (R48), with all
entries of CTAB written, ends as `enc(CT, X)` says: well with its bit sequence and exact count, or in `INTERNAL_ENCODING` at the first byte with no
entry. -/
def Obligations.EncRunComputesEnc : Prop :=
  ∀ (s : State) (X : List Byte) (rest : List HostEvent),
    AllWritten s.enc.ctab → X.length < 2 ^ 64 →
    (X.map (fun b => match Memory.read s.enc.ctab b.toNat with | some e => clenOf e | none => 0)).sum < 2 ^ 64 →
    s.inbox = present (eEncode X) ++ rest →
    ∃ t, runSteps (X.length + 2) s = .next t ∧ t.inbox = rest ∧ t.dec = s.dec ∧ t.enc.ctab = s.enc.ctab ∧
      (∀ B, enc (tableOf s.enc.ctab) X = .ok B →
        EncEndsWell t ∧ unpack t.enc.eout t.enc.ebits.toNat = some B ∧ t.enc.ebits.toNat = B.length ∧
        t.enc.epos.toNat = X.length) ∧
      (∀ k, enc (tableOf s.enc.ctab) X = .error k →
        k = .internalEncoding ∧ EncEndsInError t k ∧
        t.enc.epos.toNat = X.findIdx (fun b => (tableOf s.enc.ctab b).isNone))

/-- R151: round trip in the general form. For images with `MATCH(M, C)` and bytes that are all symbols of leaves of
`M`, no more bits than `EBITS` can count (R15, R48), the encoder run ends well with a bit sequence `B` of the summed code lengths, and the decoder run on `B` ends well
with the same bytes. -/
def Obligations.RoundTripUnderMatch : Prop :=
  ∀ (M : Cells 19) (C : Cells 263) (X : List Byte), Matches M C → (∀ b ∈ X, ∃ p, LeafAt M p b) →
    (X.map (fun b => match Memory.read C b.toNat with | some e => clenOf e | none => 0)).sum < 2 ^ 64 →
    ∃ B : List Bool,
      B.length = (X.map (fun b => match Memory.read C b.toNat with | some e => clenOf e | none => 0)).sum ∧
      (∀ (s : State) (rest : List HostEvent), s.enc.ctab = C → s.inbox = present (eEncode X) ++ rest →
        ∃ t, runSteps (X.length + 2) s = .next t ∧ EncEndsWell t ∧
          unpack t.enc.eout t.enc.ebits.toNat = some B ∧ t.enc.ebits.toNat = B.length ∧ t.inbox = rest) ∧
      (∀ (s : State) (rest : List HostEvent), s.dec.tmem = M → s.inbox = present (dDecode B) ++ rest →
        ∃ t, runSteps (B.length + 2) s = .next t ∧ DecEndsWell t ∧ t.dec.dout = X ∧ t.dec.dpos.toNat = B.length ∧
          t.dec.dsyms.toNat = X.length ∧ t.inbox = rest)

/-! ### The host's reference functions -/

/-- R122: "sum of entries = input length". -/
def Obligations.FrequencySumIsLength : Prop :=
  ∀ X : List Byte, (freq X).length = 256 ∧ (freq X).sum = X.length ∧
    ∀ b : Byte, (freq X).getD b.toNat 0 = X.count b

/-- R128, R130, R131: `build` gives no tree exactly when all frequencies are 0; a tree it gives for an input has 2 to
256 leaves, one node less than twice as many nodes, a depth below the leaf count, and at its root the input length,
one more in the single-symbol case. -/
def Obligations.BuilderBounds : Prop :=
  ∀ X : List Byte,
    (build (freq X) = none ↔ X = []) ∧
    ∀ T, build (freq X) = some T →
      2 ≤ (leafSyms T).length ∧ (leafSyms T).length ≤ 256 ∧ nodeCount T + 1 = 2 * (leafSyms T).length ∧
      depthOf T + 1 ≤ (leafSyms T).length ∧ freqOf T = leafFreqSum T ∧
      ((∃ b, ∀ x ∈ X, x = b) → freqOf T = X.length + 1) ∧
      ((¬ ∃ b, ∀ x ∈ X, x = b) → freqOf T = X.length)

/-- R129: the tree the builder makes has the least weighted external path length among all trees with its leaves and
frequencies, the synthetic leaf included. The spec quotes this and does not prove it. -/
def Obligations.BuiltTreeIsOptimal : Prop :=
  ∀ (X : List Byte) (T T' : Tree), build (freq X) = some T → (leavesOf T').Perm (leavesOf T) →
    weightedPathLength T 0 ≤ weightedPathLength T' 0

/-- R136, R153: the code table of a tree the builder made: its leaves' symbols and no others have an entry, every byte
of the input among them; codes have 1 to 255 bits; no symbol's code is a prefix of another's. -/
def Obligations.CodesOfBuiltTree : Prop :=
  ∀ (X : List Byte) (T : Tree), build (freq X) = some T →
    (∀ b, (codes T b).isSome = true ↔ b ∈ leafSyms T) ∧ (∀ b ∈ X, b ∈ leafSyms T) ∧
    (∀ b p, codes T b = some p → 1 ≤ p.length ∧ p.length ≤ 255) ∧
    (∀ b b' p p', b ≠ b' → codes T b = some p → codes T b' = some p' → ¬ p <+: p')

/-- R138: the pre-order image of a tree the builder made is a well-formed image of that tree, with the root at 0, in
the memory's canonical form. -/
def Obligations.LayoutIsWellFormedImage : Prop :=
  ∀ (X : List Byte) (T : Tree), build (freq X) = some T →
    WfTree (layout T) ∧ TreeOf (layout T) 0#9 (shapeOf T) ∧ Memory.wf Config.tmemDepth (layout T)

/-- R139: the two images of a tree the builder made match. -/
def Obligations.ImagesOfBuiltTreeMatch : Prop :=
  ∀ (X : List Byte) (T : Tree), build (freq X) = some T → Matches (layout T) (ctabImage (codes T))

/-- R64: a well-formed image denotes a tree, of 2 to 256 leaves and at most 511 nodes. -/
def Obligations.WellFormedImageDenotesTree : Prop :=
  ∀ M : Cells 19, WfTree M →
    ∃ T, TreeOf M 0#9 T ∧ (∀ T', TreeOf M 0#9 T' → T' = T) ∧
      2 ≤ leafCount T ∧ leafCount T ≤ 256 ∧ shapeNodes T ≤ 511

/-- R68: `MATCH(M, C)` implies `WF_CTAB(C)`; beyond that, no two symbols have the same code. -/
def Obligations.MatchImpliesWfCtab : Prop :=
  ∀ (M : Cells 19) (C : Cells 263), Matches M C →
    WfCtab C ∧ ∀ b b' p, tableOf C b = some p → tableOf C b' = some p → b = b'

/-- R146, R147, R150: `decompress(compress(X)) == X`, for every input whose run the counters can count (R15, R48), the
empty one included; `compress` never reports an error, and it completes on every input of fewer than `2^56` bytes. -/
def Obligations.DecompressInvertsCompress : Prop :=
  ∀ X : List Byte,
    (compress X ≠ .refused → ∃ B T, compress X = .ok (B, T) ∧ decompress B T = .ok X) ∧
    (X.length < 2 ^ 56 → compress X ≠ .refused)

/-- R105: the commands read from the lines of a stream for a port are that port's commands, and a line of the other
prefix is refused whatever it expands to, an empty pseudo-command too (the model's choice, log 20). -/
def Obligations.StreamHoldsOnePrefix : Prop :=
  (∀ (p : Port) (lines : List (List Char)) (is : List Instr), parseStream p lines = some is →
    streamWellFormed p is = true) ∧
  ∀ (p q : Port) (line : List Char) (before after : List (List Char)), linePort line = some q → q ≠ p →
    parseStream p (before ++ line :: after) = none
end

