-- ==== Sys2Proof/Laws/Memory.lean ====
section
/-! SUPPORT. The laws of the table memories: a read after a write, and the canonical form. -/

namespace Sys2Proof.Machine

theorem Memory.read_write_same {w : Nat} (m : Cells w) (a : Nat) (v : BitVec w) :
    Memory.read (Memory.write m a v) a = some v := by
  induction m with
  | nil => simp [Memory.write, Memory.read]
  | cons c m ih =>
    obtain ⟨k, u⟩ := c
    simp only [Memory.write]
    split
    · simp [Memory.read]
    · split
      · simp [Memory.read]
      · rename_i h
        simp [Memory.read, Ne.symm h, ih]

theorem Memory.read_write_ne {w : Nat} (m : Cells w) (a b : Nat) (v : BitVec w) (h : b ≠ a) :
    Memory.read (Memory.write m a v) b = Memory.read m b := by
  induction m with
  | nil => simp [Memory.write, Memory.read, h.symm]
  | cons c m ih =>
    obtain ⟨k, u⟩ := c
    simp only [Memory.write]
    split
    · simp [Memory.read, h.symm]
    · split
      · rename_i hk
        subst hk
        simp [Memory.read, h.symm]
      · simp [Memory.read, ih]

/-- An address listed after a write was listed before or is the one written. -/
theorem Memory.mem_write {w : Nat} {m : Cells w} {a : Nat} {v : BitVec w} {c : Nat × BitVec w}
    (h : c ∈ Memory.write m a v) : c = (a, v) ∨ c ∈ m := by
  induction m with
  | nil => simpa [Memory.write] using h
  | cons d m ih =>
    obtain ⟨k, u⟩ := d
    simp only [Memory.write] at h
    split at h
    · simpa using h
    · split at h
      · rcases List.mem_cons.1 h with h | h
        · exact .inl h
        · exact .inr (List.mem_cons_of_mem _ h)
      · rcases List.mem_cons.1 h with h | h
        · exact .inr (by simp [h])
        · exact (ih h).imp id (List.mem_cons_of_mem _)

/-- A write inside the space keeps the canonical form. -/
theorem Memory.write_wf {w depth : Nat} {m : Cells w} {a : Nat} {v : BitVec w}
    (hm : Memory.wf depth m) (ha : a < depth) : Memory.wf depth (Memory.write m a v) := by
  refine ⟨?_, fun c hc => ?_⟩
  · obtain ⟨hs, -⟩ := hm
    induction m with
    | nil => simp [Memory.write]
    | cons d m ih =>
      obtain ⟨k, u⟩ := d
      obtain ⟨hd, ht⟩ := List.pairwise_cons.1 hs
      simp only [Memory.write]
      split
      · rename_i hlt
        refine List.pairwise_cons.2 ⟨fun c hc => ?_, hs⟩
        rcases List.mem_cons.1 hc with h | h
        · subst h; exact hlt
        · exact lt_trans hlt (hd c h)
      · split
        · rename_i heq
          subst heq
          exact List.pairwise_cons.2 ⟨hd, ht⟩
        · refine List.pairwise_cons.2 ⟨fun c hc => ?_, ih ht⟩
          rcases Memory.mem_write hc with h | h
          · subst h; dsimp only; omega
          · exact hd c h
  · rcases Memory.mem_write hc with h | h
    · subst h; exact ha
    · exact hm.2 c h

theorem Memory.wf_nil {w : Nat} (depth : Nat) : Memory.wf depth ([] : Cells w) := ⟨.nil, by simp⟩

/-- In a canonical memory a listed word is what its address reads as. -/
theorem Memory.read_of_mem {w depth : Nat} {m : Cells w} {a : Nat} {v : BitVec w}
    (hm : Memory.wf depth m) (h : (a, v) ∈ m) : Memory.read m a = some v := by
  obtain ⟨hs, -⟩ := hm
  induction m with
  | nil => simp at h
  | cons d m ih =>
    obtain ⟨k, u⟩ := d
    obtain ⟨hd, ht⟩ := List.pairwise_cons.1 hs
    rcases List.mem_cons.1 h with h | h
    · obtain ⟨rfl, rfl⟩ := Prod.mk.inj h
      simp [Memory.read]
    · have := hd _ h
      have hne : k ≠ a := Nat.ne_of_lt this
      simp [Memory.read, hne, ih h ht]

/-- A read that answers a word answers a listed one. -/
theorem Memory.mem_of_read {w : Nat} {m : Cells w} {a : Nat} {v : BitVec w}
    (h : Memory.read m a = some v) : (a, v) ∈ m := by
  induction m with
  | nil => simp [Memory.read] at h
  | cons d m ih =>
    obtain ⟨k, u⟩ := d
    simp only [Memory.read] at h
    split at h
    · rename_i hk
      subst hk
      simp_all
    · exact List.mem_cons_of_mem _ (ih h)

/-- A memory that lists a word for every address below `n` is in canonical form. -/
theorem Memory.wf_table {w : Nat} (n : Nat) (f : Nat → BitVec w) :
    Memory.wf n ((List.range n).map (fun a => (a, f a))) :=
  ⟨List.pairwise_map.2 List.pairwise_lt_range, by simp⟩

/-- What such a memory holds at an address below `n`. -/
theorem Memory.read_table {w n a : Nat} (f : Nat → BitVec w) (h : a < n) :
    Memory.read ((List.range n).map (fun a => (a, f a))) a = some (f a) :=
  Memory.read_of_mem (Memory.wf_table n f) (List.mem_map.2 ⟨a, List.mem_range.2 h, rfl⟩)

end Sys2Proof.Machine
end

