-- ==== Sys2Proof/Laws/State.lean ====
section
/-! SUPPORT. One lemma per field per update of State. -/

namespace Sys2Proof.Machine

@[simp] theorem State.setDec_dec (s : State) (d : Dec) : (s.setDec d).dec = d := rfl
@[simp] theorem State.setDec_enc (s : State) (d : Dec) : (s.setDec d).enc = s.enc := rfl
@[simp] theorem State.setDec_inbox (s : State) (d : Dec) : (s.setDec d).inbox = s.inbox := rfl
@[simp] theorem State.setEnc_dec (s : State) (e : Enc) : (s.setEnc e).dec = s.dec := rfl
@[simp] theorem State.setEnc_enc (s : State) (e : Enc) : (s.setEnc e).enc = e := rfl
@[simp] theorem State.setEnc_inbox (s : State) (e : Enc) : (s.setEnc e).inbox = s.inbox := rfl
@[simp] theorem State.setInbox_dec (s : State) (l : List HostEvent) : (s.setInbox l).dec = s.dec := rfl
@[simp] theorem State.setInbox_enc (s : State) (l : List HostEvent) : (s.setInbox l).enc = s.enc := rfl
@[simp] theorem State.setInbox_inbox (s : State) (l : List HostEvent) : (s.setInbox l).inbox = l := rfl
@[simp] theorem State.setDec_self (s : State) : s.setDec s.dec = s := rfl
@[simp] theorem State.setEnc_self (s : State) : s.setEnc s.enc = s := rfl
@[simp] theorem State.setDec_setDec (s : State) (d d' : Dec) : (s.setDec d).setDec d' = s.setDec d' := rfl
@[simp] theorem State.setEnc_setEnc (s : State) (e e' : Enc) : (s.setEnc e).setEnc e' = s.setEnc e' := rfl

/-- Updates of the two engines commute: they share no state. -/
theorem State.setDec_setEnc (s : State) (d : Dec) (e : Enc) : (s.setDec d).setEnc e = (s.setEnc e).setDec d := rfl

@[simp] theorem State.reset_dec : State.reset.dec = Dec.reset := rfl
@[simp] theorem State.reset_enc : State.reset.enc = Enc.reset := rfl
@[simp] theorem State.reset_inbox : State.reset.inbox = [] := rfl

end Sys2Proof.Machine
end

