-- ==== Sys2Proof/Laws/Ops.lean ====
section
/-! SUPPORT. One lemma per shared operation: everything it can do. -/

namespace Sys2Proof.Machine

/-! ### Operands -/

theorem bitOfSymbol_eq_none {v : Byte} : bitOfSymbol v = none ↔ v ≠ 0x00#8 ∧ v ≠ 0x01#8 := by
  unfold bitOfSymbol; split
  · simp_all
  · split <;> simp_all

theorem bitOfSymbol_eq_some {v : Byte} {b : Bool} : bitOfSymbol v = some b ↔ v = symbolOfBit b := by
  unfold bitOfSymbol symbolOfBit
  by_cases h0 : v = 0x00#8
  · subst h0; cases b <;> decide
  · by_cases h1 : v = 0x01#8
    · subst h1; cases b <;> decide
    · cases b <;> simp [h0, h1]

@[simp] theorem bitOfSymbol_symbolOfBit (b : Bool) : bitOfSymbol (symbolOfBit b) = some b :=
  bitOfSymbol_eq_some.2 rfl

@[simp] theorem childOf_false (w : TreeWord) : childOf w false = leftOf w := rfl
@[simp] theorem childOf_true (w : TreeWord) : childOf w true = rightOf w := rfl

@[simp] theorem codeOf_length (e : CodeEntry) : (codeOf e).length = clenOf e := by simp [codeOf]

theorem clenOf_le (e : CodeEntry) : clenOf e ≤ 255 := by
  have h := (e.extractLsb' 255 8).isLt
  unfold clenOf; omega

/-! ### The state test -/

@[simp] theorem decRunning_iff {s : State} : decRunning s = true ↔ s.dec.dstate = .run := by simp [decRunning]
@[simp] theorem encRunning_iff {s : State} : encRunning s = true ↔ s.enc.estate = .run := by simp [encRunning]

/-! ### Counters -/

/-- `countUp` answers the exact sum or nothing. -/
theorem countUp_eq_some {c d : Count} {k : Nat} :
    countUp c k = some d ↔ c.toNat + k < 2 ^ 64 ∧ d = c + BitVec.ofNat 64 k := by
  unfold countUp Config.cntW; split <;> simp_all [eq_comm]

theorem countUp_eq_none {c : Count} {k : Nat} : countUp c k = none ↔ 2 ^ 64 ≤ c.toNat + k := by
  unfold countUp Config.cntW; split <;> simp_all

/-- A count that fits does not wrap. -/
theorem toNat_add_of_lt {c : Count} {k : Nat} (h : c.toNat + k < 2 ^ 64) :
    (c + BitVec.ofNat 64 k).toNat = c.toNat + k := by
  simp only [BitVec.toNat_add, BitVec.toNat_ofNat]
  omega

/-! ### The error entry and START -/

/-- The error entry leaves what the host has yet to do, both memories, the counters and the streams. -/
theorem raise_frame (k : ErrorEvent) (s : State) :
    (raise k s).inbox = s.inbox ∧
    raise k s = { s with
      dec := { s.dec with dstate := (raise k s).dec.dstate, derr := (raise k s).dec.derr, dbad := (raise k s).dec.dbad }
      enc := { s.enc with estate := (raise k s).enc.estate, eerr := (raise k s).enc.eerr, ebad := (raise k s).enc.ebad } } := by
  cases k <;> exact ⟨rfl, rfl⟩

@[simp] theorem raise_malformedBit (v : Byte) (s : State) :
    raise (.malformedBit v) s = s.setDec { s.dec with dstate := .error, derr := .malformedBit, dbad := v } := rfl
@[simp] theorem raise_truncatedStream (s : State) :
    raise .truncatedStream s = s.setDec { s.dec with dstate := .error, derr := .truncatedStream } := rfl
@[simp] theorem raise_treeFault (s : State) :
    raise .treeFault s = s.setDec { s.dec with dstate := .error, derr := .treeFault } := rfl
@[simp] theorem raise_internalEncoding (b : Byte) (s : State) :
    raise (.internalEncoding b) s = s.setEnc { s.enc with estate := .error, eerr := .internalEncoding, ebad := b } := rfl

/-! ### The walk -/

/-- Everything `walkTo` can do. -/
theorem walkTo_cases (c : NodeIdx) (m : TreeWord) (s : State) :
    (walkTo c m s = .refused .counterOverflow ∧
      (2 ^ 64 ≤ s.dec.dpos.toNat + 1 ∨ kindOf m = .leaf ∧ 2 ^ 64 ≤ s.dec.dsyms.toNat + 1)) ∨
    (s.dec.dpos.toNat + 1 < 2 ^ 64 ∧ kindOf m = .internal ∧
      walkTo c m s = .next (s.setDec { s.dec with dpos := s.dec.dpos + 1#64, dcur := c })) ∨
    (s.dec.dpos.toNat + 1 < 2 ^ 64 ∧ s.dec.dsyms.toNat + 1 < 2 ^ 64 ∧ kindOf m = .leaf ∧
      walkTo c m s = .next (s.setDec { s.dec with
        dpos := s.dec.dpos + 1#64, dsyms := s.dec.dsyms + 1#64, dcur := 0#9, dout := s.dec.dout ++ [symOf m] })) := by
  unfold walkTo
  by_cases hp : s.dec.dpos.toNat + 1 < 2 ^ 64
  · rw [countUp_eq_some.2 ⟨hp, rfl⟩]
    cases hk : kindOf m
    · exact .inr (.inl ⟨hp, by simp⟩)
    · by_cases hs : s.dec.dsyms.toNat + 1 < 2 ^ 64
      · simp only [countUp_eq_some.2 ⟨hs, rfl⟩]
        exact .inr (.inr ⟨hp, hs, by simp⟩)
      · simp only [countUp_eq_none.2 (Nat.le_of_not_lt hs)]
        exact .inl ⟨by simp, .inr ⟨by simp, Nat.le_of_not_lt hs⟩⟩
  · rw [countUp_eq_none.2 (Nat.le_of_not_lt hp)]
    exact .inl ⟨rfl, .inl (Nat.le_of_not_lt hp)⟩

/-! ### Packing -/

/-- The two cases of `append_bit`. -/
theorem appendBit_eq (e : Enc) (v : Bool) :
    appendBit e v =
      if e.ebits.toNat % 8 = 7 then
        { e with ebits := e.ebits + 1#64, eacc := 0x00#8,
                 eout := e.eout ++ [e.eacc ||| ((BitVec.ofBool v).setWidth 8 <<< (7 - e.ebits.toNat % 8))] }
      else
        { e with ebits := e.ebits + 1#64,
                 eacc := e.eacc ||| ((BitVec.ofBool v).setWidth 8 <<< (7 - e.ebits.toNat % 8)) } := rfl

@[simp] theorem appendBits_nil (e : Enc) : appendBits e [] = e := rfl
@[simp] theorem appendBits_cons (e : Enc) (b : Bool) (bs : List Bool) :
    appendBits e (b :: bs) = appendBits (appendBit e b) bs := rfl

/-- `append_bit` writes `EACC`, `EBITS` and `EOUT` only, and only at the end of `EOUT`. -/
theorem appendBit_frame (e : Enc) (v : Bool) :
    ∃ ys, appendBit e v =
      { e with eacc := (appendBit e v).eacc, ebits := e.ebits + 1#64, eout := e.eout ++ ys } := by
  rw [appendBit_eq]
  split
  · exact ⟨_, rfl⟩
  · exact ⟨[], by simp⟩

theorem appendBits_frame (e : Enc) (bs : List Bool) :
    ∃ ys, appendBits e bs =
      { e with eacc := (appendBits e bs).eacc, ebits := e.ebits + BitVec.ofNat 64 bs.length, eout := e.eout ++ ys } := by
  induction bs generalizing e with
  | nil => exact ⟨[], by simp⟩
  | cons b bs ih =>
    obtain ⟨ys, h⟩ := appendBit_frame e b
    obtain ⟨zs, h'⟩ := ih (appendBit e b)
    refine ⟨ys ++ zs, ?_⟩
    rw [appendBits_cons, h']
    rw [h]
    simp only [List.length_cons, List.append_assoc, Enc.mk.injEq, true_and, and_true]
    rw [BitVec.add_assoc, Nat.add_comm bs.length 1, BitVec.ofNat_add]

/-- The flush writes `EOUT` and `EACC` only. -/
theorem flushBits_eq (e : Enc) :
    flushBits e = { e with
      eout := if e.ebits.toNat % 8 = 0 then e.eout else e.eout ++ [e.eacc]
      eacc := if e.ebits.toNat % 8 = 0 then e.eacc else 0x00#8 } := by
  unfold flushBits pendingBits
  split <;> simp_all

/-! ### The host -/

theorem fetch_eq (s : State) :
    fetch s = match s.inbox with
      | [] => none
      | ev :: rest => some (ev, { s with inbox := rest }) := rfl

end Sys2Proof.Machine
end

