-- ==== Sys2Proof/Laws/Meanings.lean ====
section
/-! SUPPORT. What each meaning can do, said once: proofs cite these and do not unfold the meanings. -/

namespace Sys2Proof.Machine

@[simp] theorem exec_dStart (s : State) : exec .dStart s = .next (startDec s) := rfl
@[simp] theorem exec_eStart (s : State) : exec .eStart s = .next (startEnc s) := rfl
theorem exec_dBit (v : Byte) (s : State) : exec (.dBit v) s = execDBit v s := rfl
theorem exec_dEnd (s : State) : exec .dEnd s = execDEnd s := rfl
theorem exec_eSym (b : Byte) (s : State) : exec (.eSym b) s = execESym b s := rfl
theorem exec_eEnd (s : State) : exec .eEnd s = execEEnd s := rfl

/-- `D_BIT` in a run, on a bit, with an internal word at the pointer and a written child: it is the walk. -/
theorem execDBit_walk {s : State} {v : Byte} {b : Bool} {n m : TreeWord} (hr : s.dec.dstate = .run)
    (hv : bitOfSymbol v = some b) (hn : readTmem s.dec.dcur s = some n) (hk : kindOf n = .internal)
    (hm : readTmem (childOf n b) s = some m) : execDBit v s = walkTo (childOf n b) m s := by
  simp [execDBit, hr, hv, hn, hk, hm]

/-- Everything `D_BIT` can do. -/
theorem execDBit_cases (v : Byte) (s : State) :
    (s.dec.dstate ≠ .run ∧ execDBit v s = .next s) ∨
    (s.dec.dstate = .run ∧ bitOfSymbol v = none ∧ execDBit v s = .next (raise (.malformedBit v) s)) ∨
    (s.dec.dstate = .run ∧ ∃ b, bitOfSymbol v = some b ∧
      ((readTmem s.dec.dcur s = none ∧ execDBit v s = .fault (.unwrittenTmem s.dec.dcur)) ∨
       ∃ n, readTmem s.dec.dcur s = some n ∧
        ((kindOf n = .leaf ∧ execDBit v s = .next (raise .treeFault s)) ∨
         (kindOf n = .internal ∧
          ((readTmem (childOf n b) s = none ∧ execDBit v s = .fault (.unwrittenTmem (childOf n b))) ∨
           ∃ m, readTmem (childOf n b) s = some m ∧ execDBit v s = walkTo (childOf n b) m s))))) := by
  by_cases hr : s.dec.dstate = .run
  · refine .inr ?_
    cases hv : bitOfSymbol v with
    | none => exact .inl ⟨hr, rfl, by simp [execDBit, hr, hv]⟩
    | some b =>
      refine .inr ⟨hr, b, rfl, ?_⟩
      cases hn : readTmem s.dec.dcur s with
      | none => exact .inl ⟨rfl, by simp [execDBit, hr, hv, hn]⟩
      | some n =>
        refine .inr ⟨n, rfl, ?_⟩
        cases hk : kindOf n with
        | leaf => exact .inl ⟨rfl, by simp [execDBit, hr, hv, hn, hk]⟩
        | internal =>
          refine .inr ⟨rfl, ?_⟩
          cases hm : readTmem (childOf n b) s with
          | none => exact .inl ⟨rfl, by simp [execDBit, hr, hv, hn, hk, hm]⟩
          | some m => exact .inr ⟨m, rfl, execDBit_walk hr hv hn hk hm⟩
  · exact .inl ⟨hr, by simp [execDBit, hr]⟩

/-- Everything `D_END` can do. -/
theorem execDEnd_cases (s : State) :
    (s.dec.dstate ≠ .run ∧ execDEnd s = .next s) ∨
    (s.dec.dstate = .run ∧ s.dec.dcur = 0#9 ∧ execDEnd s = .next (s.setDec { s.dec with dstate := .done })) ∨
    (s.dec.dstate = .run ∧ s.dec.dcur ≠ 0#9 ∧ execDEnd s = .next (raise .truncatedStream s)) := by
  by_cases hr : s.dec.dstate = .run
  · by_cases hc : s.dec.dcur = 0#9
    · exact .inr (.inl ⟨hr, hc, by simp [execDEnd, hr, hc]⟩)
    · exact .inr (.inr ⟨hr, hc, by simp [execDEnd, hr, hc]⟩)
  · exact .inl ⟨hr, by simp [execDEnd, hr]⟩

/-- Everything `E_SYM` can do. -/
theorem execESym_cases (b : Byte) (s : State) :
    (s.enc.estate ≠ .run ∧ execESym b s = .next s) ∨
    (s.enc.estate = .run ∧ readCtab b s = none ∧ execESym b s = .fault (.unwrittenCtab b)) ∨
    (s.enc.estate = .run ∧ ∃ e, readCtab b s = some e ∧
      ((clenOf e = 0 ∧ execESym b s = .next (raise (.internalEncoding b) s)) ∨
       (clenOf e ≠ 0 ∧ (2 ^ 64 ≤ s.enc.ebits.toNat + clenOf e ∨ 2 ^ 64 ≤ s.enc.epos.toNat + 1) ∧
        execESym b s = .refused .counterOverflow) ∨
       (clenOf e ≠ 0 ∧ s.enc.ebits.toNat + clenOf e < 2 ^ 64 ∧ s.enc.epos.toNat + 1 < 2 ^ 64 ∧
        execESym b s =
          .next (s.setEnc { appendBits s.enc (codeOf e) with epos := s.enc.epos + 1#64 })))) := by
  by_cases hr : s.enc.estate = .run
  · refine .inr ?_
    cases he : readCtab b s with
    | none => exact .inl ⟨hr, rfl, by simp [execESym, hr, he]⟩
    | some e =>
      refine .inr ⟨hr, e, rfl, ?_⟩
      by_cases h0 : clenOf e = 0
      · exact .inl ⟨h0, by simp [execESym, hr, he, h0]⟩
      · by_cases hb : s.enc.ebits.toNat + clenOf e < 2 ^ 64
        · by_cases hp : s.enc.epos.toNat + 1 < 2 ^ 64
          · refine .inr (.inr ⟨h0, hb, hp, ?_⟩)
            simp [execESym, hr, he, h0, countUp_eq_some.2 ⟨hb, rfl⟩, countUp_eq_some.2 ⟨hp, rfl⟩]
          · refine .inr (.inl ⟨h0, .inr (Nat.le_of_not_lt hp), ?_⟩)
            simp [execESym, hr, he, h0, countUp_eq_some.2 ⟨hb, rfl⟩, countUp_eq_none.2 (Nat.le_of_not_lt hp)]
        · refine .inr (.inl ⟨h0, .inl (Nat.le_of_not_lt hb), ?_⟩)
          simp [execESym, hr, he, h0, countUp_eq_none.2 (Nat.le_of_not_lt hb)]
  · exact .inl ⟨hr, by simp [execESym, hr]⟩

/-- Everything `E_END` can do. -/
theorem execEEnd_cases (s : State) :
    (s.enc.estate ≠ .run ∧ execEEnd s = .next s) ∨
    (s.enc.estate = .run ∧ execEEnd s = .next (s.setEnc { flushBits s.enc with estate := .done })) := by
  by_cases hr : s.enc.estate = .run
  · exact .inr ⟨hr, by simp [execEEnd, hr]⟩
  · exact .inl ⟨hr, by simp [execEEnd, hr]⟩

/-! ### The next states a meaning can answer -/

/-- The next state of `D_BIT`: unchanged outside a run, one of the two error entries, or one edge walked. -/
theorem exec_dBit_next {v : Byte} {s t : State} (h : exec (.dBit v) s = .next t) :
    (s.dec.dstate ≠ .run ∧ t = s) ∨
    (s.dec.dstate = .run ∧ bitOfSymbol v = none ∧ t = raise (.malformedBit v) s) ∨
    (s.dec.dstate = .run ∧ ∃ b, bitOfSymbol v = some b ∧ ∃ n, readTmem s.dec.dcur s = some n ∧
      ((kindOf n = .leaf ∧ t = raise .treeFault s) ∨
       (kindOf n = .internal ∧ ∃ m, readTmem (childOf n b) s = some m ∧ s.dec.dpos.toNat + 1 < 2 ^ 64 ∧
        ((kindOf m = .internal ∧ t = s.setDec { s.dec with dpos := s.dec.dpos + 1#64, dcur := childOf n b }) ∨
         (kindOf m = .leaf ∧ s.dec.dsyms.toNat + 1 < 2 ^ 64 ∧
          t = s.setDec { s.dec with
            dpos := s.dec.dpos + 1#64, dsyms := s.dec.dsyms + 1#64, dcur := 0#9, dout := s.dec.dout ++ [symOf m] }))))) := by
  rw [exec_dBit] at h
  rcases execDBit_cases v s with
    ⟨hr, e⟩ | ⟨hr, hv, e⟩ | ⟨hr, b, hb, ⟨_, e⟩ | ⟨n, hn, ⟨hk, e⟩ | ⟨hk, ⟨_, e⟩ | ⟨m, hm, e⟩⟩⟩⟩ <;> rw [e] at h
  · cases h; exact .inl ⟨hr, rfl⟩
  · cases h; exact .inr (.inl ⟨hr, hv, rfl⟩)
  · cases h
  · cases h; exact .inr (.inr ⟨hr, b, hb, n, hn, .inl ⟨hk, rfl⟩⟩)
  · cases h
  · refine .inr (.inr ⟨hr, b, hb, n, hn, .inr ⟨hk, m, hm, ?_⟩⟩)
    rcases walkTo_cases (childOf n b) m s with ⟨e, _⟩ | ⟨hp, hk', e⟩ | ⟨hp, hs, hk', e⟩ <;> rw [e] at h <;> cases h
    · exact ⟨hp, .inl ⟨hk', rfl⟩⟩
    · exact ⟨hp, .inr ⟨hk', hs, rfl⟩⟩

/-- The next state of `D_END`, which always has one. -/
theorem exec_dEnd_next {s t : State} (h : exec .dEnd s = .next t) :
    (s.dec.dstate ≠ .run ∧ t = s) ∨
    (s.dec.dstate = .run ∧ s.dec.dcur = 0#9 ∧ t = s.setDec { s.dec with dstate := .done }) ∨
    (s.dec.dstate = .run ∧ s.dec.dcur ≠ 0#9 ∧ t = raise .truncatedStream s) := by
  rw [exec_dEnd] at h
  rcases execDEnd_cases s with ⟨hr, e⟩ | ⟨hr, hc, e⟩ | ⟨hr, hc, e⟩ <;> rw [e] at h <;> cases h
  · exact .inl ⟨hr, rfl⟩
  · exact .inr (.inl ⟨hr, hc, rfl⟩)
  · exact .inr (.inr ⟨hr, hc, rfl⟩)

/-- The next state of `E_SYM`: unchanged outside a run, the error entry, or the code appended. -/
theorem exec_eSym_next {b : Byte} {s t : State} (h : exec (.eSym b) s = .next t) :
    (s.enc.estate ≠ .run ∧ t = s) ∨
    (s.enc.estate = .run ∧ ∃ e, readCtab b s = some e ∧
      ((clenOf e = 0 ∧ t = raise (.internalEncoding b) s) ∨
       (clenOf e ≠ 0 ∧ s.enc.ebits.toNat + clenOf e < 2 ^ 64 ∧ s.enc.epos.toNat + 1 < 2 ^ 64 ∧
        t = s.setEnc { appendBits s.enc (codeOf e) with epos := s.enc.epos + 1#64 }))) := by
  rw [exec_eSym] at h
  rcases execESym_cases b s with
    ⟨hr, e⟩ | ⟨_, _, e⟩ | ⟨hr, c, hc, ⟨h0, e⟩ | ⟨_, _, e⟩ | ⟨h0, hb, hp, e⟩⟩ <;> rw [e] at h <;> cases h
  · exact .inl ⟨hr, rfl⟩
  · exact .inr ⟨hr, c, hc, .inl ⟨h0, rfl⟩⟩
  · exact .inr ⟨hr, c, hc, .inr ⟨h0, hb, hp, rfl⟩⟩

/-- The next state of `E_END`, which always has one. -/
theorem exec_eEnd_next {s t : State} (h : exec .eEnd s = .next t) :
    (s.enc.estate ≠ .run ∧ t = s) ∨
    (s.enc.estate = .run ∧ t = s.setEnc { flushBits s.enc with estate := .done }) := by
  rw [exec_eEnd] at h
  rcases execEEnd_cases s with ⟨hr, e⟩ | ⟨hr, e⟩ <;> rw [e] at h <;> cases h
  · exact .inl ⟨hr, rfl⟩
  · exact .inr ⟨hr, rfl⟩

end Sys2Proof.Machine
end

