-- ==== Sys2Proof/Laws/PerInstr.lean ====
section
/-! SUPPORT. Statements made per instruction. Family `TableRow`: the word the encoder gives a command meets the match
and mask of the opcode-table row with the command's mnemonic, on the command's own port (R91, R92, R107). -/

namespace Sys2Proof.Laws.TableRow

/-- The command's word is matched by its own row. -/
def Statement (i : Instr) : Prop :=
  ∃ r ∈ opcodeTable, r.mnemonic = mnemonicOf i ∧ rowMatches i.port (encode i) r = true

theorem dStart : Statement .dStart := ⟨⟨"D_START", .dec, 0x200#10, 0x3FF#10⟩, by decide⟩

/-- The `op` field of a data token's word is 0 whatever its argument. -/
theorem dataToken_masked : ∀ v : Byte, (cmdWord 0#2 v) &&& 0x300#10 = 0x000#10 := by decide

theorem dBit (v : Byte) : Statement (.dBit v) :=
  ⟨⟨"D_BIT", .dec, 0x000#10, 0x300#10⟩, by simp [opcodeTable], rfl,
    by have h := dataToken_masked v; simp [rowMatches, encode, Instr.port, h]⟩

theorem dEnd : Statement .dEnd := ⟨⟨"D_END", .dec, 0x100#10, 0x3FF#10⟩, by decide⟩

theorem eStart : Statement .eStart := ⟨⟨"E_START", .enc, 0x200#10, 0x3FF#10⟩, by decide⟩

theorem eSym (b : Byte) : Statement (.eSym b) :=
  ⟨⟨"E_SYM", .enc, 0x000#10, 0x300#10⟩, by simp [opcodeTable], rfl,
    by have h := dataToken_masked b; simp [rowMatches, encode, Instr.port, h]⟩

theorem eEnd : Statement .eEnd := ⟨⟨"E_END", .enc, 0x100#10, 0x3FF#10⟩, by decide⟩

end Sys2Proof.Laws.TableRow
end

