-- ==== Sys2Proof/Laws/Step.lean ====
section
/-! SUPPORT. What a step does with the host's next event, and runs of several steps. -/

namespace Sys2Proof.Machine

/-- A step with an event presented takes it. -/
theorem step_cons {s : State} {ev : HostEvent} {rest : List HostEvent} (h : s.inbox = ev :: rest) :
    step s = takeEvent ev (s.setInbox rest) := by
  simp [step, fetch, h]

theorem takeEvent_command {p : Port} {w : CmdWord} {i : Instr} (h : decode p w = .command i) (s : State) :
    takeEvent (.command p w) s = exec i s := by
  simp [takeEvent, h]

theorem takeEvent_reserved {p : Port} {w : CmdWord} (h : decode p w = .reserved) (s : State) :
    takeEvent (.command p w) s = .next s := by
  simp [takeEvent, h, reservedWord]

/-- Everything a step with an event presented can be: a command run, a reserved word, a host write, reset. -/
theorem takeEvent_cases (ev : HostEvent) (s : State) :
    (∃ p w i, ev = .command p w ∧ decode p w = .command i ∧ takeEvent ev s = exec i s) ∨
    (∃ p w, ev = .command p w ∧ decode p w = .reserved ∧ takeEvent ev s = .next s) ∨
    (∃ i w, ev = .tWrite i w ∧ takeEvent ev s = hostTWrite i w s) ∨
    (∃ b e, ev = .cWrite b e ∧ takeEvent ev s = hostCWrite b e s) ∨
    (ev = .reset ∧ takeEvent ev s = .next (hostReset s)) := by
  cases ev with
  | command p w =>
    cases h : decode p w with
    | command i => exact .inl ⟨p, w, i, rfl, h, takeEvent_command h s⟩
    | reserved => exact .inr (.inl ⟨p, w, rfl, h, takeEvent_reserved h s⟩)
  | tWrite i w => exact .inr (.inr (.inl ⟨i, w, rfl, rfl⟩))
  | cWrite b e => exact .inr (.inr (.inr (.inl ⟨b, e, rfl, rfl⟩)))
  | reset => exact .inr (.inr (.inr (.inr ⟨rfl, rfl⟩)))

/-- The next state a step with an event presented can answer. -/
theorem takeEvent_next {ev : HostEvent} {s t : State} (h : takeEvent ev s = .next t) :
    (∃ p w i, ev = .command p w ∧ decode p w = .command i ∧ exec i s = .next t) ∨
    (∃ p w, ev = .command p w ∧ decode p w = .reserved ∧ t = s) ∨
    (∃ i w, ev = .tWrite i w ∧ s.dec.dstate ≠ .run ∧
      t = s.setDec { s.dec with tmem := Memory.write s.dec.tmem i.toNat w }) ∨
    (∃ b e, ev = .cWrite b e ∧ s.enc.estate ≠ .run ∧
      t = s.setEnc { s.enc with ctab := Memory.write s.enc.ctab b.toNat e }) ∨
    (ev = .reset ∧ t = hostReset s) := by
  rcases takeEvent_cases ev s with
    ⟨p, w, i, rfl, hd, e⟩ | ⟨p, w, rfl, hd, e⟩ | ⟨i, w, rfl, e⟩ | ⟨b, c, rfl, e⟩ | ⟨rfl, e⟩ <;> rw [e] at h
  · exact .inl ⟨p, w, i, rfl, hd, h⟩
  · cases h; exact .inr (.inl ⟨p, w, rfl, hd, rfl⟩)
  · unfold hostTWrite at h
    split at h <;> cases h
    exact .inr (.inr (.inl ⟨i, w, rfl, by simp_all, rfl⟩))
  · unfold hostCWrite at h
    split at h <;> cases h
    exact .inr (.inr (.inr (.inl ⟨b, c, rfl, by simp_all, rfl⟩)))
  · cases h; exact .inr (.inr (.inr (.inr ⟨rfl, rfl⟩)))

@[simp] theorem runSteps_zero (s : State) : runSteps 0 s = .next s := rfl

theorem runSteps_succ_next {n : Nat} {s t : State} (h : step s = .next t) : runSteps (n + 1) s = runSteps n t := by
  simp [runSteps, h]

/-- Steps added up: `m` then `n` more. -/
theorem runSteps_add {m n : Nat} {s t : State} (h : runSteps m s = .next t) : runSteps (m + n) s = runSteps n t := by
  induction m generalizing s with
  | zero => simp [runSteps] at h; simp [h]
  | succ m ih =>
    rw [Nat.succ_add]
    cases hs : step s with
    | next u =>
      rw [runSteps_succ_next hs] at h
      rw [runSteps_succ_next hs]
      exact ih h
    | fault f => simp [runSteps, hs] at h
    | refused r => simp [runSteps, hs] at h

/-- The model's run of steps is the host's. -/
theorem runSteps_eq_core_run (n : Nat) (s : State) : runSteps n s = Host.Core.run core n s := by
  induction n generalizing s with
  | zero => rfl
  | succ n ih =>
    cases h : step s with
    | next t =>
      have hc : core.step s = .next t := h
      rw [runSteps_succ_next h, ih]
      simp only [Host.Core.run, hc]
      rfl
    | fault f =>
      have hc : core.step s = .fault f := h
      simp only [runSteps, h, Host.Core.run, hc]
      rfl
    | refused r =>
      have hc : core.step s = .refused r := h
      simp only [runSteps, h, Host.Core.run, hc]
      rfl

end Sys2Proof.Machine
end

