-- ==== Sys2Proof/Tests/Slice0.lean ====
section
/-! SUPPORT. The model's own tests. Every expected value is taken from the spec's text, examples and vectors, named in
each docstring. The second half holds, for every statement with hypotheses, a witness that meets them. -/

namespace Sys2Proof.Tests

-- One theorem at a time: each waiting theorem would hold a thread of its own.
set_option Elab.async false

open Sys2Proof Sys2Proof.Machine Sys2Proof.Safety

/-! ### Helpers -/

/-- The DEC of a next state. -/
def nextDec : Result → Option Dec
  | .next t => some t.dec
  | .fault _ => none
  | .refused _ => none

/-- The ENC of a next state. -/
def nextEnc : Result → Option Enc
  | .next t => some t.enc
  | .fault _ => none
  | .refused _ => none

/-- The fault of an answer. -/
def faultOf : Result → Option Fault
  | .next _ => none
  | .fault f => some f
  | .refused _ => none

/-- The refusal of an answer. -/
def refusalOf : Result → Option Refusal
  | .next _ => none
  | .fault _ => none
  | .refused r => some r

/-- TMEM of V-T1 (`"aaaa"`). -/
def tmemAaaa : Cells 19 := [(0, 0x00202#19), (1, 0x40000#19), (2, 0x40061#19)]

/-- TMEM of V-T7 (`"abc"`). -/
def tmemAbc : Cells 19 := [(0, 0x00202#19), (1, 0x40063#19), (2, 0x00604#19), (3, 0x40061#19), (4, 0x40062#19)]

/-- TMEM of V-X5: the root is a leaf. -/
def tmemLeafRoot : Cells 19 := [(0, 0x40061#19)]

/-- The entry (2, "10") by V-W15. -/
def entry10 : CodeEntry := (2#263 <<< 255) ||| (1#263 <<< 254)

/-- The entry (2, "11"). -/
def entry11 : CodeEntry := (2#263 <<< 255) ||| (3#263 <<< 253)

/-- The entry (1, "0"). -/
def entry0 : CodeEntry := 1#263 <<< 255

/-- The entries of V-T7 (R175): 0x61 "10", 0x62 "11", 0x63 "0", all others 0. -/
def entryAbc (b : Nat) : CodeEntry :=
  if b = 0x61 then entry10 else if b = 0x62 then entry11 else if b = 0x63 then entry0 else 0#263

/-- CTAB of V-T7. -/
def ctabAbc : Cells 263 := (List.range 256).map (fun b => (b, entryAbc b))

/-- DEC in a run, with a pointer, an output stream of one position a byte, and an image. -/
def decAt (cur : NodeIdx) (pos : Count) (out : List Byte) (M : Cells 19) : State :=
  { State.reset with dec :=
    { dstate := .run, derr := .none, dcur := cur, dpos := pos, dsyms := BitVec.ofNat 64 out.length, dbad := 0x00#8,
      dout := out, tmem := M } }

/-- ENC in a run, with pending bits and complete bytes, and a code table. -/
def encAt (acc : Byte) (bits pos : Count) (out : List Byte) (C : Cells 263) : State :=
  { State.reset with enc :=
    { estate := .run, eerr := .none, eacc := acc, epos := pos, ebits := bits, ebad := 0x00#8, eout := out, ctab := C } }

/-! ### Well-formedness: each check refuses an ill-formed term -/

/-- R105: a line of the other prefix is refused by a port. -/
theorem test_wellFormed_refuses_other_port :
    Instr.wellFormed .enc (.dBit 0x00#8) = false ∧ Instr.wellFormed .dec .eStart = false ∧
      Instr.wellFormed .dec (.dBit 0x32#8) = true := by decide

/-- R105: a stream with both prefixes is refused. -/
theorem test_stream_refuses_mixed_prefixes :
    streamWellFormed .dec [.dStart, .eSym 0x61#8, .dEnd] = false ∧
      streamWellFormed .dec [.dStart, .dBit 0x01#8, .dEnd] = true := by decide

/-- R96, V-W14: the host does not write a leaf word with a bit of 17:8 set. -/
theorem test_treeWord_refuses_ignored_bits :
    treeWordWellFormed 0x7FFFF#19 = false ∧ treeWordWellFormed 0x400FF#19 = true ∧
      treeWordWellFormed 0x3FFFF#19 = true := by decide

/-- R100, V-E18: the host does not write an entry with a bit below its code set. -/
theorem test_codeEntry_refuses_ignored_bits :
    codeEntryWellFormed (entry10 ||| BitVec.ofNat 263 (2 ^ 253 - 1)) = false ∧ codeEntryWellFormed entry10 = true ∧
      codeEntryWellFormed (BitVec.allOnes 263) = true := by decide +kernel

/-! ### Decoding: words written out from R91 and R92 -/

/-- V-W1 and V-W5: the control words of DEC, bit 9 first. -/
theorem test_decode_dec_control :
    decode .dec 0b1000000000#10 = .command .dStart ∧ decode .dec 0b0100000000#10 = .command .dEnd := by decide

/-- V-W2 to V-W4: bit symbols, a malformed one being a legal word. -/
theorem test_decode_dec_token :
    decode .dec 0b0000000000#10 = .command (.dBit 0x00#8) ∧ decode .dec 0b0000000001#10 = .command (.dBit 0x01#8) ∧
      decode .dec 0b0000110010#10 = .command (.dBit 0x32#8) := by decide

/-- V-W8: the control words of ENC. -/
theorem test_decode_enc_control :
    decode .enc 0b1000000000#10 = .command .eStart ∧ decode .enc 0b0100000000#10 = .command .eEnd := by decide

/-- V-W6 and V-W7. -/
theorem test_decode_enc_token :
    decode .enc 0b0001101000#10 = .command (.eSym 0x68#8) ∧
      decode .enc 0b0011111111#10 = .command (.eSym 0xFF#8) := by decide

/-- V-W9 on both ports, and V-W10: 258 words of a port are commands. -/
theorem test_decode_reserved :
    (∀ p : Bool, ∀ w ∈ [0x101#10, 0x1FF#10, 0x201#10, 0x2FF#10, 0x300#10, 0x3FF#10],
      decode (if p then .dec else .enc) w = .reserved) ∧
    ((List.range 1024).filter (fun w => decide (decode .enc (BitVec.ofNat 10 w) ≠ .reserved))).length = 258 := by
  decide +kernel

/-- The words of `D_START` and `D_BIT 1` in the opcode table's numbering, and a reserved one. -/
theorem test_decodeTableWord :
    decodeTableWord 10 0x200 = some .dStart ∧ decodeTableWord 16 0x001 = some (.dBit 0x01#8) ∧
      decodeTableWord 16 0x3FF = none := by decide

/-! ### Formats -/

/-- V-W11 to V-W14. -/
theorem test_treeWord_vectors :
    internalWord 9#9 10#9 = 0x0120A#19 ∧ internalWord 511#9 511#9 = 0x3FFFF#19 ∧ leafWord 0xFF#8 = 0x400FF#19 ∧
      kindOf 0x7FFFF#19 = .leaf ∧ symOf 0x7FFFF#19 = 0xFF#8 := by decide

/-- V-W15 and V-W16. -/
theorem test_codeEntry_vectors :
    codeEntry [true, false] = entry10 ∧ codeOf entry10 = [true, false] ∧
      codeEntry (List.replicate 255 true) = BitVec.ofNat 263 (2 ^ 263 - 1) ∧ clenOf (BitVec.allOnes 263) = 255 := by
  decide +kernel

/-- V-W17 to V-W21. -/
theorem test_pack_vectors :
    pack [true] = ([0x80#8], 1) ∧ pack (List.replicate 7 false ++ [true]) = ([0x01#8], 8) ∧
      pack (List.replicate 8 false ++ [true]) = ([0x00#8, 0x80#8], 9) ∧
      unpack [0xB0#8] 5 = some [true, false, true, true, false] ∧
      unpack [0xBF#8] 5 = some [true, false, true, true, true] := by decide

/-- R105, R106: lines with a number, a quoted character, a comment, a string. -/
theorem test_lines :
    parseLine ['E', '_', 'S', 'Y', 'M', ' ', '0', 'x', '6', '8', ' ', ';', ' ', 'h'] = some [.eSym 0x68#8] ∧
      parseLine ['E', '_', 'S', 'Y', 'M', ' ', '\'', 'h', '\''] = some [.eSym 0x68#8] ∧
      parseLine ['D', '_', 'B', 'I', 'T', 'S', ' ', '"', '0', '1', '"'] = some [.dBit 0x00#8, .dBit 0x01#8] ∧
      parseLine ['D', '_', 'B', 'I', 'T', ' ', '2', '5', '6'] = none ∧ parseLine [';'] = some [] := by decide

/-- R105: a stream for the ENC port does not hold a line of DEC. -/
theorem test_stream_of_lines :
    parseStream .enc [['E', '_', 'S', 'T', 'A', 'R', 'T'], ['E', '_', 'E', 'N', 'D']] = some [.eStart, .eEnd] ∧
      parseStream .enc [['E', '_', 'S', 'T', 'A', 'R', 'T'], ['D', '_', 'E', 'N', 'D']] = none := by decide

/-- Log 20: the apostrophe and `;` as quoted characters, each with a comment after it. -/
theorem test_quoted_characters :
    parseLine ['E', '_', 'S', 'Y', 'M', ' ', '\'', '\'', '\'', ' ', ';', ' ', 'x'] = some [.eSym 0x27#8] ∧
      parseLine ['E', '_', 'S', 'Y', 'M', ' ', '\'', ';', '\'', ';', '\''] = some [.eSym 0x3B#8] := by decide

/-! ### Instructions, one step each -/

/-- R191: from a run in progress, `D_START` leaves a clean one. -/
theorem test_dStart_abandons_run :
    nextDec (exec .dStart (decAt 2#9 3#64 [0x61#8] tmemAbc)) = some (decAt 0#9 0#64 [] tmemAbc).dec := by decide

/-- R195's example. -/
theorem test_dBit_reaches_leaf :
    nextDec (exec (.dBit 0x01#8) (decAt 0#9 0#64 [] tmemAaaa)) = some (decAt 0#9 1#64 [0x61#8] tmemAaaa).dec := by
  decide

/-- V-P4: after `D_START`, the bit 1 leads to the internal node 2, and `D_BIT 0x32` there is malformed (V-X1). -/
theorem test_dBit_internal_then_malformed :
    nextDec (exec (.dBit 0x01#8) (decAt 0#9 0#64 [] tmemAbc)) = some (decAt 2#9 1#64 [] tmemAbc).dec ∧
      nextDec (exec (.dBit 0x32#8) (decAt 2#9 1#64 [] tmemAbc)) =
        some { (decAt 2#9 1#64 [] tmemAbc).dec with dstate := .error, derr := .malformedBit, dbad := 0x32#8 } := by
  decide

/-- R200's example: the pointer is at the root. -/
theorem test_dEnd_at_root :
    (nextDec (exec .dEnd (decAt 0#9 1#64 [0x61#8] tmemAaaa))).map (fun d => (d.dstate, d.derr, d.dout)) =
      some (.done, .none, [0x61#8]) := by decide

/-- V-P4, the fifth word: truncated. -/
theorem test_dEnd_mid_path :
    (nextDec (exec .dEnd (decAt 2#9 3#64 [0x61#8] tmemAbc))).map (fun d => (d.dstate, d.derr, d.dcur, d.dpos, d.dout)) =
      some (.error, .truncatedStream, 2#9, 3#64, [0x61#8]) := by decide

/-- R161: from a run in progress, `E_START` leaves a clean one. -/
theorem test_eStart_abandons_run :
    nextEnc (exec .eStart (encAt 0xB0#8 12#64 6#64 [0xED#8] [])) = some (encAt 0x00#8 0#64 0#64 [] []).enc := by decide

/-- R165's example: `E_SYM 0x68` with the code "1110". -/
theorem test_eSym_appends_code :
    nextEnc (exec (.eSym 0x68#8) (encAt 0x00#8 0#64 0#64 [] [(0x68, (4#263 <<< 255) ||| (7#263 <<< 252))])) =
      some (encAt 0xE0#8 4#64 1#64 [] [(0x68, (4#263 <<< 255) ||| (7#263 <<< 252))]).enc := by decide +kernel

/-- V-E11: a code of 255 ones behind one pending bit fills 32 bytes. -/
theorem test_eSym_longest_code :
    (nextEnc (exec (.eSym 0x00#8) (encAt 0x00#8 1#64 1#64 [] [(0, BitVec.allOnes 263)]))).map
        (fun e => (e.ebits, e.eacc, e.eout)) = some (256#64, 0x00#8, 0x7F#8 :: List.replicate 31 0xFF#8) := by
  decide +kernel

/-- R170's example: 37 bits, 0x38 pending. -/
theorem test_eEnd_flushes :
    (nextEnc (exec .eEnd (encAt 0x38#8 37#64 12#64 [0xED#8, 0xA1#8, 0x91#8, 0xF6#8] []))).map
        (fun e => (e.estate, e.ebits, e.eacc, e.eout)) =
      some (.done, 37#64, 0x00#8, [0xED#8, 0xA1#8, 0x91#8, 0xF6#8, 0x38#8]) := by decide

/-- V-E17: with a multiple of 8 bits, nothing is appended. -/
theorem test_eEnd_on_byte_boundary :
    (nextEnc (exec .eEnd (encAt 0x00#8 8#64 2#64 [0xED#8] []))).map (fun e => (e.estate, e.eout)) =
      some (.done, [0xED#8]) := by decide

/-! ### The host's reference functions -/

/-- V-T2, V-T3: the synthetic symbol (R125). -/
theorem test_synSym : synSym 0x61#8 = 0x00#8 ∧ synSym 0x00#8 = 0x01#8 := by decide

/-- V-T6, merge 2: among three nodes of frequency 2 the internal one with least symbol 0x63 comes before 0x72. -/
theorem test_popLeast_tie :
    (popLeast [.leaf 0x72#8 2, .internal 2 (.leaf 0x63#8 1) (.leaf 0x64#8 1), .leaf 0x61#8 5]).map Prod.fst =
      some (.internal 2 (.leaf 0x63#8 1) (.leaf 0x64#8 1)) := by decide

/-- The tree of V-T7. -/
def treeAbc : Tree := .internal 3 (.leaf 0x63#8 1) (.internal 2 (.leaf 0x61#8 1) (.leaf 0x62#8 1))

/-- V-T7: the tree of `"abc"`, its image and its codes. -/
theorem test_build_abc :
    build (freq [0x61#8, 0x62#8, 0x63#8]) = some treeAbc ∧ layout treeAbc = tmemAbc ∧
      codes treeAbc 0x62#8 = some [true, true] ∧ ctabImage (codes treeAbc) = ctabAbc := by decide +kernel

/-- V-T7: the weighted external path length of `"abc"` is its encoded length, 5. -/
theorem test_pathLength_abc : weightedPathLength treeAbc 0 = 5 := by decide

/-- V-T1: the tree of `"aaaa"` has the synthetic leaf on the left and frequency 5. -/
theorem test_build_aaaa :
    build (freq [0x61#8, 0x61#8, 0x61#8, 0x61#8]) = some (.internal 5 (.leaf 0x00#8 1) (.leaf 0x61#8 4)) := by
  decide +kernel

/-! ### Witnesses: reset and steps -/

/-- The state with host events to come. -/
def sent (s : State) (evs : List HostEvent) : State := { s with inbox := evs }

theorem witness_resetEvent :
    (sent (decAt 2#9 1#64 [] tmemAbc) [.reset]).inbox = .reset :: [] ∧ Instr.dBit 0x05#8 ≠ .dStart ∧
      Instr.eEnd ≠ .eStart := by decide

theorem witness_pseudoCommands : ∀ b ∈ [0x61#8, 0x27#8, 0x7F#8, 0x3B#8], b.toNat < 128 ∧ b ≠ 0x22#8 := by decide

/-- R106: an empty pseudo-command is a line of its prefix. -/
theorem witness_streamPrefix :
    parseStream .dec [['D', '_', 'E', 'N', 'D'], [';'], ['D', '_', 'B', 'I', 'T', ' ', '1']] =
        some [.dEnd, .dBit 0x01#8] ∧
      linePort ['D', '_', 'B', 'I', 'T', 'S', ' ', '"', '"'] = some .dec ∧
      parseLine ['D', '_', 'B', 'I', 'T', 'S', ' ', '"', '"'] = some [] ∧ Port.dec ≠ Port.enc := by decide

theorem witness_stepRuns :
    (sent State.reset [.command .dec 0x200#10]).inbox = .command .dec 0x200#10 :: [] ∧
      decode .dec 0x200#10 = .command .dStart ∧
      (sent State.reset [.command .enc 0x0FF#10]).inbox = .command .enc 0x0FF#10 :: [] ∧
      decode .enc 0x0FF#10 = .command (.eSym 0xFF#8) := by decide

/-- V-X13, V-E16. -/
theorem witness_reservedWord :
    (sent State.reset [.command .dec 0x3AB#10]).inbox = .command .dec 0x3AB#10 :: [] ∧
      decode .dec 0x3AB#10 = .reserved ∧ decode .enc 0x300#10 = .reserved ∧ decode .enc 0x101#10 = .reserved ∧
      decode .dec 0x201#10 = .reserved := by decide

theorem witness_noCommand : State.reset.inbox = [] := by decide

/-! ### Witnesses: the decoder -/

/-- Both bits, an internal and a leaf child, and both counters one below their limit. -/
theorem witness_dBitWalks :
    let s := decAt 0#9 (BitVec.ofNat 64 (2 ^ 64 - 2)) [] tmemAbc
    s.dec.dstate = .run ∧ readTmem s.dec.dcur s = some 0x00202#19 ∧ kindOf 0x00202#19 = .internal ∧
      leftOf 0x00202#19 = 1#9 ∧ readTmem 1#9 s = some 0x40063#19 ∧ kindOf 0x40063#19 = .leaf ∧
      rightOf 0x00202#19 = 2#9 ∧ readTmem 2#9 s = some 0x00604#19 ∧ kindOf 0x00604#19 = .internal ∧
      s.dec.dpos.toNat + 1 < 2 ^ 64 ∧ s.dec.dsyms.toNat + 1 < 2 ^ 64 := by decide +kernel

theorem witness_dBitMalformed :
    (decAt 2#9 1#64 [] tmemAbc).dec.dstate = .run ∧ 0x02#8 ≠ 0x00#8 ∧ 0x02#8 ≠ 0x01#8 ∧ 0xFF#8 ≠ 0x00#8 ∧
      0xFF#8 ≠ 0x01#8 := by decide

/-- V-X5. -/
theorem witness_dBitOnLeaf :
    let s := decAt 0#9 0#64 [] tmemLeafRoot
    s.dec.dstate = .run ∧ readTmem s.dec.dcur s = some 0x40061#19 ∧ kindOf 0x40061#19 = .leaf := by decide

/-- A clean decoder run meets DEC's invariant on any image in canonical form. -/
theorem decInv_run (pos : Count) (M : Cells 19) (h : Memory.wf 512 M) : DecInv (decAt 0#9 pos [] M).dec where
  errIff := by simp [decAt]
  errKind := by simp [decAt]
  bad := by simp [decAt]
  syms := by simp [decAt]
  order := by simp [decAt]
  pointer := fun _ => .inl rfl
  idle := by simp [decAt]
  done := by simp [decAt]
  truncated := by simp [decAt]
  treeFault := by simp [decAt]
  tmem := h

/-- The nodes of the image of V-T7 with their paths. -/
theorem abc_nodes (p : List Bool) (i : NodeIdx) (h : nodeAt tmemAbc 0#9 p = some i) :
    (p, i) ∈ [([], 0#9), ([false], 1#9), ([true], 2#9), ([true, false], 3#9), ([true, true], 4#9)] := by
  match p with
  | [] => cases h; decide
  | [false] => cases h; decide
  | [true] => cases h; decide
  | false :: _ :: _ => cases h
  | [true, false] => cases h; decide
  | [true, true] => cases h; decide
  | true :: false :: _ :: _ => cases h
  | true :: true :: _ :: _ => cases h

/-- The leaves of the image of V-T7. -/
theorem abc_leaves (p : List Bool) (s : Byte) (h : LeafAt tmemAbc p s) :
    (p, s) ∈ [([false], 0x63#8), ([true, false], 0x61#8), ([true, true], 0x62#8)] := by
  obtain ⟨i, w, hi, hw, hk, rfl⟩ := h
  have := abc_nodes p i hi
  simp only [List.mem_cons, Prod.mk.injEq, List.not_mem_nil, or_false] at this
  rcases this with ⟨rfl, rfl⟩ | ⟨rfl, rfl⟩ | ⟨rfl, rfl⟩ | ⟨rfl, rfl⟩ | ⟨rfl, rfl⟩ <;> cases hw <;>
    first | (exact absurd hk (by decide)) | decide

/-- The image of V-T7 is well-formed. -/
theorem witness_wfTree : WfTree tmemAbc where
  written p i h := by
    have := abc_nodes p i h
    simp only [List.mem_cons, Prod.mk.injEq, List.not_mem_nil, or_false] at this
    rcases this with ⟨rfl, rfl⟩ | ⟨rfl, rfl⟩ | ⟨rfl, rfl⟩ | ⟨rfl, rfl⟩ | ⟨rfl, rfl⟩ <;> exact ⟨_, rfl⟩
  root := ⟨0x00202#19, rfl, rfl⟩
  unshared p q i h h' := by
    have hp := abc_nodes p i h
    have hq := abc_nodes q i h'
    simp only [List.mem_cons, Prod.mk.injEq, List.not_mem_nil, or_false] at hp hq
    rcases hp with ⟨rfl, rfl⟩ | ⟨rfl, rfl⟩ | ⟨rfl, rfl⟩ | ⟨rfl, rfl⟩ | ⟨rfl, rfl⟩ <;> simpa [eq_comm] using hq
  distinct p q s h h' := by
    have hp := abc_leaves p s h
    have hq := abc_leaves q s h'
    simp only [List.mem_cons, Prod.mk.injEq, List.not_mem_nil, or_false] at hp hq
    rcases hp with ⟨rfl, rfl⟩ | ⟨rfl, rfl⟩ | ⟨rfl, rfl⟩ <;> simpa [eq_comm] using hq

/-- Both clauses: a run on a leaf root that raises, and a run on a well-formed image. -/
theorem witness_treeFault :
    DecInv (decAt 0#9 0#64 [] tmemLeafRoot).dec ∧ (decAt 0#9 0#64 [] tmemLeafRoot).dec.dstate = .run ∧
      (nextDec (exec (.dBit 0x00#8) (decAt 0#9 0#64 [] tmemLeafRoot))).map Dec.derr = some .treeFault ∧
      DecInv (decAt 0#9 0#64 [] tmemAbc).dec ∧ WfTree (decAt 0#9 0#64 [] tmemAbc).dec.tmem ∧
      (nextDec (exec (.dBit 0x01#8) (decAt 0#9 0#64 [] tmemAbc))).isSome = true :=
  ⟨decInv_run _ _ (by decide), rfl, by decide, decInv_run _ _ (by decide), witness_wfTree, by decide⟩

theorem witness_dEnd :
    (decAt 0#9 0#64 [] []).dec.dstate = .run ∧ (decAt 0#9 0#64 [] []).dec.dcur = 0#9 ∧
      (decAt 511#9 1#64 [] []).dec.dcur ≠ 0#9 ∧ State.reset.dec.dstate ≠ .run := by decide

theorem witness_outsideRun : State.reset.dec.dstate ≠ .run ∧ State.reset.enc.estate ≠ .run := by decide

/-! ### Witnesses: the encoder -/

/-- An encoder run with the bits "1011" pending meets ENC's invariant. -/
theorem encInv_run (C : Cells 263) (h : Memory.wf 256 C) : EncInv (encAt 0xB0#8 4#64 2#64 [] C).enc where
  errIff := by simp [encAt]
  errKind := by simp [encAt]
  bad := by simp [encAt]
  outOpen := by simp [encAt]
  accLow := by
    intro _ k hk
    have : k < 4 := hk
    show (0xB0#8 : Byte).getLsbD k = false
    interval_cases k <;> decide
  outDone := by simp [encAt]
  idle := by simp [encAt]
  ctab := h

theorem ctabAbc_wf : Memory.wf 256 ctabAbc := Memory.wf_table 256 entryAbc

theorem ctabAbc_read (b : Byte) : Memory.read ctabAbc b.toNat = some (entryAbc b.toNat) :=
  Memory.read_table entryAbc b.isLt

theorem witness_eSym :
    let s := encAt 0xB0#8 4#64 2#64 [] ctabAbc
    EncInv s.enc ∧ s.enc.estate = .run ∧ readCtab 0x61#8 s = some entry10 ∧ clenOf entry10 ≠ 0 ∧
      s.enc.ebits.toNat + clenOf entry10 < 2 ^ 64 ∧ s.enc.epos.toNat + 1 < 2 ^ 64 :=
  ⟨encInv_run _ ctabAbc_wf, rfl, by decide +kernel, by decide +kernel, by decide +kernel, by decide +kernel⟩

/-- V-E10. -/
theorem witness_eSymWithoutCode :
    (encAt 0xB0#8 4#64 2#64 [] ctabAbc).enc.estate = .run ∧
      readCtab 0x64#8 (encAt 0xB0#8 4#64 2#64 [] ctabAbc) = some 0#263 ∧ clenOf 0#263 = 0 := by decide +kernel

theorem witness_eEnd :
    (encAt 0xB0#8 4#64 2#64 [] []).enc.estate = .run ∧ EncInv (encAt 0xB0#8 4#64 2#64 [] []).enc ∧
      (encAt 0xB0#8 4#64 2#64 [] []).enc.ebits.toNat % 8 ≠ 0 ∧
      (encAt 0x00#8 8#64 2#64 [0xED#8] []).enc.ebits.toNat % 8 = 0 ∧ State.reset.enc.estate ≠ .run :=
  ⟨rfl, encInv_run _ (by decide), by decide, by decide, by decide⟩

/-- The end state of R175 meets ENC's invariant in DONE. -/
theorem witness_output :
    EncInv (encAt 0xB0#8 4#64 2#64 [] []).enc ∧
      EncInv { (encAt 0x00#8 5#64 3#64 [0xB0#8] []).enc with estate := .done } := by
  refine ⟨encInv_run _ (by decide), ⟨by simp [encAt], by simp [encAt], by simp [encAt], by simp, by simp, ?_, ?_, ?_⟩⟩
  · exact fun _ => ⟨by decide, rfl⟩
  · simp
  · simp [encAt, Memory.wf]

theorem witness_unpack :
    [0xB0#8].length ≠ (9 + 7) / 8 ∧ [0xB0#8].length = (5 + 7) / 8 ∧ ([] : List Byte).length = (0 + 7) / 8 ∧
      15 < 8 * (pack (List.replicate 9 true)).1.length := by decide

/-! ### Witnesses: stops -/

theorem witness_unwritten :
    let s := decAt 0#9 0#64 [] []
    let s' := decAt 0#9 0#64 [] [(0, 0x00202#19)]
    s.dec.dstate = .run ∧ readTmem s.dec.dcur s = none ∧ s'.dec.dstate = .run ∧
      readTmem s'.dec.dcur s' = some 0x00202#19 ∧ kindOf 0x00202#19 = .internal ∧
      readTmem (leftOf 0x00202#19) s' = none ∧ readTmem (rightOf 0x00202#19) s' = none ∧
      (encAt 0x00#8 0#64 0#64 [] []).enc.estate = .run ∧
      readCtab 0x61#8 (encAt 0x00#8 0#64 0#64 [] []) = none := by decide

/-- The counters at `2^64 - 1`: `DPOS`; `DSYMS` with a leaf child; `EBITS` one short of the code; `EPOS`. -/
theorem witness_counters :
    let s := decAt 0#9 (BitVec.ofNat 64 (2 ^ 64 - 1)) [] tmemAaaa
    let d := { s with dec := { s.dec with dpos := 0#64, dsyms := BitVec.ofNat 64 (2 ^ 64 - 1) } }
    let e := encAt 0x00#8 (BitVec.ofNat 64 (2 ^ 64 - 2)) 0#64 [] ctabAbc
    let e' := encAt 0x00#8 0#64 (BitVec.ofNat 64 (2 ^ 64 - 1)) [] ctabAbc
    (s.dec.dstate = .run ∧ readTmem s.dec.dcur s = some 0x00202#19 ∧ readTmem (leftOf 0x00202#19) s = some 0x40000#19 ∧
      s.dec.dpos.toNat = 2 ^ 64 - 1) ∧
    (d.dec.dstate = .run ∧ readTmem (rightOf 0x00202#19) d = some 0x40061#19 ∧ kindOf 0x40061#19 = .leaf ∧
      d.dec.dsyms.toNat = 2 ^ 64 - 1) ∧
    (e.enc.estate = .run ∧ readCtab 0x61#8 e = some entry10 ∧ clenOf entry10 ≠ 0 ∧
      2 ^ 64 ≤ e.enc.ebits.toNat + clenOf entry10) ∧
    (readCtab 0x61#8 e' = some entry10 ∧ e'.enc.epos.toNat = 2 ^ 64 - 1) ∧
    (nextDec (exec (.dBit 0x01#8) (decAt 0#9 0#64 [] tmemAbc))).isSome = true ∧
    (nextEnc (exec (.eSym 0x61#8) (encAt 0xB0#8 4#64 2#64 [] ctabAbc))).isSome = true := by decide +kernel

/-- Each of the six stops is reached by a step. -/
theorem witness_stops :
    faultOf (step (sent (decAt 0#9 0#64 [] []) [.command .dec 0x001#10])) = some (.unwrittenTmem 0#9) ∧
      faultOf (step (sent (encAt 0x00#8 0#64 0#64 [] []) [.command .enc 0x061#10])) = some (.unwrittenCtab 0x61#8) ∧
      refusalOf (step (sent (decAt 0#9 (BitVec.ofNat 64 (2 ^ 64 - 1)) [] tmemAaaa) [.command .dec 0x001#10])) =
        some .counterOverflow ∧
      refusalOf (step (sent (encAt 0x00#8 (BitVec.ofNat 64 (2 ^ 64 - 1)) 0#64 [] ctabAbc) [.command .enc 0x061#10])) =
        some .counterOverflow ∧
      refusalOf (step (sent (decAt 0#9 0#64 [] []) [.tWrite 511#9 0x40000#19])) = some .tmemWriteDuringRun ∧
      refusalOf (step (sent (encAt 0x00#8 0#64 0#64 [] []) [.cWrite 0xFF#8 0#263])) = some .ctabWriteDuringRun := by
  decide +kernel

/-! ### Witnesses: frames, errors, invariants -/

theorem witness_frames :
    Instr.port (.dBit 0x01#8) = .dec ∧ (nextDec (exec (.dBit 0x01#8) (decAt 0#9 0#64 [] tmemAbc))).isSome = true ∧
      Instr.port .dEnd = .dec ∧ (nextDec (exec .dEnd (decAt 2#9 0#64 [] tmemAbc))).isSome = true ∧
      Instr.port (.eSym 0x61#8) = .enc ∧
      (nextEnc (exec (.eSym 0x61#8) (encAt 0xB0#8 4#64 2#64 [] ctabAbc))).isSome = true ∧
      Instr.port .eEnd = .enc ∧ (nextEnc (exec .eEnd (encAt 0xB0#8 4#64 2#64 [] ctabAbc))).isSome = true := by
  decide +kernel

/-- The four error kinds, each entered by a step from outside ERROR. -/
theorem witness_errorEntry :
    (decAt 2#9 1#64 [] tmemAbc).dec.dstate ≠ .error ∧
      (nextDec (exec (.dBit 0x02#8) (decAt 2#9 1#64 [] tmemAbc))).map Dec.dstate = some .error ∧
      (nextDec (exec (.dBit 0x01#8) (decAt 0#9 0#64 [] tmemLeafRoot))).map Dec.dstate = some .error ∧
      (nextDec (exec .dEnd (decAt 2#9 1#64 [] tmemAbc))).map Dec.dstate = some .error ∧
      (encAt 0xB0#8 4#64 2#64 [] ctabAbc).enc.estate ≠ .error ∧
      (nextEnc (exec (.eSym 0x64#8) (encAt 0xB0#8 4#64 2#64 [] ctabAbc))).map Enc.estate = some .error := by
  decide +kernel

/-- DEC and ENC in ERROR. -/
def bothInError : State :=
  { State.reset with
    dec := { Dec.reset with dstate := .error, derr := .malformedBit, dbad := 0x02#8 }
    enc := { Enc.reset with estate := .error, eerr := .internalEncoding, ebad := 0x64#8 } }

/-- Each clause: another command, the START commands, reset. -/
theorem witness_errorSticky :
    bothInError.dec.dstate = .error ∧ bothInError.enc.estate = .error ∧
      (sent bothInError [.command .dec 0x001#10]).inbox = .command .dec 0x001#10 :: [] ∧
      (nextDec (step (sent bothInError [.command .dec 0x001#10]))).isSome = true ∧
      ¬ isStart .dec (.command .dec 0x001#10) ∧ ¬ isStart .enc (.command .dec 0x001#10) ∧
      isStart .dec (.command .dec 0x200#10) ∧ isStart .enc (.command .enc 0x200#10) ∧
      (nextDec (step (sent bothInError [.command .dec 0x200#10]))).isSome = true ∧
      (nextEnc (step (sent bothInError [.command .enc 0x200#10]))).isSome = true ∧
      (nextEnc (step (sent bothInError [.reset]))).isSome = true := by
  refine ⟨rfl, rfl, rfl, by decide, ?_, ?_, ⟨0x200#10, rfl, by decide⟩, ⟨0x200#10, rfl, by decide⟩, by decide,
    by decide, by decide⟩
  · rintro ⟨w, hw, hd⟩; cases hw; exact absurd hd (by decide)
  · rintro ⟨w, hw, -⟩; cases hw

/-- Each transition is taken by a step. -/
theorem witness_transitions :
    (nextDec (step (sent State.reset [.command .dec 0x200#10]))).map Dec.dstate = some .run ∧
      (nextDec (step (sent (decAt 0#9 0#64 [] []) [.command .dec 0x100#10]))).map Dec.dstate = some .done ∧
      (nextDec (step (sent (decAt 2#9 0#64 [] []) [.command .dec 0x100#10]))).map Dec.dstate = some .error ∧
      (nextDec (step (sent (decAt 2#9 0#64 [] []) [.command .dec 0x0FF#10]))).map Dec.dstate = some .error ∧
      (nextDec (step (sent bothInError [.reset]))).map Dec.dstate = some .idle ∧
      (nextEnc (step (sent State.reset [.command .enc 0x200#10]))).map Enc.estate = some .run ∧
      (nextEnc (step (sent (encAt 0x00#8 0#64 0#64 [] []) [.command .enc 0x100#10]))).map Enc.estate = some .done ∧
      (nextEnc (step (sent (encAt 0x00#8 0#64 0#64 [] [(0, 0#263)]) [.command .enc 0x000#10]))).map Enc.estate =
        some .error := by decide +kernel

/-- Both engines in a run, with a command to come. -/
def bothRunning : State :=
  { dec := (decAt 0#9 0#64 [] tmemAbc).dec
    enc := (encAt 0xB0#8 4#64 2#64 [] ctabAbc).enc
    inbox := [.command .dec 0x001#10] }

/-- A state with both engines in a run meets the invariant, and a step is taken from it. -/
theorem witness_stepKeepsInv :
    Inv bothRunning ∧ (nextDec (step bothRunning)).isSome = true :=
  ⟨⟨decInv_run _ _ (by decide), encInv_run _ ctabAbc_wf⟩, by decide +kernel⟩

theorem witness_streams :
    (sent (decAt 0#9 1#64 [0x61#8] tmemAaaa) [.command .dec 0x001#10]).inbox = .command .dec 0x001#10 :: [] ∧
      (nextDec (step (sent (decAt 0#9 1#64 [0x61#8] tmemAaaa) [.command .dec 0x001#10]))).map Dec.dout =
        some [0x61#8, 0x61#8] ∧
      (nextDec (step (sent (decAt 0#9 1#64 [0x61#8] tmemAaaa) [.command .dec 0x200#10]))).map Dec.dout =
        some [] := by decide

/-! ### Witnesses: the host and the memories -/

theorem witness_hostWrites :
    (sent State.reset [.tWrite 511#9 0x40061#19]).inbox = .tWrite 511#9 0x40061#19 :: [] ∧
      State.reset.dec.dstate ≠ .run ∧ Memory.wf Config.tmemDepth State.reset.dec.tmem ∧ (0#9 : NodeIdx) ≠ 511#9 ∧
      (sent State.reset [.cWrite 0xFF#8 0#263]).inbox = .cWrite 0xFF#8 0#263 :: [] ∧
      State.reset.enc.estate ≠ .run ∧ Memory.wf Config.alphabet State.reset.enc.ctab ∧ (0x00#8 : Byte) ≠ 0xFF#8 := by
  decide +kernel

theorem witness_hostWriteDuringRun :
    (sent (decAt 0#9 0#64 [] []) [.tWrite 0#9 0x00202#19]).inbox = .tWrite 0#9 0x00202#19 :: [] ∧
      (decAt 0#9 0#64 [] []).dec.dstate = .run ∧
      (sent (encAt 0x00#8 0#64 0#64 [] []) [.cWrite 0x00#8 0#263]).inbox = .cWrite 0x00#8 0#263 :: [] ∧
      (encAt 0x00#8 0#64 0#64 [] []).enc.estate = .run := by decide +kernel

theorem witness_codeEntry :
    (List.replicate 255 true).length ≤ 255 ∧ ([] : List Bool).length ≤ 255 :=
  ⟨le_of_eq (List.length_replicate ..), Nat.zero_le _⟩

/-- V-W14 and V-E18: contents that differ in ignored bits only. -/
theorem witness_ignoredBits :
    SameTreeWords [(0, 0x400FF#19)] [(0, 0x7FFFF#19)] ∧
      SameCodes [(0x61, entry10)] [(0x61, entry10 ||| BitVec.ofNat 263 (2 ^ 253 - 1))] := by
  constructor
  · intro a
    by_cases h : 0 = a
    · subst h; simp [Memory.read]; decide
    · simp [Memory.read, h]
  · intro a
    by_cases h : 0x61 = a
    · subst h; simp only [Memory.read, if_true]; decide +kernel
    · simp [Memory.read, h]

/-! ### Witnesses: runs -/

theorem witness_interleaving :
    (nextDec (execAll [.dStart, .eStart, .dBit 0x01#8, .eSym 0x61#8, .dEnd, .eEnd]
      { State.reset with dec := { Dec.reset with tmem := tmemAaaa }, enc := { Enc.reset with ctab := ctabAbc } })).map
        Dec.dout = some [0x61#8] ∧
      ([.dStart, .eStart, .dBit 0x01#8, .eSym 0x61#8, .dEnd, .eEnd] : List Instr).filter
        (fun i => decide (i.port = .enc)) = [.eStart, .eSym 0x61#8, .eEnd] := by decide +kernel

/-- V-P3. -/
theorem witness_emptyRuns :
    (sent State.reset [.command .dec 0x200#10, .command .dec 0x100#10]).inbox = present [.dStart, .dEnd] ++ [] ∧
      (sent State.reset [.command .enc 0x200#10, .command .enc 0x100#10]).inbox = present [.eStart, .eEnd] ++ [] := by
  decide

/-- The abstract tree of V-T7. -/
theorem abc_treeOf :
    TreeOf tmemAbc 0#9 (.internal (.leaf 0x63#8) (.internal (.leaf 0x61#8) (.leaf 0x62#8))) :=
  .internal 0#9 0x00202#19 _ _ rfl rfl (.leaf 1#9 0x40063#19 rfl rfl)
    (.internal 2#9 0x00604#19 _ _ rfl rfl (.leaf 3#9 0x40061#19 rfl rfl) (.leaf 4#9 0x40062#19 rfl rfl))

/-- V-D7 ends well; a lone 1 is truncated; a 2 is malformed; a bit at a leaf root is a fault of the tree. -/
theorem witness_decRun :
    TreeOf tmemAbc 0#9 (.internal (.leaf 0x63#8) (.internal (.leaf 0x61#8) (.leaf 0x62#8))) ∧
      [0x01#8, 0x00#8, 0x01#8, 0x01#8, 0x00#8].length < 2 ^ 64 ∧
      (sent (launchDec tmemAbc) (present (dRun [0x01#8]))).inbox = present (dRun [0x01#8]) ++ [] ∧
      (match dec (.internal (.leaf 0x63#8) (.internal (.leaf 0x61#8) (.leaf 0x62#8)))
          [0x01#8, 0x00#8, 0x01#8, 0x01#8, 0x00#8] with
        | .ok out => out = [0x61#8, 0x62#8, 0x63#8]
        | .error _ => False) ∧
      (match dec (.internal (.leaf 0x63#8) (.internal (.leaf 0x61#8) (.leaf 0x62#8))) [0x01#8] with
        | .ok _ => False
        | .error k => k = .truncatedStream) ∧
      (match dec (.leaf 0x61#8) [0x00#8] with
        | .ok _ => False
        | .error k => k = .treeFault) :=
  ⟨abc_treeOf, by decide +kernel, rfl, rfl, rfl, rfl⟩

theorem ctabAbc_written : AllWritten ctabAbc := fun b => ⟨_, ctabAbc_read b⟩

/-- R175's run ends well; V-E10's ends in error at its third byte. -/
theorem witness_encRun :
    AllWritten ctabAbc ∧ [0x61#8, 0x62#8, 0x63#8].length < 2 ^ 64 ∧
      (([0x61#8, 0x62#8, 0x64#8] : List Byte).map
        (fun b => match Memory.read ctabAbc b.toNat with | some e => clenOf e | none => 0)).sum < 2 ^ 64 ∧
      (sent (launchEnc ctabAbc) (present (eEncode [0x61#8]))).inbox = present (eEncode [0x61#8]) ++ [] ∧
      (match enc (tableOf ctabAbc) [0x61#8, 0x62#8, 0x63#8] with
        | .ok B => decide (B = [true, false, true, true, false])
        | .error _ => false) = true ∧
      (match enc (tableOf ctabAbc) [0x61#8, 0x62#8, 0x64#8, 0x63#8] with
        | .ok _ => false
        | .error k => decide (k = .internalEncoding)) = true :=
  ⟨ctabAbc_written, by decide +kernel, by decide +kernel, rfl, by decide +kernel, by decide +kernel⟩

/-- The two images of V-T7 match. -/
theorem witness_matches : Matches tmemAbc ctabAbc where
  wfTree := witness_wfTree
  onLeaf b p h := by
    have := abc_leaves p b h
    simp only [List.mem_cons, Prod.mk.injEq, List.not_mem_nil, or_false] at this
    rcases this with ⟨rfl, rfl⟩ | ⟨rfl, rfl⟩ | ⟨rfl, rfl⟩
    · exact ⟨entry0, by decide +kernel, by decide +kernel, by decide +kernel⟩
    · exact ⟨entry10, by decide +kernel, by decide +kernel, by decide +kernel⟩
    · exact ⟨entry11, by decide +kernel, by decide +kernel, by decide +kernel⟩
  offLeaf b h := by
    have hz : ∀ b : Byte, b ≠ 0x61#8 → b ≠ 0x62#8 → b ≠ 0x63#8 → entryAbc b.toNat = 0#263 := by decide +kernel
    refine ⟨_, ctabAbc_read b, (congrArg clenOf (hz b ?_ ?_ ?_)).trans (by decide +kernel)⟩
    · rintro rfl; exact h ⟨[true, false], 3#9, 0x40061#19, rfl, rfl, rfl, rfl⟩
    · rintro rfl; exact h ⟨[true, true], 4#9, 0x40062#19, rfl, rfl, rfl, rfl⟩
    · rintro rfl; exact h ⟨[false], 1#9, 0x40063#19, rfl, rfl, rfl, rfl⟩

theorem witness_roundTrip :
    Matches tmemAbc ctabAbc ∧ (∀ b ∈ [0x62#8, 0x61#8], ∃ p, LeafAt tmemAbc p b) ∧
      (([0x62#8, 0x61#8] : List Byte).map
        (fun b => match Memory.read ctabAbc b.toNat with | some e => clenOf e | none => 0)).sum < 2 ^ 64 ∧
      (sent (launchEnc ctabAbc) []).enc.ctab = ctabAbc ∧
      (sent (launchDec tmemAbc) []).dec.tmem = tmemAbc := by
  refine ⟨witness_matches, ?_, by decide +kernel, rfl, rfl⟩
  intro b hb
  simp only [List.mem_cons, List.not_mem_nil, or_false] at hb
  rcases hb with rfl | rfl
  · exact ⟨[true, true], 4#9, 0x40062#19, rfl, rfl, rfl, rfl⟩
  · exact ⟨[true, false], 3#9, 0x40061#19, rfl, rfl, rfl, rfl⟩

/-- Both cases of R130: several symbols (V-T7) and one symbol (V-T1); also the premise of the statements on codes and
images. -/
theorem witness_builtTree :
    build (freq [0x61#8, 0x62#8, 0x63#8]) = some treeAbc ∧ (∃ b, ∀ x ∈ [0x61#8, 0x61#8, 0x61#8, 0x61#8], x = b) ∧
      ¬ (∃ b, ∀ x ∈ [0x61#8, 0x62#8, 0x63#8], x = b) ∧ codes treeAbc 0x61#8 = some [true, false] ∧
      codes treeAbc 0x63#8 = some [false] ∧ (0x61#8 : Byte) ≠ 0x63#8 ∧ (leavesOf treeAbc).Perm (leavesOf treeAbc) := by
  refine ⟨test_build_abc.1, ⟨0x61#8, by decide⟩, ?_, by decide, by decide, by decide, .rfl⟩
  rintro ⟨b, hb⟩
  have h1 := hb 0x61#8 (by simp)
  have h2 := hb 0x62#8 (by simp)
  exact absurd (h1.trans h2.symm) (by decide)

/-- The whole of V-P3 and of V-P2: `compress` completes. -/
theorem witness_decompress :
    ([] : List Byte).length < 2 ^ 56 ∧ decide (compress [] = .ok ([], none)) = true ∧
      (match compress [0x61#8, 0x61#8, 0x61#8, 0x61#8] with
        | .ok (B, some T) => decide (B = List.replicate 4 true) && decide (layout T = tmemAaaa)
        | .ok (_, none) => false
        | .error _ => false
        | .refused => false) = true := by decide +kernel

end Sys2Proof.Tests
end

section
/-! SUPPORT. Proofs of the statements of 00_scope.md: the command a step runs (R160, R190), the packing functions
(R16, R17), and the counters (R48). -/

namespace Sys2Proof.Machine

/-! ### Packing: the bits of a packed byte -/

/-- `0x80` shifted down `k` places has one bit, the one of stream position `k` in its byte (R16). -/
theorem getLsbD_topBit_shift : ∀ k < 8, ∀ j < 8, (0x80#8 >>> k).getLsbD (7 - j) = decide (j = k) := by decide

/-- The first `n` rounds of the fold of `packByte` set the wanted ones of the bits at stream positions below `n`. -/
theorem getLsbD_foldl_topBits (f : Nat → Bool) {n j : Nat} (hn : n ≤ 8) (hj : j < 8) :
    ((List.range n).foldl (fun acc k => if f k then acc ||| (0x80#8 >>> k) else acc) 0x00#8).getLsbD (7 - j) =
      (decide (j < n) && f j) := by
  induction n with
  | zero => simp
  | succ n ih =>
    specialize ih (by omega)
    have hbit := getLsbD_topBit_shift n (by omega) j hj
    rw [List.range_succ, List.foldl_append, List.foldl_cons, List.foldl_nil]
    by_cases hjn : j = n
    · subst hjn
      cases hf : f j <;> simp [hf, ih, hbit]
    · have hlt : j < n + 1 ↔ j < n := by omega
      cases f n <;> simp [ih, hbit, hjn, hlt]

/-- Bit `7 - k` of byte `j` of a packed sequence is its bit `8 * j + k`, 0 past the end (R16). -/
theorem getLsbD_packByte (B : List Bool) (j : Nat) {k : Nat} (hk : k < 8) :
    (packByte B j).getLsbD (7 - k) = B.getD (8 * j + k) false := by
  simpa [packByte, hk] using getLsbD_foldl_topBits (fun k => B.getD (8 * j + k) false) (le_refl 8) hk

@[simp] theorem pack_snd (B : List Bool) : (pack B).2 = B.length := rfl

@[simp] theorem pack_fst_length (B : List Bool) : (pack B).1.length = (B.length + 7) / 8 := by simp [pack]

theorem pack_fst_getD (B : List Bool) {j : Nat} (hj : j < (B.length + 7) / 8) :
    (pack B).1.getD j 0x00#8 = packByte B j := by
  simp [pack, List.getD_eq_getElem?_getD, hj]

/-- Reading a packed sequence at position `i` gives bit `i`, also among the padding bits (R16). -/
theorem packedBit_pack (B : List Bool) {i : Nat} (hi : i < 8 * (pack B).1.length) :
    packedBit (pack B).1 i = B.getD i false := by
  rw [pack_fst_length] at hi
  rw [packedBit, pack_fst_getD B (by omega), getLsbD_packByte B _ (by omega), Nat.div_add_mod]

/-! ### Unpacking -/

@[simp] theorem bitsOf_length (Y : List Byte) (n : Nat) : (bitsOf Y n).length = n := by simp [bitsOf]

theorem bitsOf_getD (Y : List Byte) {n i : Nat} (hi : i < n) : (bitsOf Y n).getD i false = packedBit Y i := by
  simp [bitsOf, List.getD_eq_getElem?_getD, hi]

theorem bitsOf_pack (B : List Bool) : bitsOf (pack B).1 B.length = B := by
  refine List.ext_getElem (bitsOf_length _ _) fun i _ hi => ?_
  have hbit := packedBit_pack B (i := i) (by rw [pack_fst_length]; omega)
  rw [← List.getD_eq_getElem _ false, ← List.getD_eq_getElem _ false, bitsOf_getD _ hi, hbit]

theorem unpack_eq_some {Y : List Byte} {n : Nat} (h : Y.length = (n + 7) / 8) : unpack Y n = some (bitsOf Y n) :=
  if_pos h

theorem unpack_eq_none {Y : List Byte} {n : Nat} (h : Y.length ≠ (n + 7) / 8) : unpack Y n = none := if_neg h

/-- `unpack(pack(B)) = B` (R17). -/
theorem unpack_pack (B : List Bool) : unpack (pack B).1 (pack B).2 = some B := by
  rw [pack_snd, unpack_eq_some (pack_fst_length B), bitsOf_pack]

/-! ### Commands leave the other engine alone (R7) -/

theorem exec_enc_next_dec {i : Instr} {s t : State} (hi : i.port = .enc) (h : exec i s = .next t) :
    t.dec = s.dec := by
  cases i with
  | dStart | dBit _ | dEnd => cases hi
  | eStart => cases h; rfl
  | eSym b =>
    rcases exec_eSym_next h with ⟨-, rfl⟩ | ⟨-, e, -, ⟨-, rfl⟩ | ⟨-, -, -, rfl⟩⟩ <;> rfl
  | eEnd => rcases exec_eEnd_next h with ⟨-, rfl⟩ | ⟨-, rfl⟩ <;> rfl

theorem exec_dec_next_enc {i : Instr} {s t : State} (hi : i.port = .dec) (h : exec i s = .next t) :
    t.enc = s.enc := by
  cases i with
  | dStart => cases h; rfl
  | dBit v =>
    rcases exec_dBit_next h with
      ⟨-, rfl⟩ | ⟨-, -, rfl⟩ | ⟨-, b, -, n, -, ⟨-, rfl⟩ | ⟨-, m, -, -, ⟨-, rfl⟩ | ⟨-, -, rfl⟩⟩⟩ <;> rfl
  | dEnd => rcases exec_dEnd_next h with ⟨-, rfl⟩ | ⟨-, -, rfl⟩ | ⟨-, -, rfl⟩ <;> rfl
  | eStart | eSym _ | eEnd => cases hi

/-! ### How far a command moves a counter (R48) -/

/-- A counter has gone from `c` up to `d`, by at most `k`, without wrapping. -/
def CountGrows (k : Nat) (c d : Count) : Prop := c.toNat ≤ d.toNat ∧ d.toNat ≤ c.toNat + k

theorem CountGrows.refl (k : Nat) (c : Count) : CountGrows k c c := ⟨le_rfl, Nat.le_add_right _ _⟩

theorem CountGrows.add {k j : Nat} {c : Count} (hjk : j ≤ k) (h : c.toNat + j < 2 ^ 64) :
    CountGrows k c (c + BitVec.ofNat 64 j) := by
  rw [CountGrows, toNat_add_of_lt h]
  omega

@[simp] theorem appendBits_ebits (e : Enc) (bs : List Bool) :
    (appendBits e bs).ebits = e.ebits + BitVec.ofNat 64 bs.length := by
  obtain ⟨ys, h⟩ := appendBits_frame e bs
  rw [h]

@[simp] theorem flushBits_ebits (e : Enc) : (flushBits e).ebits = e.ebits := by rw [flushBits_eq]

@[simp] theorem flushBits_epos (e : Enc) : (flushBits e).epos = e.epos := by rw [flushBits_eq]

/-- DEC's counters grow by at most one in every command but `D_START`. -/
theorem exec_next_decCounters {i : Instr} {s t : State} (hi : i ≠ .dStart) (h : exec i s = .next t) :
    CountGrows 1 s.dec.dpos t.dec.dpos ∧ CountGrows 1 s.dec.dsyms t.dec.dsyms := by
  have same : CountGrows 1 s.dec.dpos s.dec.dpos ∧ CountGrows 1 s.dec.dsyms s.dec.dsyms := ⟨.refl _ _, .refl _ _⟩
  cases i with
  | dStart => exact absurd rfl hi
  | dBit v =>
    rcases exec_dBit_next h with
      ⟨-, rfl⟩ | ⟨-, -, rfl⟩ | ⟨-, b, -, n, -, ⟨-, rfl⟩ | ⟨-, m, -, hpos, ⟨-, rfl⟩ | ⟨-, hsyms, rfl⟩⟩⟩
    · exact same
    · exact same
    · exact same
    · exact ⟨.add le_rfl hpos, .refl _ _⟩
    · exact ⟨.add le_rfl hpos, .add le_rfl hsyms⟩
  | dEnd => rcases exec_dEnd_next h with ⟨-, rfl⟩ | ⟨-, -, rfl⟩ | ⟨-, -, rfl⟩ <;> exact same
  | eStart | eSym _ | eEnd => rw [exec_enc_next_dec rfl h]; exact same

/-- In every command but `E_START`, `EPOS` grows by at most one and `EBITS` by at most a code's length. -/
theorem exec_next_encCounters {i : Instr} {s t : State} (hi : i ≠ .eStart) (h : exec i s = .next t) :
    CountGrows 1 s.enc.epos t.enc.epos ∧ CountGrows 255 s.enc.ebits t.enc.ebits := by
  have same : CountGrows 1 s.enc.epos s.enc.epos ∧ CountGrows 255 s.enc.ebits s.enc.ebits := ⟨.refl _ _, .refl _ _⟩
  cases i with
  | eStart => exact absurd rfl hi
  | eSym b =>
    rcases exec_eSym_next h with ⟨-, rfl⟩ | ⟨-, e, -, ⟨-, rfl⟩ | ⟨-, hbits, hpos, rfl⟩⟩
    · exact same
    · exact same
    · refine ⟨.add le_rfl hpos, ?_⟩
      simpa using CountGrows.add (clenOf_le e) hbits
  | eEnd =>
    rcases exec_eEnd_next h with ⟨-, rfl⟩ | ⟨-, rfl⟩
    · exact same
    · simpa using same
  | dStart | dBit _ | dEnd => rw [exec_dec_next_enc rfl h]; exact same

/-! ### A counter at its limit refuses the step (R48) -/

/-- The two bit symbols with the child each chooses, as the statements spell them, are the bits with their child. -/
theorem exists_bit_of_child {v : Byte} {c : NodeIdx} {n : TreeWord}
    (h : v = 0x00#8 ∧ c = leftOf n ∨ v = 0x01#8 ∧ c = rightOf n) : ∃ b, bitOfSymbol v = some b ∧ c = childOf n b := by
  rcases h with ⟨rfl, rfl⟩ | ⟨rfl, rfl⟩
  · exact ⟨false, rfl, rfl⟩
  · exact ⟨true, rfl, rfl⟩

theorem walkTo_refused {c : NodeIdx} {m : TreeWord} {s : State}
    (h : 2 ^ 64 ≤ s.dec.dpos.toNat + 1 ∨ kindOf m = .leaf ∧ 2 ^ 64 ≤ s.dec.dsyms.toNat + 1) :
    walkTo c m s = .refused .counterOverflow := by
  rcases walkTo_cases c m s with ⟨e, -⟩ | ⟨hpos, hk, -⟩ | ⟨hpos, hsyms, -, -⟩
  · exact e
  · rcases h with h | ⟨hk', -⟩
    · omega
    · cases hk.symm.trans hk'
  · omega

theorem execESym_refused {b : Byte} {e : CodeEntry} {s : State} (hr : s.enc.estate = .run)
    (he : readCtab b s = some e) (h0 : clenOf e ≠ 0)
    (h : 2 ^ 64 ≤ s.enc.ebits.toNat + clenOf e ∨ 2 ^ 64 ≤ s.enc.epos.toNat + 1) :
    execESym b s = .refused .counterOverflow := by
  rcases execESym_cases b s with ⟨hr', -⟩ | ⟨-, hnone, -⟩ | ⟨-, e', he', hcases⟩
  · exact absurd hr hr'
  · cases he.symm.trans hnone
  · obtain rfl : e = e' := Option.some.inj (he.symm.trans he')
    rcases hcases with ⟨h0', -⟩ | ⟨-, -, hx⟩ | ⟨-, hbits, hpos, -⟩
    · exact absurd h0' h0
    · exact hx
    · omega

end Sys2Proof.Machine

/-! ### The obligations -/

namespace Sys2Proof.Proofs

open Sys2Proof.Machine

/-- Settles O8: a step takes the event, and taking a command word is running what it decodes to. -/
theorem stepRunsTheDecodedCommand : Obligations.StepRunsTheDecodedCommand := by
  intro s p w rest i hin hd
  rw [step_cons hin, takeEvent_command hd]
  rfl

/-- Settles O23, from the place of each bit in a packed byte. -/
theorem unpackInvertsPack : Obligations.UnpackInvertsPack := by
  refine ⟨fun B => ⟨pack_snd B, pack_fst_length B, fun i hi => packedBit_pack B hi, unpack_pack B⟩,
    fun Y n => ⟨unpack_eq_none, fun h => ⟨bitsOf Y n, unpack_eq_some h, bitsOf_length Y n, fun i hi => ?_⟩⟩⟩
  rw [bitsOf_getD Y hi, packedBit]

/-- Settles O25, command by command for the growth; at a limit, the walk and the code's append are refused whole. -/
theorem countersNeverWrap : Obligations.CountersNeverWrap := by
  refine ⟨fun i s t h => ⟨fun hi => ?_, fun hi => ?_⟩, ?_, ?_⟩
  · obtain ⟨⟨hposLe, hposGe⟩, hsymsLe, hsymsGe⟩ := exec_next_decCounters hi h
    exact ⟨hposLe, hposGe, hsymsLe, hsymsGe⟩
  · obtain ⟨⟨hposLe, hposGe⟩, hbitsLe, hbitsGe⟩ := exec_next_encCounters hi h
    exact ⟨hposLe, hposGe, hbitsLe, hbitsGe⟩
  · intro s v n m c hr hv hn hk hm hlimit
    obtain ⟨b, hb, rfl⟩ := exists_bit_of_child hv
    rw [exec_dBit, execDBit_walk hr hb hn hk hm]
    exact walkTo_refused (hlimit.imp (by omega) (And.imp_right (by omega)))
  · intro s b e hr he h0 hlimit
    rw [exec_eSym]
    exact execESym_refused hr he h0 (hlimit.imp_right (by omega))

end Sys2Proof.Proofs
end

section
/-! SUPPORT. Proofs of the statements of 10_state.md: reset and the status reads (R49, R45), the transitions of the run
states (R21, R35), the streams (R24, R38), what stops a step (R48, R82, R285), the packed output (R42) and the machine
invariant. -/

/-! ### Decoding against encoding -/

namespace Sys2Proof

/-- A port reads a command from a word exactly when the command is one of the port's and the word is its encoding. -/
theorem decode_eq_command_iff {p : Port} {w : CmdWord} {i : Instr} :
    decode p w = .command i ↔ i.port = p ∧ encode i = w := by
  constructor
  · intro h
    have hw := cmdWord_fields w
    unfold decode at h
    split at h
    · next hop => cases h; cases p <;> exact ⟨rfl, by rw [← hw, hop, argField_cmdWord]; rfl⟩
    · split at h
      · next hf => cases h; cases p <;> exact ⟨rfl, by rw [← hw, hf.1, hf.2]; rfl⟩
      · split at h
        · next hf => cases h; cases p <;> exact ⟨rfl, by rw [← hw, hf.1, hf.2]; rfl⟩
        · cases h
  · rintro ⟨rfl, rfl⟩
    cases i <;> simp [decode, encode, Instr.port, dataToken, endCommand, startCommand]

@[simp] theorem decode_encode (i : Instr) : decode i.port (encode i) = .command i :=
  decode_eq_command_iff.2 ⟨rfl, rfl⟩

end Sys2Proof

namespace Sys2Proof.Machine

/-! ### A step, by the event it takes -/

/-- A step whose next event is a command's word, on the command's port, runs the command. -/
theorem step_command {s : State} {i : Instr} {rest : List HostEvent}
    (h : s.inbox = .command i.port (encode i) :: rest) : step s = exec i (s.setInbox rest) := by
  rw [step_cons h, takeEvent_command (decode_encode i)]

/-- The next state a step can answer, by the event it takes: `takeEvent_next` with a command's event spelt out. -/
theorem step_next {s t : State} {ev : HostEvent} {rest : List HostEvent} (hin : s.inbox = ev :: rest)
    (h : step s = .next t) :
    (∃ i, ev = .command i.port (encode i) ∧ exec i (s.setInbox rest) = .next t) ∨
    (∃ p w, ev = .command p w ∧ decode p w = .reserved ∧ t = s.setInbox rest) ∨
    (∃ i w, ev = .tWrite i w ∧ s.dec.dstate ≠ .run ∧
      t = (s.setInbox rest).setDec { s.dec with tmem := Memory.write s.dec.tmem i.toNat w }) ∨
    (∃ b e, ev = .cWrite b e ∧ s.enc.estate ≠ .run ∧
      t = (s.setInbox rest).setEnc { s.enc with ctab := Memory.write s.enc.ctab b.toNat e }) ∨
    (ev = .reset ∧ t = State.reset.setInbox rest) := by
  rw [step_cons hin] at h
  rcases takeEvent_next h with ⟨p, w, i, rfl, hd, hx⟩ | ⟨p, w, rfl, hd, rfl⟩ | hw | hw | ⟨rfl, rfl⟩
  · obtain ⟨rfl, rfl⟩ := decode_eq_command_iff.1 hd
    exact .inl ⟨i, rfl, hx⟩
  · exact .inr (.inl ⟨p, w, rfl, hd, rfl⟩)
  · exact .inr (.inr (.inl hw))
  · exact .inr (.inr (.inr (.inl hw)))
  · exact .inr (.inr (.inr (.inr ⟨rfl, rfl⟩)))

theorem isStart_command_iff {p : Port} {i : Instr} :
    Safety.isStart p (.command i.port (encode i)) ↔ i = startCommand p := by
  constructor
  · rintro ⟨w, hw, hd⟩
    obtain ⟨rfl, rfl⟩ := HostEvent.command.inj hw
    exact Decoded.command.inj ((decode_encode i).symm.trans hd)
  · rintro rfl
    cases p <;> exact ⟨_, rfl, decode_encode _⟩

/-! ### What a command does to the run states (R21, R35) -/

/-- A command that changes `DSTATE` is `D_START`, or in a run `D_END` or a `D_BIT` that ends it in ERROR. -/
theorem exec_next_dstate {i : Instr} {s t : State} (h : exec i s = .next t) :
    t.dec.dstate = s.dec.dstate ∨ i = .dStart ∨
      (s.dec.dstate = .run ∧ (i = .dEnd ∨ ∃ v, i = .dBit v ∧ t.dec.dstate = .error)) := by
  cases i with
  | dStart => exact .inr (.inl rfl)
  | dBit v =>
    rcases exec_dBit_next h with
      ⟨-, rfl⟩ | ⟨hr, -, rfl⟩ | ⟨hr, b, -, n, -, ⟨-, rfl⟩ | ⟨-, m, -, -, ⟨-, rfl⟩ | ⟨-, -, rfl⟩⟩⟩
    · exact .inl rfl
    · exact .inr (.inr ⟨hr, .inr ⟨v, rfl, rfl⟩⟩)
    · exact .inr (.inr ⟨hr, .inr ⟨v, rfl, rfl⟩⟩)
    · exact .inl rfl
    · exact .inl rfl
  | dEnd =>
    rcases exec_dEnd_next h with ⟨-, rfl⟩ | ⟨hr, -, -⟩ | ⟨hr, -, -⟩
    · exact .inl rfl
    · exact .inr (.inr ⟨hr, .inl rfl⟩)
    · exact .inr (.inr ⟨hr, .inl rfl⟩)
  | eStart | eSym _ | eEnd => exact .inl (by rw [exec_enc_next_dec rfl h])

@[simp] theorem appendBits_estate (e : Enc) (bs : List Bool) : (appendBits e bs).estate = e.estate := by
  obtain ⟨ys, h⟩ := appendBits_frame e bs
  rw [h]

/-- A command that changes `ESTATE` is `E_START`, or in a run `E_END` or an `E_SYM` that ends it in ERROR. -/
theorem exec_next_estate {i : Instr} {s t : State} (h : exec i s = .next t) :
    t.enc.estate = s.enc.estate ∨ i = .eStart ∨
      (s.enc.estate = .run ∧ (i = .eEnd ∨ ∃ b, i = .eSym b ∧ t.enc.estate = .error)) := by
  cases i with
  | eStart => exact .inr (.inl rfl)
  | eSym b =>
    rcases exec_eSym_next h with ⟨-, rfl⟩ | ⟨hr, e, -, ⟨-, rfl⟩ | ⟨-, -, -, rfl⟩⟩
    · exact .inl rfl
    · exact .inr (.inr ⟨hr, .inr ⟨b, rfl, rfl⟩⟩)
    · exact .inl (appendBits_estate s.enc (codeOf e))
  | eEnd =>
    rcases exec_eEnd_next h with ⟨-, rfl⟩ | ⟨hr, -⟩
    · exact .inl rfl
    · exact .inr (.inr ⟨hr, .inl rfl⟩)
  | dStart | dBit _ | dEnd => exact .inl (by rw [exec_dec_next_enc rfl h])

/-- `D_END` in a run ends it. -/
theorem exec_dEnd_endsRun {s t : State} (hr : s.dec.dstate = .run) (h : exec .dEnd s = .next t) :
    t.dec.dstate = .done ∨ t.dec.dstate = .error := by
  rcases exec_dEnd_next h with ⟨hr', -⟩ | ⟨-, -, rfl⟩ | ⟨-, -, rfl⟩
  · exact absurd hr hr'
  · exact .inl rfl
  · exact .inr rfl

/-- `E_END` in a run ends it well. -/
theorem exec_eEnd_endsRun {s t : State} (hr : s.enc.estate = .run) (h : exec .eEnd s = .next t) :
    t.enc.estate = .done := by
  rcases exec_eEnd_next h with ⟨hr', -⟩ | ⟨-, rfl⟩
  · exact absurd hr hr'
  · rfl

/-- A step that changes `DSTATE` takes reset or one of the commands of `exec_next_dstate`. -/
theorem step_next_dstate {s t : State} {ev : HostEvent} {rest : List HostEvent} (hin : s.inbox = ev :: rest)
    (h : step s = .next t) :
    t.dec.dstate = s.dec.dstate ∨ ev = .reset ∨ ev = .command .dec (encode .dStart) ∨
      (s.dec.dstate = .run ∧ (ev = .command .dec (encode .dEnd) ∨
        ∃ v, ev = .command .dec (encode (.dBit v)) ∧ t.dec.dstate = .error)) := by
  rcases step_next hin h with ⟨i, rfl, hx⟩ | ⟨p, w, -, -, rfl⟩ | ⟨i, w, -, -, rfl⟩ | ⟨b, e, -, -, rfl⟩ | ⟨rfl, -⟩
  · rcases exec_next_dstate hx with hsame | rfl | ⟨hr, rfl | ⟨v, rfl, herr⟩⟩
    · exact .inl hsame
    · exact .inr (.inr (.inl rfl))
    · exact .inr (.inr (.inr ⟨hr, .inl rfl⟩))
    · exact .inr (.inr (.inr ⟨hr, .inr ⟨v, rfl, herr⟩⟩))
  · exact .inl rfl
  · exact .inl rfl
  · exact .inl rfl
  · exact .inr (.inl rfl)

/-- A step that changes `ESTATE` takes reset or one of the commands of `exec_next_estate`. -/
theorem step_next_estate {s t : State} {ev : HostEvent} {rest : List HostEvent} (hin : s.inbox = ev :: rest)
    (h : step s = .next t) :
    t.enc.estate = s.enc.estate ∨ ev = .reset ∨ ev = .command .enc (encode .eStart) ∨
      (s.enc.estate = .run ∧ (ev = .command .enc (encode .eEnd) ∨
        ∃ b, ev = .command .enc (encode (.eSym b)) ∧ t.enc.estate = .error)) := by
  rcases step_next hin h with ⟨i, rfl, hx⟩ | ⟨p, w, -, -, rfl⟩ | ⟨i, w, -, -, rfl⟩ | ⟨b, e, -, -, rfl⟩ | ⟨rfl, -⟩
  · rcases exec_next_estate hx with hsame | rfl | ⟨hr, rfl | ⟨b, rfl, herr⟩⟩
    · exact .inl hsame
    · exact .inr (.inr (.inl rfl))
    · exact .inr (.inr (.inr ⟨hr, .inl rfl⟩))
    · exact .inr (.inr (.inr ⟨hr, .inr ⟨b, rfl, herr⟩⟩))
  · exact .inl rfl
  · exact .inl rfl
  · exact .inl rfl
  · exact .inr (.inl rfl)

/-! ### What a command does to the output streams (R24, R38) -/

theorem exec_next_dout {i : Instr} {s t : State} (h : exec i s = .next t) :
    s.dec.dout <+: t.dec.dout ∨ (i = .dStart ∧ t.dec.dout = []) := by
  cases i with
  | dStart => cases h; exact .inr ⟨rfl, rfl⟩
  | dBit v =>
    rcases exec_dBit_next h with
      ⟨-, rfl⟩ | ⟨-, -, rfl⟩ | ⟨-, b, -, n, -, ⟨-, rfl⟩ | ⟨-, m, -, -, ⟨-, rfl⟩ | ⟨-, -, rfl⟩⟩⟩
    · exact .inl List.prefix_rfl
    · exact .inl List.prefix_rfl
    · exact .inl List.prefix_rfl
    · exact .inl List.prefix_rfl
    · exact .inl (List.prefix_append _ _)
  | dEnd => rcases exec_dEnd_next h with ⟨-, rfl⟩ | ⟨-, -, rfl⟩ | ⟨-, -, rfl⟩ <;> exact .inl List.prefix_rfl
  | eStart | eSym _ | eEnd => exact .inl (by rw [exec_enc_next_dec rfl h])

theorem eout_prefix_appendBits (e : Enc) (bs : List Bool) : e.eout <+: (appendBits e bs).eout := by
  obtain ⟨ys, h⟩ := appendBits_frame e bs
  rw [h]
  exact List.prefix_append _ _

theorem eout_prefix_flushBits (e : Enc) : e.eout <+: (flushBits e).eout := by
  rw [flushBits_eq]
  dsimp only
  split
  · exact List.prefix_rfl
  · exact List.prefix_append _ _

theorem exec_next_eout {i : Instr} {s t : State} (h : exec i s = .next t) :
    s.enc.eout <+: t.enc.eout ∨ (i = .eStart ∧ t.enc.eout = []) := by
  cases i with
  | eStart => cases h; exact .inr ⟨rfl, rfl⟩
  | eSym b =>
    rcases exec_eSym_next h with ⟨-, rfl⟩ | ⟨-, e, -, ⟨-, rfl⟩ | ⟨-, -, -, rfl⟩⟩
    · exact .inl List.prefix_rfl
    · exact .inl List.prefix_rfl
    · exact .inl (eout_prefix_appendBits s.enc (codeOf e))
  | eEnd =>
    rcases exec_eEnd_next h with ⟨-, rfl⟩ | ⟨-, rfl⟩
    · exact .inl List.prefix_rfl
    · exact .inl (eout_prefix_flushBits s.enc)
  | dStart | dBit _ | dEnd => exact .inl (by rw [exec_dec_next_enc rfl h])

/-! ### What stops a step (R48, R82, R285) -/

/-- A counter one more would take past its range is at its limit (R48). -/
theorem toNat_eq_max_of_le_succ {c : Count} (h : 2 ^ 64 ≤ c.toNat + 1) : c.toNat = 2 ^ 64 - 1 := by
  have := c.isLt
  omega

theorem exec_dBit_fault {v : Byte} {s : State} {f : Fault} (h : exec (.dBit v) s = .fault f) :
    s.dec.dstate = .run ∧ ∃ b i, bitOfSymbol v = some b ∧ f = .unwrittenTmem i ∧ readTmem i s = none ∧
      (i = s.dec.dcur ∨ ∃ n, readTmem s.dec.dcur s = some n ∧ kindOf n = .internal ∧ i = childOf n b) := by
  rw [exec_dBit] at h
  rcases execDBit_cases v s with
    ⟨-, e⟩ | ⟨-, -, e⟩ | ⟨hr, b, hb, ⟨hn, e⟩ | ⟨n, hn, ⟨-, e⟩ | ⟨hk, ⟨hm, e⟩ | ⟨m, -, e⟩⟩⟩⟩ <;> rw [e] at h
  · cases h
  · cases h
  · cases h; exact ⟨hr, b, _, hb, rfl, hn, .inl rfl⟩
  · cases h
  · cases h; exact ⟨hr, b, _, hb, rfl, hm, .inr ⟨n, hn, hk, rfl⟩⟩
  · rcases walkTo_cases (childOf n b) m s with ⟨e, -⟩ | ⟨-, -, e⟩ | ⟨-, -, -, e⟩ <;> rw [e] at h <;> cases h

theorem exec_dBit_refused {v : Byte} {s : State} {r : Refusal} (h : exec (.dBit v) s = .refused r) :
    s.dec.dstate = .run ∧ r = .counterOverflow ∧ ∃ b n m, bitOfSymbol v = some b ∧
      readTmem s.dec.dcur s = some n ∧ kindOf n = .internal ∧ readTmem (childOf n b) s = some m ∧
      (s.dec.dpos.toNat = 2 ^ 64 - 1 ∨ kindOf m = .leaf ∧ s.dec.dsyms.toNat = 2 ^ 64 - 1) := by
  rw [exec_dBit] at h
  rcases execDBit_cases v s with
    ⟨-, e⟩ | ⟨-, -, e⟩ | ⟨hr, b, hb, ⟨-, e⟩ | ⟨n, hn, ⟨-, e⟩ | ⟨hk, ⟨-, e⟩ | ⟨m, hm, e⟩⟩⟩⟩ <;> rw [e] at h
  · cases h
  · cases h
  · cases h
  · cases h
  · cases h
  · rcases walkTo_cases (childOf n b) m s with ⟨e, hlimit⟩ | ⟨-, -, e⟩ | ⟨-, -, -, e⟩ <;> rw [e] at h <;> cases h
    exact ⟨hr, rfl, b, n, m, hb, hn, hk, hm,
      hlimit.imp toNat_eq_max_of_le_succ (And.imp_right toNat_eq_max_of_le_succ)⟩

theorem exec_eSym_fault {b : Byte} {s : State} {f : Fault} (h : exec (.eSym b) s = .fault f) :
    s.enc.estate = .run ∧ f = .unwrittenCtab b ∧ readCtab b s = none := by
  rw [exec_eSym] at h
  rcases execESym_cases b s with
    ⟨-, e⟩ | ⟨hr, hn, e⟩ | ⟨-, c, -, ⟨-, e⟩ | ⟨-, -, e⟩ | ⟨-, -, -, e⟩⟩ <;> rw [e] at h <;> cases h
  exact ⟨hr, rfl, hn⟩

theorem exec_eSym_refused {b : Byte} {s : State} {r : Refusal} (h : exec (.eSym b) s = .refused r) :
    s.enc.estate = .run ∧ r = .counterOverflow ∧ ∃ e, readCtab b s = some e ∧ clenOf e ≠ 0 ∧
      (2 ^ 64 ≤ s.enc.ebits.toNat + clenOf e ∨ s.enc.epos.toNat = 2 ^ 64 - 1) := by
  rw [exec_eSym] at h
  rcases execESym_cases b s with
    ⟨-, e⟩ | ⟨-, -, e⟩ | ⟨hr, c, hc, ⟨-, e⟩ | ⟨h0, hlimit, e⟩ | ⟨-, -, -, e⟩⟩ <;> rw [e] at h <;> cases h
  exact ⟨hr, rfl, c, hc, h0, hlimit.imp_right toNat_eq_max_of_le_succ⟩

/-- START and END commands always have a next state: only a data token can stop. -/
theorem exec_next_or_token (i : Instr) (s : State) :
    (∃ t, exec i s = .next t) ∨ (∃ v, i = .dBit v) ∨ ∃ b, i = .eSym b := by
  cases i with
  | dStart | eStart => exact .inl ⟨_, rfl⟩
  | dBit v => exact .inr (.inl ⟨v, rfl⟩)
  | eSym b => exact .inr (.inr ⟨b, rfl⟩)
  | dEnd =>
    rw [exec_dEnd]
    rcases execDEnd_cases s with ⟨-, e⟩ | ⟨-, -, e⟩ | ⟨-, -, e⟩ <;> exact .inl ⟨_, e⟩
  | eEnd =>
    rw [exec_eEnd]
    rcases execEEnd_cases s with ⟨-, e⟩ | ⟨-, e⟩ <;> exact .inl ⟨_, e⟩

theorem hostTWrite_cases (i : NodeIdx) (w : TreeWord) (s : State) :
    (s.dec.dstate = .run ∧ hostTWrite i w s = .refused .tmemWriteDuringRun) ∨
    ∃ t, hostTWrite i w s = .next t := by
  unfold hostTWrite
  split
  · next hr => exact .inl ⟨decRunning_iff.1 hr, rfl⟩
  · exact .inr ⟨_, rfl⟩

theorem hostCWrite_cases (b : Byte) (e : CodeEntry) (s : State) :
    (s.enc.estate = .run ∧ hostCWrite b e s = .refused .ctabWriteDuringRun) ∨
    ∃ t, hostCWrite b e s = .next t := by
  unfold hostCWrite
  split
  · next hr => exact .inl ⟨encRunning_iff.1 hr, rfl⟩
  · exact .inr ⟨_, rfl⟩

/-- An event either has a next state, is a data token, or is a host write that the owner's run refuses. -/
theorem takeEvent_next_or_stop (ev : HostEvent) (s : State) :
    (∃ t, takeEvent ev s = .next t) ∨
    (∃ v, ev = .command .dec (encode (.dBit v)) ∧ takeEvent ev s = exec (.dBit v) s) ∨
    (∃ b, ev = .command .enc (encode (.eSym b)) ∧ takeEvent ev s = exec (.eSym b) s) ∨
    (∃ i w, ev = .tWrite i w ∧ s.dec.dstate = .run ∧ takeEvent ev s = .refused .tmemWriteDuringRun) ∨
    (∃ b e, ev = .cWrite b e ∧ s.enc.estate = .run ∧ takeEvent ev s = .refused .ctabWriteDuringRun) := by
  rcases takeEvent_cases ev s with
    ⟨p, w, i, rfl, hd, e⟩ | ⟨p, w, rfl, -, e⟩ | ⟨i, w, rfl, e⟩ | ⟨b, c, rfl, e⟩ | ⟨rfl, e⟩ <;> rw [e]
  · obtain ⟨rfl, rfl⟩ := decode_eq_command_iff.1 hd
    rcases exec_next_or_token i s with hnext | ⟨v, rfl⟩ | ⟨b, rfl⟩
    · exact .inl hnext
    · exact .inr (.inl ⟨v, rfl, rfl⟩)
    · exact .inr (.inr (.inl ⟨b, rfl, rfl⟩))
  · exact .inl ⟨_, rfl⟩
  · rcases hostTWrite_cases i w s with ⟨hr, hx⟩ | hnext
    · exact .inr (.inr (.inr (.inl ⟨i, w, rfl, hr, hx⟩)))
    · exact .inl hnext
  · rcases hostCWrite_cases b c s with ⟨hr, hx⟩ | hnext
    · exact .inr (.inr (.inr (.inr ⟨b, c, rfl, hr, hx⟩)))
    · exact .inl hnext
  · exact .inl ⟨_, rfl⟩

end Sys2Proof.Machine

/-! ### The obligations without the invariant -/

namespace Sys2Proof.Proofs

open Sys2Proof.Machine Sys2Proof.Safety

/-- Settles O1: every field of the reset state is written out, and an empty table answers no read. -/
theorem resetValues : Obligations.ResetValues :=
  ⟨rfl, rfl, rfl, rfl, rfl, rfl, rfl, fun _ => rfl, rfl, rfl, rfl, rfl, rfl, rfl, rfl, fun _ => rfl⟩

/-- Settles O31: the forward clauses by running the event's command, the converse ones by what can change a run state. -/
theorem runStateTransitions : Obligations.RunStateTransitions := by
  refine ⟨⟨rfl, rfl, rfl, rfl⟩, fun s t ev rest hin h => ⟨?_, ?_, ?_, ?_, ?_, ?_, ?_⟩⟩
  · rintro rfl
    rw [step_cons hin] at h
    cases h
    exact ⟨rfl, rfl⟩
  · rintro rfl
    rw [step_command (i := .dStart) hin] at h
    cases h
    rfl
  · rintro rfl hr
    rw [step_command (i := .dEnd) hin] at h
    exact exec_dEnd_endsRun (s := s.setInbox rest) hr h
  · exact (step_next_dstate hin h).resolve_left
  · rintro rfl
    rw [step_command (i := .eStart) hin] at h
    cases h
    rfl
  · rintro rfl hr
    rw [step_command (i := .eEnd) hin] at h
    exact exec_eEnd_endsRun (s := s.setInbox rest) hr h
  · exact (step_next_estate hin h).resolve_left

/-- Settles O34: commands by `exec_next_dout` and `exec_next_eout`; a table write leaves both streams. -/
theorem streamsOnlyGrow : Obligations.StreamsOnlyGrow := by
  intro s t ev rest hin h
  rcases step_next hin h with ⟨i, rfl, hx⟩ | ⟨p, w, -, -, rfl⟩ | ⟨i, w, -, -, rfl⟩ | ⟨b, e, -, -, rfl⟩ | ⟨rfl, rfl⟩
  · exact ⟨(exec_next_dout hx).imp_right fun ⟨hi, hnil⟩ => ⟨.inl (isStart_command_iff.2 hi), hnil⟩,
      (exec_next_eout hx).imp_right fun ⟨hi, hnil⟩ => ⟨.inl (isStart_command_iff.2 hi), hnil⟩⟩
  · exact ⟨.inl List.prefix_rfl, .inl List.prefix_rfl⟩
  · exact ⟨.inl List.prefix_rfl, .inl List.prefix_rfl⟩
  · exact ⟨.inl List.prefix_rfl, .inl List.prefix_rfl⟩
  · exact ⟨.inr ⟨.inr rfl, rfl⟩, .inr ⟨.inr rfl, rfl⟩⟩

/-- Settles O26: only the data tokens and the host writes can stop, and each says why it did. -/
theorem onlyNamedStops : Obligations.OnlyNamedStops := by
  intro s ev rest hin
  rw [step_cons hin]
  rcases takeEvent_next_or_stop ev (s.setInbox rest) with
    ⟨t, e⟩ | ⟨v, rfl, e⟩ | ⟨b, rfl, e⟩ | ⟨i, w, rfl, hr, e⟩ | ⟨b, c, rfl, hr, e⟩ <;> rw [e]
  · exact ⟨nofun, nofun⟩
  · refine ⟨fun f hf => .inl ?_, fun r hr => .inl ?_⟩
    · obtain ⟨hrun, b, i, hb, hfi, hi, hcause⟩ := exec_dBit_fault hf
      exact ⟨v, b, i, rfl, hrun, hb, hfi, hi, hcause⟩
    · obtain ⟨hrun, hover, b, n, m, hb, hn, hk, hm, hlimit⟩ := exec_dBit_refused hr
      exact ⟨v, b, n, m, rfl, hrun, hb, hover, hn, hk, hm, hlimit⟩
  · refine ⟨fun f hf => .inr ?_, fun r hr => .inr (.inl ?_)⟩
    · obtain ⟨hrun, hfb, hn⟩ := exec_eSym_fault hf
      exact ⟨b, rfl, hrun, hfb, hn⟩
    · obtain ⟨hrun, hover, e, he, h0, hlimit⟩ := exec_eSym_refused hr
      exact ⟨b, e, rfl, hrun, hover, he, h0, hlimit⟩
  · exact ⟨nofun, fun r hx => .inr (.inr (.inl ⟨i, w, rfl, hr, (Host.Outcome.refused.inj hx).symm⟩))⟩
  · exact ⟨nofun, fun r hx => .inr (.inr (.inr ⟨b, c, rfl, hr, (Host.Outcome.refused.inj hx).symm⟩))⟩

/-- Settles O37, register by register: a narrower register is zero-extended. -/
theorem statusReadsReturnRegisters : Obligations.StatusReadsReturnRegisters := by
  refine fun s k => ⟨?_, ?_, BitVec.toNat_setWidth_of_le (by omega), rfl, rfl, BitVec.toNat_setWidth_of_le (by omega),
    ?_, ?_, BitVec.toNat_setWidth_of_le (by omega), rfl, rfl, BitVec.toNat_setWidth_of_le (by omega)⟩
  · change (runStateCode s.dec.dstate).setWidth 64 = _
    cases s.dec.dstate <;> rfl
  · change (errCode s.dec.derr).setWidth 64 = _
    cases s.dec.derr <;> rfl
  · change (runStateCode s.enc.estate).setWidth 64 = _
    cases s.enc.estate <;> rfl
  · change (errCode s.enc.eerr).setWidth 64 = _
    cases s.enc.eerr <;> rfl

end Sys2Proof.Proofs
end

section
/-! SUPPORT. ENC's output as a packed sequence (R38, R39, R42), and the machine invariant. -/

namespace Sys2Proof.Machine

/-! ### When a byte sequence is the packed form of its bits (R16) -/

theorem packedBit_byte (Y : List Byte) (j : Nat) {k : Nat} (hk : k < 8) :
    packedBit Y (8 * j + k) = (Y.getD j 0x00#8).getLsbD (7 - k) := by
  rw [packedBit, show (8 * j + k) / 8 = j by omega, show (8 * j + k) % 8 = k by omega]

/-- Bytes of the right number whose bits past the end are 0 are the packed form of their bits. -/
theorem pack_bitsOf {Y : List Byte} {n : Nat} (hlen : Y.length = (n + 7) / 8)
    (hpad : ∀ i, n ≤ i → packedBit Y i = false) : pack (bitsOf Y n) = (Y, n) := by
  have hbit (i : Nat) : (bitsOf Y n).getD i false = packedBit Y i := by
    by_cases hi : i < n
    · exact bitsOf_getD Y hi
    · rw [List.getD_eq_default _ _ (by simp; omega), hpad i (by omega)]
  refine Prod.ext (List.ext_getElem (by simp [hlen]) fun j hj hj' => BitVec.eq_of_getLsbD_eq fun i hi => ?_) (by simp)
  rw [pack_fst_length] at hj
  have hbyte := getLsbD_packByte (bitsOf Y n) j (k := 7 - i) (by omega)
  rw [hbit, packedBit_byte Y j (by omega), show 7 - (7 - i) = i by omega] at hbyte
  rw [← List.getD_eq_getElem _ 0x00#8, pack_fst_getD _ hj, hbyte, List.getD_eq_getElem _ _ hj']

/-- A zero byte at the end adds no bit that is not read as 0 without it. -/
theorem packedBit_append_zero (Y : List Byte) (i : Nat) : packedBit (Y ++ [0x00#8]) i = packedBit Y i := by
  unfold packedBit
  rcases lt_trichotomy (i / 8) Y.length with h | h | h
  · rw [List.getD_append _ _ _ _ h]
  · simp [h]
  · rw [List.getD_eq_default _ _ (by simp; omega), List.getD_eq_default _ _ h.le]

theorem bitsOf_append_zero (Y : List Byte) (n : Nat) : bitsOf (Y ++ [0x00#8]) n = bitsOf Y n :=
  List.map_congr_left fun i _ => packedBit_append_zero Y i

end Sys2Proof.Machine

namespace Sys2Proof.Safety

open Sys2Proof.Machine

/-! ### The output of an open run (R38, R39) -/

/-- What `EOUT`, `EACC` and `EBITS` satisfy until `E_END`: the complete bytes, then the pending bits above zeros. -/
structure OpenOutput (e : Enc) : Prop where
  /-- `EOUT` holds the complete bytes only (R38). -/
  bytes : e.eout.length = e.ebits.toNat / 8
  /-- "the 8 - (EBITS mod 8) low bits are 0" (R39). -/
  low : ∀ k, k < 8 - e.ebits.toNat % 8 → e.eacc.getLsbD k = false

theorem EncInv.openOutput {e : Enc} (h : EncInv e) (hd : e.estate ≠ .done) : OpenOutput e :=
  ⟨h.outOpen hd, h.accLow hd⟩

/-- On a byte boundary nothing is pending. -/
theorem OpenOutput.eacc_eq_zero {e : Enc} (h : OpenOutput e) (h0 : e.ebits.toNat % 8 = 0) : e.eacc = 0x00#8 :=
  BitVec.eq_of_getLsbD_eq fun i hi => by simp [h.low i (by omega)]

/-- Past `EBITS`, the bytes with the pending one read as 0. -/
theorem OpenOutput.packedBit_past {e : Enc} (h : OpenOutput e) {i : Nat} (hi : e.ebits.toNat ≤ i) :
    packedBit (e.eout ++ [e.eacc]) i = false := by
  have hlen := h.bytes
  by_cases hlast : i / 8 = e.eout.length
  · simp [packedBit, hlast, h.low (7 - i % 8) (by omega)]
  · rw [packedBit, List.getD_eq_default _ _ (by simp; omega), BitVec.getLsbD_zero]

/-- The encoded bits are read the same from the flushed bytes. -/
theorem OpenOutput.encodedBits_eq {e : Enc} (h : OpenOutput e) :
    encodedBits e = bitsOf (flushBits e).eout e.ebits.toNat := by
  rw [encodedBits, flushBits_eq]
  by_cases h0 : e.ebits.toNat % 8 = 0
  · simp [h0, h.eacc_eq_zero h0, bitsOf_append_zero]
  · simp [h0]

/-- The flushed bytes are the packed form of the encoded bits (R42). -/
theorem OpenOutput.pack_encodedBits {e : Enc} (h : OpenOutput e) :
    pack (encodedBits e) = ((flushBits e).eout, e.ebits.toNat) := by
  have hlen := h.bytes
  rw [h.encodedBits_eq]
  refine pack_bitsOf ?_ fun i hi => ?_
  · rw [flushBits_eq]
    by_cases h0 : e.ebits.toNat % 8 = 0 <;> simp [h0, hlen] <;> omega
  · have hpast := h.packedBit_past hi
    rw [flushBits_eq]
    by_cases h0 : e.ebits.toNat % 8 = 0
    · rw [h.eacc_eq_zero h0, packedBit_append_zero] at hpast
      simpa [h0] using hpast
    · simpa [h0] using hpast

/-- After the flush nothing is pending. -/
theorem OpenOutput.flushBits_eacc {e : Enc} (h : OpenOutput e) : (flushBits e).eacc = 0x00#8 := by
  rw [flushBits_eq]
  dsimp only
  split
  · next h0 => exact h.eacc_eq_zero h0
  · rfl

/-- `append_bit` keeps the output in form: it fills the highest free bit of `EACC`, and moves a full byte to `EOUT`. -/
theorem OpenOutput.appendBit {e : Enc} (h : OpenOutput e) (v : Bool) (hfit : e.ebits.toNat + 1 < 2 ^ 64) :
    OpenOutput (appendBit e v) := by
  have hbits : (e.ebits + 1#64).toNat = e.ebits.toNat + 1 := toNat_add_of_lt hfit
  have hlen := h.bytes
  rw [appendBit_eq]
  split
  · next h7 => exact ⟨by simp only [List.length_append, List.length_singleton, hbits]; omega, fun k _ => by simp⟩
  · next h7 =>
    refine ⟨by simp only [hbits]; omega, fun k hk => ?_⟩
    simp only [hbits] at hk
    simp [h.low k (by omega), show k < 7 - e.ebits.toNat % 8 by omega]

theorem OpenOutput.appendBits {e : Enc} (h : OpenOutput e) {bs : List Bool}
    (hfit : e.ebits.toNat + bs.length < 2 ^ 64) : OpenOutput (appendBits e bs) := by
  induction bs generalizing e with
  | nil => exact h
  | cons b bs ih =>
    rw [List.length_cons] at hfit
    refine ih (h.appendBit b (by omega)) ?_
    obtain ⟨ys, hframe⟩ := appendBit_frame e b
    rw [hframe, show (e.ebits + 1#64).toNat = _ from toNat_add_of_lt (k := 1) (by omega)]
    omega

/-! ### The invariant of DEC, one operation at a time -/

theorem decInv_reset : DecInv Dec.reset where
  errIff := by decide
  errKind := by decide
  bad := by decide
  syms := rfl
  order := le_rfl
  pointer := nofun
  idle := fun _ => ⟨rfl, rfl, rfl⟩
  done := nofun
  truncated := nofun
  treeFault := nofun
  tmem := Memory.wf_nil _

theorem DecInv.derr_of_run {d : Dec} (h : DecInv d) (hr : d.dstate = .run) : d.derr = .none := by
  by_contra hne
  cases hr.symm.trans (h.errIff.1 hne)

theorem DecInv.dbad_of_run {d : Dec} (h : DecInv d) (hr : d.dstate = .run) : d.dbad = 0x00#8 := by
  simpa [h.derr_of_run hr] using h.bad

/-- `D_START` establishes the invariant from any state with a canonical TMEM. -/
theorem decInv_start {s : State} (h : Memory.wf Config.tmemDepth s.dec.tmem) : DecInv (startDec s).dec where
  errIff := by simp [startDec]
  errKind := nofun
  bad := by simp [startDec]
  syms := rfl
  order := le_rfl
  pointer := fun _ => .inl rfl
  idle := nofun
  done := nofun
  truncated := nofun
  treeFault := nofun
  tmem := h

theorem DecInv.malformedBit {d : Dec} {v : Byte} (h : DecInv d) (hv : bitOfSymbol v = none) :
    DecInv { d with dstate := .error, derr := .malformedBit, dbad := v } where
  errIff := by simp
  errKind := nofun
  bad := by simpa using hv
  syms := h.syms
  order := h.order
  pointer := nofun
  idle := nofun
  done := nofun
  truncated := nofun
  treeFault := nofun
  tmem := h.tmem

/-- A leaf word at the pointer of a run is at the root, by the pointer invariant (R28, R197). -/
theorem DecInv.dcur_of_leaf {d : Dec} {n : TreeWord} (h : DecInv d) (hr : d.dstate = .run)
    (hn : Memory.read d.tmem d.dcur.toNat = some n) (hk : kindOf n = .leaf) : d.dcur = 0#9 := by
  rcases h.pointer hr with h0 | ⟨w, hw, hkw⟩
  · exact h0
  · obtain rfl : n = w := Option.some.inj (hn.symm.trans hw)
    cases hk.symm.trans hkw

theorem DecInv.treeFaultEntry {d : Dec} (h : DecInv d) (hr : d.dstate = .run) (h0 : d.dcur = 0#9) :
    DecInv { d with dstate := .error, derr := .treeFault } where
  errIff := by simp
  errKind := nofun
  bad := by simpa using h.dbad_of_run hr
  syms := h.syms
  order := h.order
  pointer := nofun
  idle := nofun
  done := nofun
  truncated := nofun
  treeFault := fun _ => h0
  tmem := h.tmem

theorem DecInv.truncatedEntry {d : Dec} (h : DecInv d) (hr : d.dstate = .run) (h0 : d.dcur ≠ 0#9) :
    DecInv { d with dstate := .error, derr := .truncatedStream } where
  errIff := by simp
  errKind := nofun
  bad := by simpa using h.dbad_of_run hr
  syms := h.syms
  order := h.order
  pointer := nofun
  idle := nofun
  done := nofun
  truncated := fun _ => h0
  treeFault := nofun
  tmem := h.tmem

theorem DecInv.endWell {d : Dec} (h : DecInv d) (hr : d.dstate = .run) (h0 : d.dcur = 0#9) :
    DecInv { d with dstate := .done } where
  errIff := by simp [h.derr_of_run hr]
  errKind := h.errKind
  bad := h.bad
  syms := h.syms
  order := h.order
  pointer := nofun
  idle := nofun
  done := fun _ => h0
  truncated := h.truncated
  treeFault := h.treeFault
  tmem := h.tmem

/-- The walk to an internal child: the pointer stands on an internal word again. -/
theorem DecInv.descend {d : Dec} {c : NodeIdx} {m : TreeWord} (h : DecInv d) (hr : d.dstate = .run)
    (hm : Memory.read d.tmem c.toNat = some m) (hk : kindOf m = .internal) (hpos : d.dpos.toNat + 1 < 2 ^ 64) :
    DecInv { d with dpos := d.dpos + 1#64, dcur := c } where
  errIff := h.errIff
  errKind := h.errKind
  bad := h.bad
  syms := h.syms
  order := by
    rw [toNat_add_of_lt hpos]
    exact Nat.le_succ_of_le h.order
  pointer := fun _ => .inr ⟨m, hm, hk⟩
  idle := fun hi => by cases hr.symm.trans hi
  done := fun hi => by cases hr.symm.trans hi
  truncated := fun he => by cases (h.derr_of_run hr).symm.trans he
  treeFault := fun he => by cases (h.derr_of_run hr).symm.trans he
  tmem := h.tmem

/-- The walk to a leaf: one symbol more is counted and emitted, and the pointer is back at the root. -/
theorem DecInv.emit {d : Dec} (b : Byte) (h : DecInv d) (hr : d.dstate = .run)
    (hpos : d.dpos.toNat + 1 < 2 ^ 64) (hsyms : d.dsyms.toNat + 1 < 2 ^ 64) :
    DecInv { d with dpos := d.dpos + 1#64, dsyms := d.dsyms + 1#64, dcur := 0#9, dout := d.dout ++ [b] } where
  errIff := h.errIff
  errKind := h.errKind
  bad := h.bad
  syms := by
    rw [toNat_add_of_lt hsyms, h.syms, List.length_append, List.length_singleton]
  order := by
    rw [toNat_add_of_lt hsyms, toNat_add_of_lt hpos]
    exact Nat.succ_le_succ h.order
  pointer := fun _ => .inl rfl
  idle := fun hi => by cases hr.symm.trans hi
  done := fun _ => rfl
  truncated := fun he => by cases (h.derr_of_run hr).symm.trans he
  treeFault := fun _ => rfl
  tmem := h.tmem

/-- A host write to TMEM outside a run: no clause but the canonical form speaks of TMEM there. -/
theorem DecInv.tWrite {d : Dec} (h : DecInv d) (hr : d.dstate ≠ .run) (i : NodeIdx) (w : TreeWord) :
    DecInv { d with tmem := Memory.write d.tmem i.toNat w } :=
  { h with
    pointer := fun hrun => absurd hrun hr
    tmem := Memory.write_wf h.tmem i.isLt }

/-! ### The invariant of ENC, one operation at a time -/

theorem encInv_reset : EncInv Enc.reset where
  errIff := by decide
  errKind := .inl rfl
  bad := fun _ => rfl
  outOpen := fun _ => rfl
  accLow := fun _ k _ => BitVec.getLsbD_zero
  outDone := nofun
  idle := fun _ => ⟨rfl, rfl, rfl, rfl⟩
  ctab := Memory.wf_nil _

theorem EncInv.eerr_of_run {e : Enc} (h : EncInv e) (hr : e.estate = .run) : e.eerr = .none := by
  by_contra hne
  cases hr.symm.trans (h.errIff.1 hne)

theorem EncInv.openOutput_of_run {e : Enc} (h : EncInv e) (hr : e.estate = .run) : OpenOutput e :=
  h.openOutput (by simp [hr])

/-- `E_START` establishes the invariant from any state with a canonical CTAB. -/
theorem encInv_start {s : State} (h : Memory.wf Config.alphabet s.enc.ctab) : EncInv (startEnc s).enc where
  errIff := by simp [startEnc]
  errKind := .inl rfl
  bad := fun _ => rfl
  outOpen := by simp [startEnc]
  accLow := fun _ k _ => BitVec.getLsbD_zero
  outDone := nofun
  idle := nofun
  ctab := h

theorem EncInv.internalEncoding {e : Enc} (h : EncInv e) (hr : e.estate = .run) (b : Byte) :
    EncInv { e with estate := .error, eerr := .internalEncoding, ebad := b } where
  errIff := by simp
  errKind := .inr rfl
  bad := nofun
  outOpen := fun _ => (h.openOutput_of_run hr).bytes
  accLow := fun _ => (h.openOutput_of_run hr).low
  outDone := nofun
  idle := nofun
  ctab := h.ctab

/-- The bits of a code appended, and `EPOS` moved. -/
theorem EncInv.appendBits {e : Enc} {bs : List Bool} (h : EncInv e) (hr : e.estate = .run)
    (hfit : e.ebits.toNat + bs.length < 2 ^ 64) (pos : Count) :
    EncInv { Machine.appendBits e bs with epos := pos } := by
  obtain ⟨hbytes, hlow⟩ := (h.openOutput_of_run hr).appendBits hfit
  obtain ⟨ys, hframe⟩ := appendBits_frame e bs
  rw [hframe] at hbytes hlow ⊢
  exact {
    errIff := h.errIff
    errKind := h.errKind
    bad := h.bad
    outOpen := fun _ => hbytes
    accLow := fun _ => hlow
    outDone := fun hd => by cases hr.symm.trans hd
    idle := fun hi => by cases hr.symm.trans hi
    ctab := h.ctab }

/-- `E_END`: the flushed output is a packed sequence (R42, R170). -/
theorem EncInv.endWell {e : Enc} (h : EncInv e) (hr : e.estate = .run) :
    EncInv { flushBits e with estate := .done } := by
  have hopen := h.openOutput_of_run hr
  have hpack := hopen.pack_encodedBits
  rw [hopen.encodedBits_eq] at hpack
  have hacc := hopen.flushBits_eacc
  rw [flushBits_eq] at hpack hacc ⊢
  exact {
    errIff := by simp [h.eerr_of_run hr]
    errKind := h.errKind
    bad := h.bad
    outOpen := fun hd => absurd rfl hd
    accLow := fun hd => absurd rfl hd
    outDone := fun _ => ⟨hpack, hacc⟩
    idle := nofun
    ctab := h.ctab }

/-- A host write to CTAB: no clause but the canonical form speaks of CTAB. -/
theorem EncInv.cWrite {e : Enc} (h : EncInv e) (b : Byte) (c : CodeEntry) :
    EncInv { e with ctab := Memory.write e.ctab b.toNat c } :=
  { h with ctab := Memory.write_wf h.ctab b.isLt }

/-! ### Commands and steps keep the invariant -/

theorem exec_keeps_decInv {i : Instr} {s t : State} (hs : DecInv s.dec) (h : exec i s = .next t) : DecInv t.dec := by
  cases i with
  | dStart => cases h; exact decInv_start hs.tmem
  | dBit v =>
    rcases exec_dBit_next h with
      ⟨-, rfl⟩ | ⟨-, hv, rfl⟩ | ⟨hr, b, -, n, hn, ⟨hk, rfl⟩ | ⟨-, m, hm, hpos, ⟨hk, rfl⟩ | ⟨-, hsyms, rfl⟩⟩⟩
    · exact hs
    · exact hs.malformedBit hv
    · exact hs.treeFaultEntry hr (hs.dcur_of_leaf hr hn hk)
    · exact hs.descend hr hm hk hpos
    · exact hs.emit (symOf m) hr hpos hsyms
  | dEnd =>
    rcases exec_dEnd_next h with ⟨-, rfl⟩ | ⟨hr, h0, rfl⟩ | ⟨hr, h0, rfl⟩
    · exact hs
    · exact hs.endWell hr h0
    · exact hs.truncatedEntry hr h0
  | eStart | eSym _ | eEnd => rwa [exec_enc_next_dec rfl h]

theorem exec_keeps_encInv {i : Instr} {s t : State} (hs : EncInv s.enc) (h : exec i s = .next t) : EncInv t.enc := by
  cases i with
  | eStart => cases h; exact encInv_start hs.ctab
  | eSym b =>
    rcases exec_eSym_next h with ⟨-, rfl⟩ | ⟨hr, e, -, ⟨-, rfl⟩ | ⟨-, hfit, -, rfl⟩⟩
    · exact hs
    · exact hs.internalEncoding hr b
    · exact hs.appendBits hr (by rwa [codeOf_length]) _
  | eEnd =>
    rcases exec_eEnd_next h with ⟨-, rfl⟩ | ⟨hr, rfl⟩
    · exact hs
    · exact hs.endWell hr
  | dStart | dBit _ | dEnd => rwa [exec_dec_next_enc rfl h]

theorem inv_reset : Inv State.reset := ⟨decInv_reset, encInv_reset⟩

theorem Inv.setInbox {s : State} (h : Inv s) (evs : List HostEvent) : Inv (s.setInbox evs) := ⟨h.dec, h.enc⟩

theorem step_keeps_inv {s t : State} (hs : Inv s) (h : step s = .next t) : Inv t := by
  cases hin : s.inbox with
  | nil =>
    obtain rfl : s = t := by simpa [step, fetch, hin] using h
    exact hs
  | cons ev rest =>
    rcases step_next hin h with ⟨i, -, hx⟩ | ⟨p, w, -, -, rfl⟩ | ⟨i, w, -, hr, rfl⟩ | ⟨b, c, -, -, rfl⟩ | ⟨-, rfl⟩
    · exact ⟨exec_keeps_decInv (s := s.setInbox rest) hs.dec hx, exec_keeps_encInv (s := s.setInbox rest) hs.enc hx⟩
    · exact hs.setInbox rest
    · exact ⟨hs.dec.tWrite hr i w, hs.enc⟩
    · exact ⟨hs.dec, hs.enc.cWrite b c⟩
    · exact inv_reset.setInbox rest

end Sys2Proof.Safety

/-! ### The obligations on the packed output and the invariant -/

namespace Sys2Proof.Proofs

open Sys2Proof.Machine Sys2Proof.Safety

/-- Settles O32. -/
theorem invAtReset : Obligations.InvAtReset := inv_reset

/-- Settles O33, operation by operation for each engine. -/
theorem stepKeepsInv : Obligations.StepKeepsInv := fun _ _ => step_keeps_inv

/-- Settles O22: in an open run the flushed bytes are the packed form; in DONE, `EOUT` is, and the zero `EACC` adds
no bit. -/
theorem outputIsPackedSequence : Obligations.OutputIsPackedSequence := by
  refine fun e h => ⟨bitsOf_length _ _, fun hd => ?_, fun hd => ?_⟩
  · have hopen := h.openOutput hd
    have hfst : (pack (encodedBits e)).1 = if e.ebits.toNat % 8 = 0 then e.eout else e.eout ++ [e.eacc] := by
      rw [hopen.pack_encodedBits, flushBits_eq]
    refine ⟨hfst, ?_, hopen.eacc_eq_zero⟩
    rw [hfst, ← hopen.bytes]
    split <;> simp
  · obtain ⟨hpack, hacc⟩ := h.outDone hd
    rw [encodedBits, hacc, bitsOf_append_zero]
    exact ⟨hpack, rfl⟩

end Sys2Proof.Proofs
end

section
/-! SUPPORT. Proofs of the statements of 20_memory.md: the host's table writes (R61, R66, R81), the tree a well-formed
image denotes (R63, R64), matching images (R68), and reads of never-written words (R82). -/

namespace Sys2Proof.Machine

/-! ### Host writes outside the owner's run (R81) -/

theorem hostTWrite_of_not_run {s : State} (hr : s.dec.dstate ≠ .run) (i : NodeIdx) (w : TreeWord) :
    hostTWrite i w s = .next (s.setDec { s.dec with tmem := Memory.write s.dec.tmem i.toNat w }) :=
  if_neg (mt decRunning_iff.1 hr)

theorem hostCWrite_of_not_run {s : State} (hr : s.enc.estate ≠ .run) (b : Byte) (e : CodeEntry) :
    hostCWrite b e s = .next (s.setEnc { s.enc with ctab := Memory.write s.enc.ctab b.toNat e }) :=
  if_neg (mt encRunning_iff.1 hr)

/-! ### Paths from a node (R63) -/

section
variable {M : Cells 19} {i : NodeIdx} {w : TreeWord}

@[simp] theorem nodeAt_nil : nodeAt M i [] = some i := rfl

theorem nodeAt_cons_of_internal (hw : Memory.read M i.toNat = some w) (hk : kindOf w = .internal) (b : Bool)
    (p : List Bool) : nodeAt M i (b :: p) = nodeAt M (childOf w b) p := by
  simp [nodeAt, hw, hk]

theorem nodeAt_cons_of_leaf (hw : Memory.read M i.toNat = some w) (hk : kindOf w = .leaf) (b : Bool)
    (p : List Bool) : nodeAt M i (b :: p) = none := by
  simp [nodeAt, hw, hk]

theorem nodeAt_cons_of_unwritten (hw : Memory.read M i.toNat = none) (b : Bool) (p : List Bool) :
    nodeAt M i (b :: p) = none := by
  simp [nodeAt, hw]

/-- A path in two parts: the second goes on from the node the first leads to. -/
theorem nodeAt_append (M : Cells 19) (i : NodeIdx) (p q : List Bool) :
    nodeAt M i (p ++ q) = (nodeAt M i p).bind (fun j => nodeAt M j q) := by
  induction p generalizing i with
  | nil => rfl
  | cons b p ih =>
    rw [List.cons_append]
    cases hw : Memory.read M i.toNat with
    | none => rw [nodeAt_cons_of_unwritten hw, nodeAt_cons_of_unwritten hw]; rfl
    | some w =>
      cases hk : kindOf w with
      | leaf => rw [nodeAt_cons_of_leaf hw hk, nodeAt_cons_of_leaf hw hk]; rfl
      | internal => rw [nodeAt_cons_of_internal hw hk, nodeAt_cons_of_internal hw hk, ih]

theorem nodeAt_append_of_eq_some {j : NodeIdx} {p : List Bool} (hp : nodeAt M i p = some j) (q : List Bool) :
    nodeAt M i (p ++ q) = nodeAt M j q := by
  rw [nodeAt_append, hp, Option.bind_some]

/-- A path that leads to an internal word goes on to either child. -/
theorem nodeAt_concat {j : NodeIdx} {p : List Bool} (hp : nodeAt M i p = some j)
    (hw : Memory.read M j.toNat = some w) (hk : kindOf w = .internal) (b : Bool) :
    nodeAt M i (p ++ [b]) = some (childOf w b) := by
  rw [nodeAt_append_of_eq_some hp, nodeAt_cons_of_internal hw hk, nodeAt_nil]

theorem exists_nodeAt_take {j : NodeIdx} {p : List Bool} (hp : nodeAt M i p = some j) (k : Nat) :
    ∃ l, nodeAt M i (p.take k) = some l := by
  rw [← List.take_append_drop k p, nodeAt_append] at hp
  obtain ⟨l, hl, -⟩ := Option.bind_eq_some_iff.1 hp
  exact ⟨l, hl⟩

end

/-! ### Leaves and the paths to them (R68) -/

/-- A path that leads to a leaf leads to one symbol only. -/
theorem LeafAt.sym_unique {M : Cells 19} {p : List Bool} {s s' : Byte} (h : LeafAt M p s) (h' : LeafAt M p s') :
    s = s' := by
  obtain ⟨i, w, hi, hw, -, rfl⟩ := h
  obtain ⟨i', w', hi', hw', -, rfl⟩ := h'
  obtain rfl := Option.some.inj (hi.symm.trans hi')
  obtain rfl := Option.some.inj (hw.symm.trans hw')
  rfl

/-- A path ends at a leaf: no leaf lies beyond another. -/
theorem LeafAt.eq_of_prefix {M : Cells 19} {p p' : List Bool} {s s' : Byte} (h : LeafAt M p s)
    (h' : LeafAt M p' s') (hpre : p <+: p') : p = p' := by
  obtain ⟨i, w, hi, hw, hk, -⟩ := h
  obtain ⟨i', -, hi', -⟩ := h'
  obtain ⟨q, rfl⟩ := hpre
  rw [nodeAt_append_of_eq_some hi] at hi'
  cases q with
  | nil => exact (List.append_nil p).symm
  | cons b q => cases (nodeAt_cons_of_leaf hw hk b q).symm.trans hi'

/-! ### The tree of an image: it is unique (R63) -/

theorem TreeOf.unique {M : Cells 19} {i : NodeIdx} {T T' : Shape} (h : TreeOf M i T) (h' : TreeOf M i T') :
    T' = T := by
  induction h generalizing T' with
  | leaf i w hw hk =>
    cases h' with
    | leaf _ w' hw' _ => obtain rfl := Option.some.inj (hw.symm.trans hw'); rfl
    | internal _ w' _ _ hw' hk' => obtain rfl := Option.some.inj (hw.symm.trans hw'); cases hk.symm.trans hk'
  | internal i w l r hw hk _ _ ihl ihr =>
    cases h' with
    | leaf _ w' hw' hk' => obtain rfl := Option.some.inj (hw.symm.trans hw'); cases hk.symm.trans hk'
    | internal _ w' l' r' hw' _ hl' hr' =>
      obtain rfl := Option.some.inj (hw.symm.trans hw')
      rw [ihl hl', ihr hr']

/-! ### A well-formed image denotes a tree (R64) -/

/-- The nodes along a path from the root are pairwise different, and there are 512 indices. -/
theorem WfTree.path_length_lt {M : Cells 19} {p : List Bool} {i : NodeIdx} (h : WfTree M)
    (hp : nodeAt M 0#9 p = some i) : p.length < Config.tmemDepth := by
  choose f hf using fun k : Fin (p.length + 1) => exists_nodeAt_take hp k
  have hinj : Function.Injective f := fun k l hkl => by
    have htake : p.take k = p.take l := h.unshared _ _ _ (hf k) (hkl ▸ hf l)
    have hlen := congrArg List.length htake
    simp only [List.length_take] at hlen
    omega
  simpa using Fintype.card_le_of_injective _ (BitVec.toFin_injective.comp hinj)

/-- The recursion of `tree_of` ends from every reachable node: `n` bounds the depth still open below it. -/
theorem WfTree.exists_treeOf {M : Cells 19} (h : WfTree M) {n : Nat} {p : List Bool} {i : NodeIdx}
    (hn : Config.tmemDepth ≤ p.length + n) (hp : nodeAt M 0#9 p = some i) : ∃ T, TreeOf M i T := by
  induction n generalizing p i with
  | zero => exact absurd (h.path_length_lt hp) (Nat.not_lt.2 hn)
  | succ n ih =>
    obtain ⟨w, hw⟩ := h.written p i hp
    cases hk : kindOf w with
    | leaf => exact ⟨_, .leaf i w hw hk⟩
    | internal =>
      have hchild (b : Bool) : ∃ T, TreeOf M (childOf w b) T :=
        ih (by simp only [List.length_append, List.length_singleton]; omega) (nodeAt_concat hp hw hk b)
      obtain ⟨l, hl⟩ := hchild false
      obtain ⟨r, hr⟩ := hchild true
      exact ⟨_, .internal i w l r hw hk hl hr⟩

end Sys2Proof.Machine

namespace Sys2Proof.Safety

open Sys2Proof.Machine

/-! ### The leaves of the tree of an image -/

/-- The symbols of the leaves of an abstract tree, left to right. -/
def shapeSyms : Shape → List Byte
  | .leaf s => [s]
  | .internal l r => shapeSyms l ++ shapeSyms r

theorem shapeSyms_length (T : Shape) : (shapeSyms T).length = leafCount T := by
  induction T with
  | leaf s => rfl
  | internal l r ihl ihr => simp [shapeSyms, leafCount, ihl, ihr]

theorem leafCount_pos (T : Shape) : 0 < leafCount T := by
  induction T with
  | leaf s => exact Nat.one_pos
  | internal l r ihl _ => exact Nat.add_pos_left ihl _

theorem shapeNodes_succ (T : Shape) : shapeNodes T + 1 = 2 * leafCount T := by
  induction T with
  | leaf s => rfl
  | internal l r ihl ihr => simp only [shapeNodes, leafCount]; omega

/-- A symbol of the tree at a node stands on a leaf of the image below that node. -/
theorem leafAt_of_mem_shapeSyms {M : Cells 19} {T : Shape} {i : NodeIdx} {p : List Bool} {s : Byte}
    (hT : TreeOf M i T) (hp : nodeAt M 0#9 p = some i) (hs : s ∈ shapeSyms T) : ∃ q, LeafAt M (p ++ q) s := by
  induction hT generalizing p with
  | leaf i w hw hk =>
    obtain rfl := List.mem_singleton.1 hs
    exact ⟨[], i, w, by rwa [List.append_nil], hw, hk, rfl⟩
  | internal i w l r hw hk _ _ ihl ihr =>
    rcases List.mem_append.1 hs with hs | hs
    · obtain ⟨q, hq⟩ := ihl (nodeAt_concat hp hw hk false) hs
      exact ⟨false :: q, List.append_cons p false q ▸ hq⟩
    · obtain ⟨q, hq⟩ := ihr (nodeAt_concat hp hw hk true) hs
      exact ⟨true :: q, List.append_cons p true q ▸ hq⟩

/-- In a well-formed image a symbol of the left subtree is none of the right one: the paths to the two leaves part. -/
theorem nodup_shapeSyms {M : Cells 19} {T : Shape} {i : NodeIdx} {p : List Bool} (h : WfTree M)
    (hT : TreeOf M i T) (hp : nodeAt M 0#9 p = some i) : (shapeSyms T).Nodup := by
  induction hT generalizing p with
  | leaf => exact List.nodup_singleton _
  | internal i w l r hw hk hl hr ihl ihr =>
    have hleft : nodeAt M 0#9 (p ++ [false]) = some (leftOf w) := nodeAt_concat hp hw hk false
    have hright : nodeAt M 0#9 (p ++ [true]) = some (rightOf w) := nodeAt_concat hp hw hk true
    refine List.nodup_append.2 ⟨ihl hleft, ihr hright, fun s hs s' hs' hss => ?_⟩
    subst hss
    obtain ⟨q, hq⟩ := leafAt_of_mem_shapeSyms hl hleft hs
    obtain ⟨q', hq'⟩ := leafAt_of_mem_shapeSyms hr hright hs'
    simpa using h.distinct _ _ _ hq hq'

theorem leafCount_le_alphabet {M : Cells 19} {T : Shape} (h : WfTree M) (hT : TreeOf M 0#9 T) :
    leafCount T ≤ Config.alphabet := by
  have hcard := ((nodup_shapeSyms h hT nodeAt_nil).map BitVec.toFin_injective).length_le_card
  simpa [shapeSyms_length] using hcard

/-- The root is not a leaf. -/
theorem two_le_leafCount {M : Cells 19} {T : Shape} (h : WfTree M) (hT : TreeOf M 0#9 T) : 2 ≤ leafCount T := by
  obtain ⟨w, hw, hk⟩ := h.root
  cases hT with
  | leaf _ w' hw' hk' =>
    obtain rfl := Option.some.inj (hw.symm.trans hw')
    cases hk.symm.trans hk'
  | internal _ _ l r => exact Nat.add_le_add (leafCount_pos l) (leafCount_pos r)

end Sys2Proof.Safety

namespace Sys2Proof.Machine

/-! ### Matching images (R68) -/

theorem tableOf_eq_some {C : Cells 263} {b : Byte} {p : List Bool} :
    tableOf C b = some p ↔ ∃ e, Memory.read C b.toNat = some e ∧ clenOf e ≠ 0 ∧ codeOf e = p := by
  unfold tableOf
  cases Memory.read C b.toNat with
  | none => simp
  | some e => by_cases h0 : clenOf e = 0 <;> simp [h0]

/-- A code of the table is the path to the leaf of its symbol. -/
theorem Matches.leafAt_of_tableOf {M : Cells 19} {C : Cells 263} {b : Byte} {p : List Bool} (h : Matches M C)
    (hp : tableOf C b = some p) : LeafAt M p b := by
  obtain ⟨e, he, hlen, rfl⟩ := tableOf_eq_some.1 hp
  by_cases hleaf : ∃ q, LeafAt M q b
  · obtain ⟨q, hq⟩ := hleaf
    obtain ⟨e', he', rfl, -⟩ := h.onLeaf b q hq
    obtain rfl := Option.some.inj (he.symm.trans he')
    exact hq
  · obtain ⟨e', he', hzero⟩ := h.offLeaf b hleaf
    obtain rfl := Option.some.inj (he.symm.trans he')
    exact absurd hzero hlen

theorem Matches.allWritten {M : Cells 19} {C : Cells 263} (h : Matches M C) : AllWritten C := fun b => by
  by_cases hleaf : ∃ p, LeafAt M p b
  · obtain ⟨p, hp⟩ := hleaf
    obtain ⟨e, he, -⟩ := h.onLeaf b p hp
    exact ⟨e, he⟩
  · obtain ⟨e, he, -⟩ := h.offLeaf b hleaf
    exact ⟨e, he⟩

theorem Matches.wfCtab {M : Cells 19} {C : Cells 263} (h : Matches M C) : WfCtab C where
  written := h.allWritten
  prefixFree _ _ _ _ hp hp' hne hpre := hne ((h.leafAt_of_tableOf hp).eq_of_prefix (h.leafAt_of_tableOf hp') hpre)

/-! ### Reads of never-written words (R82) -/

theorem execDBit_unwritten_node {s : State} {v : Byte} {b : Bool} (hr : s.dec.dstate = .run)
    (hv : bitOfSymbol v = some b) (hn : readTmem s.dec.dcur s = none) :
    execDBit v s = .fault (.unwrittenTmem s.dec.dcur) := by
  simp [execDBit, hr, hv, hn]

theorem execDBit_unwritten_child {s : State} {v : Byte} {b : Bool} {n : TreeWord} (hr : s.dec.dstate = .run)
    (hv : bitOfSymbol v = some b) (hn : readTmem s.dec.dcur s = some n) (hk : kindOf n = .internal)
    (hm : readTmem (childOf n b) s = none) : execDBit v s = .fault (.unwrittenTmem (childOf n b)) := by
  simp [execDBit, hr, hv, hn, hk, hm]

theorem execESym_unwritten {s : State} {b : Byte} (hr : s.enc.estate = .run) (he : readCtab b s = none) :
    execESym b s = .fault (.unwrittenCtab b) := by
  simp [execESym, hr, he]

end Sys2Proof.Machine

/-! ### The obligations -/

namespace Sys2Proof.Proofs

open Sys2Proof.Machine Sys2Proof.Safety

/-- Settles O35: the step is the write, and the laws of the table memories say what it does. -/
theorem hostWritesTakeEffect : Obligations.HostWritesTakeEffect := by
  constructor
  · intro s i w rest hin hr
    exact ⟨_, (step_cons hin).trans (hostTWrite_of_not_run (s := s.setInbox rest) hr i w),
      Memory.read_write_same _ _ _, fun j hj => Memory.read_write_ne _ _ _ _ (mt BitVec.eq_of_toNat_eq hj), rfl,
      fun hwf => Memory.write_wf hwf i.isLt⟩
  · intro s b e rest hin hr
    exact ⟨_, (step_cons hin).trans (hostCWrite_of_not_run (s := s.setInbox rest) hr b e),
      Memory.read_write_same _ _ _, fun a ha => Memory.read_write_ne _ _ _ _ (mt BitVec.eq_of_toNat_eq ha), rfl,
      fun hwf => Memory.write_wf hwf b.isLt⟩

/-- Settles O52: the recursion ends as no path is longer than the index space, and each leaf has a symbol of its own. -/
theorem wellFormedImageDenotesTree : Obligations.WellFormedImageDenotesTree := by
  intro M h
  obtain ⟨T, hT⟩ := h.exists_treeOf (n := Config.tmemDepth) (p := []) (Nat.le_add_left _ _) nodeAt_nil
  have hmost : leafCount T ≤ 256 := leafCount_le_alphabet h hT
  have hnodes := shapeNodes_succ T
  exact ⟨T, hT, fun T' => hT.unique, two_le_leafCount h hT, hmost, by omega⟩

/-- Settles O53: every code is a path to its symbol's leaf, so two codes part before they end and one names one leaf. -/
theorem matchImpliesWfCtab : Obligations.MatchImpliesWfCtab := fun _ _ h =>
  ⟨h.wfCtab, fun _ _ _ hp hp' => (h.leafAt_of_tableOf hp).sym_unique (h.leafAt_of_tableOf hp')⟩

/-- Settles O24: each of the three table reads, with the checks before it passed. -/
theorem unwrittenReadFaults : Obligations.UnwrittenReadFaults := by
  refine fun s => ⟨fun v hr hv hn => ?_, fun v n c hr hv hn hk hm => ?_, fun b hr he => execESym_unwritten hr he⟩
  · obtain ⟨b, hb⟩ : ∃ b, bitOfSymbol v = some b := by
      rcases hv with rfl | rfl
      · exact ⟨false, rfl⟩
      · exact ⟨true, rfl⟩
    exact execDBit_unwritten_node hr hb hn
  · obtain ⟨b, hb, rfl⟩ := exists_bit_of_child hv
    exact execDBit_unwritten_child hr hb hn hk hm

end Sys2Proof.Proofs
end

section
/-! SUPPORT. Proofs of the statements of 30_encoding.md: command words against the opcode table (R90 to R95, R107), the
fields of tree words and table entries (R96, R97, R100), the bits no engine reads (D37), and the lines of command
streams (R105, R106). -/

namespace Sys2Proof

/-! ### Reserved words (R94) -/

theorem opField_cases (w : CmdWord) : opField w = 0#2 ∨ opField w = 1#2 ∨ opField w = 2#2 ∨ opField w = 3#2 := by
  generalize opField w = op
  revert op
  decide

theorem decode_eq_reserved_iff {p : Port} {w : CmdWord} :
    decode p w = .reserved ↔
      opField w = 3#2 ∨ (opField w = 1#2 ∧ argField w ≠ 0x00#8) ∨ (opField w = 2#2 ∧ argField w ≠ 0x00#8) := by
  rcases opField_cases w with hop | hop | hop | hop <;> simp [decode, hop]

theorem toNat_eq_fields (w : CmdWord) : w.toNat = 256 * (opField w).toNat + (argField w).toNat := by
  have := w.isLt
  simp [opField, argField, BitVec.extractLsb'_toNat, Nat.shiftRight_eq_div_pow]
  omega

/-- The words above END's, START's excepted, are the reserved ones. -/
theorem decode_eq_reserved_iff_toNat {p : Port} {w : CmdWord} :
    decode p w = .reserved ↔ 256 < w.toNat ∧ w.toNat ≠ 512 := by
  rw [decode_eq_reserved_iff, toNat_eq_fields]
  have := (opField w).isLt
  have := (argField w).isLt
  simp only [BitVec.toNat_eq, ne_eq, BitVec.toNat_ofNat]
  omega

/-! ### The opcode table (R107) -/

theorem and_fullMask (w : CmdWord) : w &&& 0x3FF#10 = w := BitVec.and_allOnes

theorem and_opMask_eq_zero_iff {w : CmdWord} : w &&& 0x300#10 = 0x000#10 ↔ opField w = 0#2 := by
  constructor
  · intro h
    have hop : opField (w &&& 0x300#10) = opField w := by
      rw [opField, BitVec.extractLsb'_and]
      exact BitVec.and_allOnes
    rw [← hop, h]
    rfl
  · intro h
    rw [← cmdWord_fields w, h]
    exact Laws.TableRow.dataToken_masked _

theorem eq_cmdWord_iff {w : CmdWord} {op : BitVec 2} {a : Byte} :
    w = cmdWord op a ↔ opField w = op ∧ argField w = a := by
  constructor
  · rintro rfl
    exact ⟨opField_cmdWord op a, argField_cmdWord op a⟩
  · rintro ⟨rfl, rfl⟩
    exact (cmdWord_fields w).symm

/-- The three rows of a port ask of a word's fields what R95's tests ask. -/
theorem matchingMnemonics_eq (p : Port) (w : CmdWord) :
    matchingMnemonics p w =
      match decode p w with
      | .command i => [mnemonicOf i]
      | .reserved => [] := by
  have hstart : w = 0x200#10 ↔ opField w = 2#2 ∧ argField w = 0#8 := eq_cmdWord_iff (op := 2#2) (a := 0#8)
  have hend : w = 0x100#10 ↔ opField w = 1#2 ∧ argField w = 0#8 := eq_cmdWord_iff (op := 1#2) (a := 0#8)
  have hrows : matchingMnemonics p w =
      (if opField w = 2#2 ∧ argField w = 0#8 then [mnemonicOf (startCommand p)] else []) ++
      (if opField w = 0#2 then [mnemonicOf (dataToken p (argField w))] else []) ++
      (if opField w = 1#2 ∧ argField w = 0#8 then [mnemonicOf (endCommand p)] else []) := by
    cases p with
    | dec | enc =>
      simp only [matchingMnemonics, opcodeTable, rowMatches, and_fullMask, and_opMask_eq_zero_iff, hstart, hend,
        List.filter_cons, List.filter_nil, decide_true, decide_false, Bool.true_and, Bool.false_and,
        decide_eq_true_iff, reduceCtorEq, Bool.false_eq_true, if_false]
      split_ifs <;> rfl
  rw [hrows, decode]
  by_cases hdata : opField w = 0#2
  · simp [hdata]
  · split_ifs <;> simp_all

/-! ### How many words are reserved (R94) -/

/-- Of the 767 words above END's, START's is no reserved one. -/
theorem reserved_count (p : Port) :
    ((List.range 1024).filter (fun n => decide (decode p (BitVec.ofNat 10 n) = .reserved))).length = 766 := by
  have hwords : (Finset.range 1024).filter (fun n => decode p (BitVec.ofNat 10 n) = .reserved) =
      (Finset.Ioo 256 1024).erase 512 := by
    ext n
    simp only [Finset.mem_filter, Finset.mem_range, Finset.mem_erase, Finset.mem_Ioo, decode_eq_reserved_iff_toNat,
      BitVec.toNat_ofNat]
    omega
  calc _ = ((Finset.range 1024).filter (fun n => decode p (BitVec.ofNat 10 n) = .reserved)).card := rfl
    _ = 766 := by rw [hwords, Finset.card_erase_of_mem (by simp), Nat.card_Ioo]

end Sys2Proof

namespace Sys2Proof.Machine

/-! ### The fields of a tree word the host composes (R96, R138) -/

theorem getLsbD_internalWord (l r : NodeIdx) (i : Nat) :
    (internalWord l r).getLsbD i = if i < 9 then r.getLsbD i else l.getLsbD (i - 9) := by
  simp only [internalWord, BitVec.getLsbD_or, BitVec.getLsbD_shiftLeft, BitVec.getLsbD_setWidth]
  by_cases hi : i < 9
  · simp [hi, show i < 19 by omega]
  · by_cases hi' : i < 18
    · simp [hi, show i < 19 by omega, show i - 9 < 19 by omega, r.getLsbD_of_ge i (by omega)]
    · simp [hi, r.getLsbD_of_ge i (by omega), l.getLsbD_of_ge (i - 9) (by omega)]

theorem getLsbD_leafWord (s : Byte) {i : Nat} (hi : i < 18) : (leafWord s).getLsbD i = s.getLsbD i := by
  have hkind : ∀ i < 18, (0x40000#19).getLsbD i = false := by decide
  simp only [leafWord, BitVec.getLsbD_or, BitVec.getLsbD_setWidth, hkind i hi, Bool.false_or]
  simp [show i < 19 by omega]

@[simp] theorem kindOf_internalWord (l r : NodeIdx) : kindOf (internalWord l r) = .internal := by
  have hbit : (internalWord l r).getLsbD 18 = false := by
    rw [getLsbD_internalWord, if_neg (by decide), BitVec.getLsbD_of_ge _ _ (by decide)]
  rw [kindOf, hbit]
  rfl

@[simp] theorem leftOf_internalWord (l r : NodeIdx) : leftOf (internalWord l r) = l := by
  apply BitVec.eq_of_getLsbD_eq
  intro i hi
  simp [leftOf, getLsbD_internalWord, hi]

@[simp] theorem rightOf_internalWord (l r : NodeIdx) : rightOf (internalWord l r) = r := by
  apply BitVec.eq_of_getLsbD_eq
  intro i hi
  simp [rightOf, getLsbD_internalWord, hi]

@[simp] theorem kindOf_leafWord (s : Byte) : kindOf (leafWord s) = .leaf := by
  simp [kindOf, leafWord]

@[simp] theorem symOf_leafWord (s : Byte) : symOf (leafWord s) = s := by
  apply BitVec.eq_of_getLsbD_eq
  intro i hi
  simp [symOf, getLsbD_leafWord s (show i < 18 by omega), hi]

theorem treeWordWellFormed_of_internal {w : TreeWord} (hk : kindOf w = .internal) : treeWordWellFormed w = true := by
  unfold kindOf at hk
  split at hk
  · cases hk
  · next hbit => rw [treeWordWellFormed, Bool.eq_false_iff.2 hbit]; rfl

theorem treeWordWellFormed_leafWord (s : Byte) : treeWordWellFormed (leafWord s) = true := by
  have hzero : (leafWord s).extractLsb' 8 10 = 0#10 := by
    apply BitVec.eq_of_getLsbD_eq
    intro i hi
    simp [getLsbD_leafWord s (show 8 + i < 18 by omega), hi]
  simp [treeWordWellFormed, hzero]

/-! ### The fields of a table entry the host composes (R100, R139) -/

section
variable {p : List Bool} (hp : p.length ≤ 255)
include hp

/-- The field `clen` of a composed entry. -/
theorem getLsbD_codeEntry_clen {i : Nat} (hi : i < 8) : (codeEntry p).getLsbD (255 + i) = p.length.testBit i := by
  simp only [codeEntry, BitVec.getLsbD_or, BitVec.getLsbD_shiftLeft, BitVec.getLsbD_setWidth,
    BitVec.getLsbD_ofNat, BitVec.getLsbD_ofBoolListBE]
  have hpast : ¬ 255 + i - (255 - p.length) < p.length := by omega
  simp [hpast, show 255 + i < 263 by omega, show i < 263 by omega]

/-- The field `code` of a composed entry holds the code's bits from the top, and 0 below them. -/
theorem getLsbD_codeEntry_code {i : Nat} (hi : i < 255) : (codeEntry p).getLsbD i = p.getD (254 - i) false := by
  simp only [codeEntry, BitVec.getLsbD_or, BitVec.getLsbD_shiftLeft, BitVec.getLsbD_setWidth,
    BitVec.getLsbD_ofBoolListBE]
  by_cases hlow : i < 255 - p.length
  · simp [hi, hlow, p.getElem?_eq_none (i := 254 - i) (by omega)]
  · have hplace : p.length - 1 - (i - (255 - p.length)) = 254 - i := by omega
    simp [hi, hlow, hplace, show i < 263 by omega, show i - (255 - p.length) < p.length by omega,
      show i - (255 - p.length) < 263 by omega]

theorem clenOf_codeEntry : clenOf (codeEntry p) = p.length := by
  have hfield : (codeEntry p).extractLsb' 255 8 = BitVec.ofNat 8 p.length := by
    apply BitVec.eq_of_getLsbD_eq
    intro i hi
    rw [BitVec.getLsbD_extractLsb', decide_eq_true hi, Bool.true_and, getLsbD_codeEntry_clen hp hi,
      BitVec.getLsbD_ofNat, decide_eq_true hi, Bool.true_and]
  rw [clenOf, hfield, BitVec.toNat_ofNat]
  omega

theorem codeOf_codeEntry : codeOf (codeEntry p) = p := by
  refine List.ext_getElem (by rw [codeOf_length, clenOf_codeEntry hp]) fun k _ hk => ?_
  have hback : 254 - (254 - k) = k := by omega
  simp [codeOf, cbitOf, getLsbD_codeEntry_code hp (show 254 - k < 255 by omega), hback, hk]

theorem codeEntryWellFormed_codeEntry : codeEntryWellFormed (codeEntry p) = true := by
  have hlow : (codeEntry p).toNat % 2 ^ (255 - p.length) = 0 := by
    refine Nat.eq_of_testBit_eq fun i => ?_
    rw [Nat.testBit_mod_two_pow, Nat.zero_testBit, BitVec.testBit_toNat]
    by_cases hi : i < 255 - p.length
    · rw [getLsbD_codeEntry_code hp (by omega), List.getD_eq_default _ _ (by omega), Bool.and_false]
    · simp [hi]
  have hlen := clenOf_codeEntry hp
  rw [clenOf] at hlen
  rw [codeEntryWellFormed, hlen, hlow, decide_eq_true rfl]

end

/-! ### What a command answers, case by case -/

section
variable {s : State}

theorem execDBit_of_not_run (hr : s.dec.dstate ≠ .run) (v : Byte) : execDBit v s = .next s := by
  simp [execDBit, hr]

theorem execDBit_malformed {v : Byte} (hr : s.dec.dstate = .run) (hv : bitOfSymbol v = none) :
    execDBit v s = .next (raise (.malformedBit v) s) := by
  simp [execDBit, hr, hv]

theorem execDBit_leaf {v : Byte} {b : Bool} {n : TreeWord} (hr : s.dec.dstate = .run) (hv : bitOfSymbol v = some b)
    (hn : readTmem s.dec.dcur s = some n) (hk : kindOf n = .leaf) : execDBit v s = .next (raise .treeFault s) := by
  simp [execDBit, hr, hv, hn, hk]

theorem execDEnd_of_not_run (hr : s.dec.dstate ≠ .run) : execDEnd s = .next s := by
  simp [execDEnd, hr]

theorem execDEnd_root (hr : s.dec.dstate = .run) (hc : s.dec.dcur = 0#9) :
    execDEnd s = .next (s.setDec { s.dec with dstate := .done }) := by
  simp [execDEnd, hr, hc]

theorem execDEnd_midPath (hr : s.dec.dstate = .run) (hc : s.dec.dcur ≠ 0#9) :
    execDEnd s = .next (raise .truncatedStream s) := by
  simp [execDEnd, hr, hc]

theorem execESym_of_not_run (hr : s.enc.estate ≠ .run) (b : Byte) : execESym b s = .next s := by
  simp [execESym, hr]

theorem execESym_noCode {b : Byte} {e : CodeEntry} (hr : s.enc.estate = .run) (he : readCtab b s = some e)
    (h0 : clenOf e = 0) : execESym b s = .next (raise (.internalEncoding b) s) := by
  simp [execESym, hr, he, h0]

theorem execESym_append {b : Byte} {e : CodeEntry} (hr : s.enc.estate = .run) (he : readCtab b s = some e)
    (h0 : clenOf e ≠ 0) (hbits : s.enc.ebits.toNat + clenOf e < 2 ^ 64) (hpos : s.enc.epos.toNat + 1 < 2 ^ 64) :
    execESym b s = .next (s.setEnc { appendBits s.enc (codeOf e) with epos := s.enc.epos + 1#64 }) := by
  simp [execESym, hr, he, h0, countUp_eq_some.2 ⟨hbits, rfl⟩, countUp_eq_some.2 ⟨hpos, rfl⟩]

theorem execEEnd_of_not_run (hr : s.enc.estate ≠ .run) : execEEnd s = .next s := by
  simp [execEEnd, hr]

theorem execEEnd_run (hr : s.enc.estate = .run) :
    execEEnd s = .next (s.setEnc { flushBits s.enc with estate := .done }) := by
  simp [execEEnd, hr]

end

/-! ### A command neither reads nor changes the other engine (R7) -/

/-- An answer with its next state changed. -/
def mapNext (f : State → State) : Result → Result
  | .next t => .next (f t)
  | .fault k => .fault k
  | .refused r => .refused r

theorem exec_setDec_of_enc {i : Instr} (hi : i.port = .enc) (d : Dec) (s : State) :
    exec i (s.setDec d) = mapNext (·.setDec d) (exec i s) := by
  cases i with
  | dStart | dBit _ | dEnd => cases hi
  | eStart => rfl
  | eSym b =>
    rw [exec_eSym, exec_eSym]
    rcases execESym_cases b s with
      ⟨hr, h⟩ | ⟨hr, hn, h⟩ | ⟨hr, c, hc, ⟨h0, h⟩ | ⟨h0, hlimit, h⟩ | ⟨h0, hbits, hpos, h⟩⟩ <;> rw [h]
    · exact execESym_of_not_run (s := s.setDec d) hr b
    · exact execESym_unwritten (s := s.setDec d) hr hn
    · exact execESym_noCode (s := s.setDec d) hr hc h0
    · exact execESym_refused (s := s.setDec d) hr hc h0 hlimit
    · exact execESym_append (s := s.setDec d) hr hc h0 hbits hpos
  | eEnd =>
    rw [exec_eEnd, exec_eEnd]
    rcases execEEnd_cases s with ⟨hr, h⟩ | ⟨hr, h⟩ <;> rw [h]
    · exact execEEnd_of_not_run (s := s.setDec d) hr
    · exact execEEnd_run (s := s.setDec d) hr

theorem walkTo_setEnc (c : NodeIdx) (m : TreeWord) (e : Enc) (s : State) :
    walkTo c m (s.setEnc e) = mapNext (·.setEnc e) (walkTo c m s) := by
  unfold walkTo
  dsimp only [State.setEnc_dec]
  cases countUp s.dec.dpos 1 with
  | none => rfl
  | some pos =>
    cases kindOf m with
    | internal => rfl
    | leaf => cases countUp s.dec.dsyms 1 <;> rfl

theorem exec_setEnc_of_dec {i : Instr} (hi : i.port = .dec) (e : Enc) (s : State) :
    exec i (s.setEnc e) = mapNext (·.setEnc e) (exec i s) := by
  cases i with
  | dStart => rfl
  | dBit v =>
    rw [exec_dBit, exec_dBit]
    rcases execDBit_cases v s with
      ⟨hr, h⟩ | ⟨hr, hv, h⟩ | ⟨hr, b, hb, ⟨hn, h⟩ | ⟨n, hn, ⟨hk, h⟩ | ⟨hk, ⟨hm, h⟩ | ⟨m, hm, h⟩⟩⟩⟩ <;> rw [h]
    · exact execDBit_of_not_run (s := s.setEnc e) hr v
    · exact execDBit_malformed (s := s.setEnc e) hr hv
    · exact execDBit_unwritten_node (s := s.setEnc e) hr hb hn
    · exact execDBit_leaf (s := s.setEnc e) hr hb hn hk
    · exact execDBit_unwritten_child (s := s.setEnc e) hr hb hn hk hm
    · rw [execDBit_walk (s := s.setEnc e) hr hb hn hk hm, walkTo_setEnc]
  | dEnd =>
    rw [exec_dEnd, exec_dEnd]
    rcases execDEnd_cases s with ⟨hr, h⟩ | ⟨hr, hc, h⟩ | ⟨hr, hc, h⟩ <;> rw [h]
    · exact execDEnd_of_not_run (s := s.setEnc e) hr
    · exact execDEnd_root (s := s.setEnc e) hr hc
    · exact execDEnd_midPath (s := s.setEnc e) hr hc
  | eStart | eSym _ | eEnd => cases hi

/-! ### The encoder's packing does not touch CTAB -/

theorem appendBits_ctab (e : Enc) (C : Cells 263) (bs : List Bool) :
    appendBits { e with ctab := C } bs = { appendBits e bs with ctab := C } := by
  induction bs generalizing e with
  | nil => rfl
  | cons b bs ih =>
    have hbit : appendBit { e with ctab := C } b = { appendBit e b with ctab := C } := by
      rw [appendBit_eq, appendBit_eq]
      dsimp only
      split <;> rfl
    rw [appendBits_cons, appendBits_cons, hbit, ih]

theorem flushBits_ctab (e : Enc) (C : Cells 263) : flushBits { e with ctab := C } = { flushBits e with ctab := C } := by
  rw [flushBits_eq, flushBits_eq]

/-! ### Another content of a table -/

/-- The state with another content of TMEM. -/
def State.setTmem (s : State) (M : Cells 19) : State := s.setDec { s.dec with tmem := M }

/-- The state with another content of CTAB. -/
def State.setCtab (s : State) (C : Cells 263) : State := s.setEnc { s.enc with ctab := C }

end Sys2Proof.Machine

namespace Sys2Proof.Safety

open Sys2Proof.Machine

/-! ### Contents that differ in ignored bits only (R96, R100, D37) -/

theorem SameTreeWords.read_eq_none {M M' : Cells 19} (h : SameTreeWords M M') {a : Nat}
    (ha : Memory.read M a = none) : Memory.read M' a = none := by
  have hword := h a
  rw [ha] at hword
  cases ha' : Memory.read M' a with
  | none => rfl
  | some w' => simp [ha'] at hword

theorem SameTreeWords.read_eq_some {M M' : Cells 19} (h : SameTreeWords M M') {a : Nat} {w : TreeWord}
    (ha : Memory.read M a = some w) :
    ∃ w', Memory.read M' a = some w' ∧ kindOf w' = kindOf w ∧
      (kindOf w = .internal → ∀ b, childOf w' b = childOf w b) ∧ (kindOf w = .leaf → symOf w' = symOf w) := by
  have hword := h a
  rw [ha] at hword
  cases ha' : Memory.read M' a with
  | none => simp [ha'] at hword
  | some w' =>
    rw [ha'] at hword
    obtain ⟨hkind, hchildren, hsym⟩ := hword
    refine ⟨w', rfl, hkind.symm, fun hk b => ?_, fun hk => (hsym hk).symm⟩
    obtain ⟨hleft, hright⟩ := hchildren hk
    cases b
    · exact hleft.symm
    · exact hright.symm

theorem SameCodes.read_eq_none {C C' : Cells 263} (h : SameCodes C C') {a : Nat}
    (ha : Memory.read C a = none) : Memory.read C' a = none := by
  have hentry := h a
  rw [ha] at hentry
  cases ha' : Memory.read C' a with
  | none => rfl
  | some e' => simp [ha'] at hentry

theorem SameCodes.read_eq_some {C C' : Cells 263} (h : SameCodes C C') {a : Nat} {e : CodeEntry}
    (ha : Memory.read C a = some e) :
    ∃ e', Memory.read C' a = some e' ∧ codeOf e' = codeOf e ∧ clenOf e' = clenOf e := by
  have hentry := h a
  rw [ha] at hentry
  cases ha' : Memory.read C' a with
  | none => simp [ha'] at hentry
  | some e' =>
    rw [ha'] at hentry
    have hcode : codeOf e = codeOf e' := hentry
    exact ⟨e', rfl, hcode.symm, by rw [← codeOf_length, ← codeOf_length, hcode]⟩

/-! ### No command reads an ignored bit -/

/-- The walk reads only the kind of the child's word, and of a leaf its symbol. -/
theorem walkTo_withTmem {m m' : TreeWord} {M : Cells 19} (c : NodeIdx) (s : State) (hk : kindOf m' = kindOf m)
    (hsym : kindOf m = .leaf → symOf m' = symOf m) :
    walkTo c m' (s.setTmem M) = withTmem M (walkTo c m s) := by
  unfold walkTo
  rw [hk]
  dsimp only [State.setTmem, State.setDec_dec]
  cases countUp s.dec.dpos 1 with
  | none => rfl
  | some pos =>
    cases hm : kindOf m with
    | internal => rfl
    | leaf =>
      cases countUp s.dec.dsyms 1 with
      | none => rfl
      | some syms => simp [withTmem, hsym hm]

theorem execDBit_withTmem {s : State} {M : Cells 19} (h : SameTreeWords s.dec.tmem M) (v : Byte) :
    execDBit v (s.setTmem M) = withTmem M (execDBit v s) := by
  rcases execDBit_cases v s with ⟨hr, e⟩ | ⟨hr, hv, e⟩ | ⟨hr, b, hb, ⟨hn, e⟩ | ⟨n, hn, hcases⟩⟩
  · rw [e, execDBit_of_not_run (s := s.setTmem M) hr]
    rfl
  · rw [e, execDBit_malformed (s := s.setTmem M) hr hv]
    rfl
  · rw [e, execDBit_unwritten_node (s := s.setTmem M) hr hb (h.read_eq_none hn)]
    rfl
  · obtain ⟨n', hn', hkind, hchild, -⟩ := h.read_eq_some hn
    rcases hcases with ⟨hk, e⟩ | ⟨hk, ⟨hm, e⟩ | ⟨m, hm, e⟩⟩ <;> rw [e]
    · rw [execDBit_leaf (s := s.setTmem M) hr hb hn' (hkind.trans hk)]
      rfl
    · have hm' := h.read_eq_none hm
      rw [← hchild hk b] at hm' ⊢
      rw [execDBit_unwritten_child (s := s.setTmem M) hr hb hn' (hkind.trans hk) hm']
      rfl
    · obtain ⟨m', hm', hkind', -, hsym⟩ := h.read_eq_some hm
      rw [← hchild hk b] at hm' ⊢
      rw [execDBit_walk (s := s.setTmem M) hr hb hn' (hkind.trans hk) hm', walkTo_withTmem _ _ hkind' hsym]

theorem execESym_withCtab {s : State} {C : Cells 263} (h : SameCodes s.enc.ctab C) (b : Byte) :
    execESym b (s.setCtab C) = withCtab C (execESym b s) := by
  rcases execESym_cases b s with ⟨hr, e⟩ | ⟨hr, hn, e⟩ | ⟨hr, c, hc, hcases⟩
  · rw [e, execESym_of_not_run (s := s.setCtab C) hr]
    rfl
  · rw [e, execESym_unwritten (s := s.setCtab C) hr (h.read_eq_none hn)]
    rfl
  · obtain ⟨c', hc', hcode, hlen⟩ := h.read_eq_some hc
    rw [← hlen] at hcases
    rcases hcases with ⟨h0, e⟩ | ⟨h0, hlimit, e⟩ | ⟨h0, hbits, hpos, e⟩ <;> rw [e]
    · rw [execESym_noCode (s := s.setCtab C) hr hc' h0]
      rfl
    · rw [execESym_refused (s := s.setCtab C) hr hc' h0 hlimit]
      rfl
    · rw [execESym_append (s := s.setCtab C) hr hc' h0 hbits hpos, hcode]
      dsimp only [State.setCtab, State.setEnc_enc]
      rw [appendBits_ctab]
      rfl

/-- A command of ENC does not look at TMEM. -/
theorem exec_withTmem_of_enc {i : Instr} (hi : i.port = .enc) (s : State) (M : Cells 19) :
    exec i (s.setTmem M) = withTmem M (exec i s) := by
  rw [State.setTmem, exec_setDec_of_enc hi]
  cases hx : exec i s with
  | next t => rw [withTmem, exec_enc_next_dec hi hx]; rfl
  | fault f => rfl
  | refused r => rfl

/-- A command of DEC does not look at CTAB. -/
theorem exec_withCtab_of_dec {i : Instr} (hi : i.port = .dec) (s : State) (C : Cells 263) :
    exec i (s.setCtab C) = withCtab C (exec i s) := by
  rw [State.setCtab, exec_setEnc_of_dec hi]
  cases hx : exec i s with
  | next t => rw [withCtab, exec_dec_next_enc hi hx]; rfl
  | fault f => rfl
  | refused r => rfl

theorem exec_withTmem {s : State} {M : Cells 19} (h : SameTreeWords s.dec.tmem M) (i : Instr) :
    exec i (s.setTmem M) = withTmem M (exec i s) := by
  cases i with
  | dStart => rfl
  | dBit v => exact execDBit_withTmem h v
  | dEnd =>
    rw [exec_dEnd, exec_dEnd]
    rcases execDEnd_cases s with ⟨hr, e⟩ | ⟨hr, hc, e⟩ | ⟨hr, hc, e⟩ <;> rw [e]
    · exact execDEnd_of_not_run (s := s.setTmem M) hr
    · exact execDEnd_root (s := s.setTmem M) hr hc
    · exact execDEnd_midPath (s := s.setTmem M) hr hc
  | eStart | eSym _ | eEnd => exact exec_withTmem_of_enc rfl s M

theorem exec_withCtab {s : State} {C : Cells 263} (h : SameCodes s.enc.ctab C) (i : Instr) :
    exec i (s.setCtab C) = withCtab C (exec i s) := by
  cases i with
  | eStart => rfl
  | eSym b => exact execESym_withCtab h b
  | eEnd =>
    rw [exec_eEnd, exec_eEnd]
    rcases execEEnd_cases s with ⟨hr, e⟩ | ⟨hr, e⟩ <;> rw [e]
    · exact execEEnd_of_not_run (s := s.setCtab C) hr
    · rw [execEEnd_run (s := s.setCtab C) hr, State.setCtab]
      dsimp only [State.setEnc_enc]
      rw [flushBits_ctab]
      rfl
  | dStart | dBit _ | dEnd => exact exec_withCtab_of_dec rfl s C

end Sys2Proof.Safety

namespace Sys2Proof.Machine

/-! ### The text of a line -/

/-- A character that neither separates the parts of a line nor opens a comment, a string or a quoted character. -/
abbrev PlainChar (c : Char) : Prop := c ≠ ' ' ∧ c ≠ ';' ∧ c ≠ '"' ∧ c ≠ '\''

/-- On a given text the check runs. -/
theorem plain_of_all {cs : List Char} (h : cs.all (fun c => decide (PlainChar c)) = true) : ∀ c ∈ cs, PlainChar c :=
  fun c hc => of_decide_eq_true (List.all_eq_true.1 h c hc)

@[simp] theorem stripComment_nil (inString : Bool) : stripComment inString [] = [] := by simp [stripComment]

theorem stripComment_cons {c : Char} (hcomment : c ≠ ';') (hquote : c ≠ '\'') (cs : List Char) :
    stripComment false (c :: cs) = c :: stripComment (c == '"') cs := by
  rw [stripComment, if_neg hcomment]
  exact fun _ _ h _ => hquote h

theorem stripComment_plain_append {cs : List Char} (h : ∀ c ∈ cs, PlainChar c) (rest : List Char) :
    stripComment false (cs ++ rest) = cs ++ stripComment false rest := by
  induction cs with
  | nil => rfl
  | cons c cs ih =>
    obtain ⟨⟨-, hcomment, hstring, hquote⟩, hcs⟩ := List.forall_mem_cons.1 h
    rw [List.cons_append, stripComment_cons hcomment hquote, beq_false_of_ne hstring, ih hcs, List.cons_append]

theorem stripComment_plain {cs : List Char} (h : ∀ c ∈ cs, PlainChar c) : stripComment false cs = cs := by
  simpa using stripComment_plain_append h []

/-- Inside a string no character starts a comment. -/
theorem stripComment_inString {cs : List Char} (h : '"' ∉ cs) : stripComment true (cs ++ ['"']) = cs ++ ['"'] := by
  induction cs with
  | nil => rfl
  | cons c cs ih =>
    obtain ⟨hc, hcs⟩ := not_or.1 (mt List.mem_cons.2 h)
    rw [List.cons_append, stripComment, bne_iff_ne.2 (Ne.symm hc), ih hcs]

theorem trimBlanks_eq_self {cs : List Char} (hfirst : cs.head? ≠ some ' ') (hlast : cs.getLast? ≠ some ' ') :
    trimBlanks cs = cs := by
  have keep {ds : List Char} (h : ds.head? ≠ some ' ') : ds.dropWhile (· == ' ') = ds := by
    cases ds with
    | nil => rfl
    | cons d ds => exact List.dropWhile_cons_of_neg (by simpa using h)
  rw [trimBlanks, keep hfirst, keep (by rwa [List.head?_reverse]), List.reverse_reverse]

/-- The line of a mnemonic and an operand that holds no comment and has no blank at its ends. -/
theorem parseLine_operand {m o : List Char} (hne : m ≠ []) (hm : ∀ c ∈ m, PlainChar c)
    (hcomment : stripComment false o = o) (hone : o ≠ []) (hfirst : o.head? ≠ some ' ')
    (hlast : o.getLast? ≠ some ' ') :
    parseLine (m ++ ' ' :: o) = commandsOf m o := by
  have htext : lineText (m ++ ' ' :: o) = m ++ ' ' :: o := by
    rw [lineText, stripComment_plain_append hm, stripComment_cons (by decide) (by decide)]
    have hblank : (' ' == '"') = false := rfl
    rw [hblank, hcomment, trimBlanks_eq_self]
    · obtain ⟨c, cs, rfl⟩ := List.exists_cons_of_ne_nil hne
      have hc := hm c List.mem_cons_self
      simpa using hc.1
    · rwa [List.getLast?_append_of_ne_nil _ (List.cons_ne_nil _ _), List.getLast?_cons_of_ne_nil hone]
  have hword : ∀ c ∈ m, (c != ' ') = true := fun c hc => bne_iff_ne.2 (hm c hc).1
  have htrim : trimBlanks (' ' :: o) = trimBlanks o := rfl
  rw [parseLine, htext, List.takeWhile_append_of_pos hword, List.dropWhile_append_of_pos hword]
  simp [htrim, trimBlanks_eq_self hfirst hlast]

/-! ### The mnemonics with an operand -/

section
variable (o : List Char)

theorem commandsOf_dBit : commandsOf "D_BIT".toList o = (byteOfNumber o).map (fun v => [.dBit v]) := rfl
theorem commandsOf_eSym : commandsOf "E_SYM".toList o = (symOperand o).map (fun b => [.eSym b]) := rfl
theorem commandsOf_dBits : commandsOf "D_BITS".toList o = ((unquote o).bind bitsOfChars).map dBits := rfl
theorem commandsOf_dDecode : commandsOf "D_DECODE".toList o = ((unquote o).bind bitsOfChars).map dDecode := rfl
theorem commandsOf_eStr : commandsOf "E_STR".toList o = ((unquote o).bind bytesOfChars).map eStr := rfl
theorem commandsOf_eEncode : commandsOf "E_ENCODE".toList o = ((unquote o).bind bytesOfChars).map eEncode := rfl

end

/-! ### Numbers (R12, R105) -/

theorem digitValue_of_isDigit {c : Char} (h : c.isDigit = true) :
    digitValue c = some (c.toNat - '0'.toNat) ∧ c.toNat - '0'.toNat < 10 := by
  have hrange : 48 ≤ c.toNat ∧ c.toNat ≤ 57 := Char.isDigit_iff_toNat.1 h
  have hzero : '0'.toNat = 48 := rfl
  rw [digitValue, if_pos hrange, hzero]
  exact ⟨rfl, by omega⟩

theorem numberOfDigits_of_isDigit {cs : List Char} (h : ∀ c ∈ cs, c.isDigit = true) (acc : Nat) :
    numberOfDigits 10 acc cs = some (Nat.ofDigitChars 10 cs acc) := by
  induction cs generalizing acc with
  | nil => rfl
  | cons c cs ih =>
    obtain ⟨hc, hcs⟩ := List.forall_mem_cons.1 h
    obtain ⟨hvalue, hlt⟩ := digitValue_of_isDigit hc
    simp only [numberOfDigits, hvalue, if_pos hlt]
    rw [ih hcs, Nat.ofDigitChars_cons]

theorem plainChar_of_isDigit {c : Char} (h : c.isDigit = true) : PlainChar c := by
  refine ⟨?_, ?_, ?_, ?_⟩ <;> rintro rfl <;> cases h

theorem isDigit_of_mem_toDigits (n : Nat) : ∀ c ∈ Nat.toDigits 10 n, c.isDigit = true := fun _ hc =>
  Nat.isDigit_of_mem_toDigits (by decide) (by decide) hc

theorem plainChar_of_mem_toDigits (n : Nat) : ∀ c ∈ Nat.toDigits 10 n, PlainChar c := fun c hc =>
  plainChar_of_isDigit (isDigit_of_mem_toDigits n c hc)

theorem byteOfNumber_of_isDigit {cs : List Char} (hne : cs ≠ []) (h : ∀ c ∈ cs, c.isDigit = true)
    (hfit : Nat.ofDigitChars 10 cs 0 < 256) : byteOfNumber cs = some (BitVec.ofNat 8 (Nat.ofDigitChars 10 cs 0)) := by
  have hnumber := numberOfDigits_of_isDigit h 0
  cases cs with
  | nil => exact absurd rfl hne
  | cons c ds =>
    have hdecimal : ∀ e es, c = '0' → ds = 'x' :: e :: es → False := by
      rintro e es - rfl
      exact absurd (h 'x' (by simp)) (by decide)
    simp [byteOfNumber, hnumber, hfit]

/-- The decimal number of a byte reads back as the byte. -/
theorem byteOfNumber_toDigits (v : Byte) : byteOfNumber (Nat.toDigits 10 v.toNat) = some v := by
  have hvalue : Nat.ofDigitChars 10 (Nat.toDigits 10 v.toNat) 0 = v.toNat := Nat.ofDigitChars_ten_toDigits
  rw [byteOfNumber_of_isDigit Nat.toDigits_ne_nil (isDigit_of_mem_toDigits _) (by rw [hvalue]; exact v.isLt), hvalue,
    BitVec.ofNat_toNat, BitVec.setWidth_eq]

theorem symOperand_of_plain {cs : List Char} (h : ∀ c ∈ cs, PlainChar c) : symOperand cs = byteOfNumber cs := by
  unfold symOperand
  split
  · next c => exact absurd rfl (h '\'' (by simp)).2.2.2
  · rfl

theorem parseLine_number {m : List Char} (hne : m ≠ []) (hm : ∀ c ∈ m, PlainChar c) (n : Nat) :
    parseLine (m ++ ' ' :: Nat.toDigits 10 n) = commandsOf m (Nat.toDigits 10 n) := by
  have hplain := plainChar_of_mem_toDigits n
  exact parseLine_operand hne hm (stripComment_plain hplain) Nat.toDigits_ne_nil
    (fun h => (hplain _ (List.mem_of_head? h)).1 rfl) (fun h => (hplain _ (List.mem_of_getLast? h)).1 rfl)

theorem parseLine_lineOf (i : Instr) : parseLine (lineOf i) = some [i] := by
  cases i with
  | dStart | dEnd | eStart | eEnd => decide
  | dBit v =>
    calc parseLine (lineOf (.dBit v)) = commandsOf "D_BIT".toList (Nat.toDigits 10 v.toNat) :=
          parseLine_number (m := "D_BIT".toList) (by decide) (plain_of_all rfl) _
      _ = some [.dBit v] := by rw [commandsOf_dBit, byteOfNumber_toDigits, Option.map_some]
  | eSym b =>
    calc parseLine (lineOf (.eSym b)) = commandsOf "E_SYM".toList (Nat.toDigits 10 b.toNat) :=
          parseLine_number (m := "E_SYM".toList) (by decide) (plain_of_all rfl) _
      _ = some [.eSym b] := by
        rw [commandsOf_eSym, symOperand_of_plain (plainChar_of_mem_toDigits b.toNat), byteOfNumber_toDigits,
          Option.map_some]

/-! ### Pseudo-commands (R106) -/

theorem unquote_quoted {cs : List Char} (h : '"' ∉ cs) : unquote ('"' :: (cs ++ ['"'])) = some cs := by
  simp [unquote, h]

theorem parseLine_stringLine {m : String} {cs : List Char} (hne : m.toList ≠ []) (hm : ∀ c ∈ m.toList, PlainChar c)
    (h : '"' ∉ cs) : parseLine (stringLine m cs) = commandsOf m.toList ('"' :: (cs ++ ['"'])) := by
  have hcomment : stripComment false ('"' :: (cs ++ ['"'])) = '"' :: (cs ++ ['"']) := by
    rw [stripComment_cons (by decide) (by decide), beq_self_eq_true, stripComment_inString h]
  refine parseLine_operand hne hm hcomment (List.cons_ne_nil _ _) (by simp) ?_
  rw [← List.cons_append, List.getLast?_concat]
  decide

theorem bitsOfChars_charOfBit (B : List Bool) : bitsOfChars (B.map charOfBit) = some B := by
  induction B with
  | nil => rfl
  | cons b B ih => cases b <;> simp [bitsOfChars, ih, charOfBit]

theorem quote_notMem_charOfBit (B : List Bool) : '"' ∉ B.map charOfBit := by
  simp [charOfBit]

theorem byteOfChar_ofNat {b : Byte} (h : b.toNat < 128) : byteOfChar (Char.ofNat b.toNat) = some b := by
  have hvalid : b.toNat.isValidChar := .inl (by omega)
  simp [byteOfChar, Char.toNat_ofNat, hvalid, h]

theorem bytesOfChars_ofNat {X : List Byte} (h : ∀ b ∈ X, b.toNat < 128) :
    bytesOfChars (X.map (fun b => Char.ofNat b.toNat)) = some X := by
  induction X with
  | nil => rfl
  | cons b X ih =>
    obtain ⟨hb, hX⟩ := List.forall_mem_cons.1 h
    simp [bytesOfChars, byteOfChar_ofNat hb, ih hX]

theorem quote_notMem_ofNat {X : List Byte} (h : ∀ b ∈ X, b.toNat < 128 ∧ b ≠ 0x22#8) :
    '"' ∉ X.map (fun b => Char.ofNat b.toNat) := by
  intro hq
  obtain ⟨b, hb, hchar⟩ := List.mem_map.1 hq
  obtain ⟨hlt, hne⟩ := h b hb
  have hbyte := byteOfChar_ofNat hlt
  rw [hchar] at hbyte
  exact hne (Option.some.inj hbyte).symm

section
variable {m : String} (hne : m.toList ≠ []) (hm : ∀ c ∈ m.toList, PlainChar c)
include hne hm

/-- The line of a pseudo-command on a bit string. -/
theorem parseLine_bitString {f : List Bool → List Instr}
    (hf : ∀ o, commandsOf m.toList o = ((unquote o).bind bitsOfChars).map f) (B : List Bool) :
    parseLine (stringLine m (B.map charOfBit)) = some (f B) := by
  have hquote := quote_notMem_charOfBit B
  rw [parseLine_stringLine hne hm hquote, hf, unquote_quoted hquote, Option.bind_some, bitsOfChars_charOfBit,
    Option.map_some]

/-- The line of a pseudo-command on a string of ASCII characters. -/
theorem parseLine_byteString {f : List Byte → List Instr}
    (hf : ∀ o, commandsOf m.toList o = ((unquote o).bind bytesOfChars).map f) {X : List Byte}
    (hX : ∀ b ∈ X, b.toNat < 128 ∧ b ≠ 0x22#8) :
    parseLine (stringLine m (X.map (fun b => Char.ofNat b.toNat))) = some (f X) := by
  have hquote := quote_notMem_ofNat hX
  rw [parseLine_stringLine hne hm hquote, hf, unquote_quoted hquote, Option.bind_some,
    bytesOfChars_ofNat fun b hb => (hX b hb).1, Option.map_some]

end

/-! ### One port a stream (R105) -/

/-- The port the first two characters name. -/
def leadingPort : List Char → Option Port
  | 'D' :: '_' :: _ => some .dec
  | 'E' :: '_' :: _ => some .enc
  | _ => none

theorem linePort_eq (cs : List Char) : linePort cs = leadingPort (lineText cs) := rfl

theorem leadingPort_takeWhile {cs : List Char} {p : Port} (h : leadingPort cs = some p) :
    leadingPort (cs.takeWhile (· != ' ')) = some p := by
  unfold leadingPort at h
  split at h <;> cases h <;> rfl

theorem streamWellFormed_map {α : Type} {p : Port} {f : α → Instr} (h : ∀ a, (f a).port = p) (l : List α) :
    streamWellFormed p (l.map f) = true := by
  simp [streamWellFormed, Instr.wellFormed, h]

theorem streamWellFormed_append (p : Port) (is js : List Instr) :
    streamWellFormed p (is ++ js) = (streamWellFormed p is && streamWellFormed p js) := List.all_append

theorem streamWellFormed_cons (p : Port) (i : Instr) (js : List Instr) :
    streamWellFormed p (i :: js) = (decide (i.port = p) && streamWellFormed p js) := rfl

theorem streamWellFormed_dBits (B : List Bool) : streamWellFormed .dec (dBits B) = true :=
  streamWellFormed_map (f := fun b => .dBit (symbolOfBit b)) (fun _ => rfl) B

theorem streamWellFormed_dDecode (B : List Bool) : streamWellFormed .dec (dDecode B) = true := by
  rw [dDecode, streamWellFormed_cons, streamWellFormed_append, streamWellFormed_dBits]
  rfl

theorem streamWellFormed_eStr (X : List Byte) : streamWellFormed .enc (eStr X) = true :=
  streamWellFormed_map (f := .eSym) (fun _ => rfl) X

theorem streamWellFormed_eEncode (X : List Byte) : streamWellFormed .enc (eEncode X) = true := by
  rw [eEncode, streamWellFormed_cons, streamWellFormed_append, streamWellFormed_eStr]
  rfl

theorem wellFormed_of_bare {p : Port} {i : Instr} {o : List Char} {is : List Instr} (hi : i.port = p)
    (h : (if o = [] then some [i] else none) = some is) : streamWellFormed p is = true := by
  obtain ⟨-, his⟩ := Option.ite_none_right_eq_some.1 h
  cases his
  rw [streamWellFormed_cons, decide_eq_true hi]
  rfl

theorem wellFormed_of_map {α : Type} {p : Port} {f : α → List Instr} {x : Option α} {is : List Instr}
    (hf : ∀ a, streamWellFormed p (f a) = true) (h : x.map f = some is) : streamWellFormed p is = true := by
  obtain ⟨a, -, rfl⟩ := Option.map_eq_some_iff.1 h
  exact hf a

/-- A mnemonic names its port, and all its commands are that port's. -/
theorem commandsOf_wellFormed {m o : List Char} {is : List Instr} (h : commandsOf m o = some is) :
    ∃ p, leadingPort m = some p ∧ streamWellFormed p is = true := by
  unfold commandsOf at h
  rcases ite_eq_iff.1 h with ⟨rfl, ho⟩ | ⟨-, h⟩
  · exact ⟨_, rfl, wellFormed_of_bare rfl ho⟩
  rcases ite_eq_iff.1 h with ⟨rfl, ho⟩ | ⟨-, h⟩
  · exact ⟨_, rfl, wellFormed_of_map (fun _ => rfl) ho⟩
  rcases ite_eq_iff.1 h with ⟨rfl, ho⟩ | ⟨-, h⟩
  · exact ⟨_, rfl, wellFormed_of_bare rfl ho⟩
  rcases ite_eq_iff.1 h with ⟨rfl, ho⟩ | ⟨-, h⟩
  · exact ⟨_, rfl, wellFormed_of_bare rfl ho⟩
  rcases ite_eq_iff.1 h with ⟨rfl, ho⟩ | ⟨-, h⟩
  · exact ⟨_, rfl, wellFormed_of_map (fun _ => rfl) ho⟩
  rcases ite_eq_iff.1 h with ⟨rfl, ho⟩ | ⟨-, h⟩
  · exact ⟨_, rfl, wellFormed_of_bare rfl ho⟩
  rcases ite_eq_iff.1 h with ⟨rfl, ho⟩ | ⟨-, h⟩
  · exact ⟨_, rfl, wellFormed_of_map streamWellFormed_dBits ho⟩
  rcases ite_eq_iff.1 h with ⟨rfl, ho⟩ | ⟨-, h⟩
  · exact ⟨_, rfl, wellFormed_of_map streamWellFormed_dDecode ho⟩
  rcases ite_eq_iff.1 h with ⟨rfl, ho⟩ | ⟨-, h⟩
  · exact ⟨_, rfl, wellFormed_of_map streamWellFormed_eStr ho⟩
  rcases ite_eq_iff.1 h with ⟨rfl, ho⟩ | ⟨-, h⟩
  · exact ⟨_, rfl, wellFormed_of_map streamWellFormed_eEncode ho⟩
  cases h

theorem parseLine_wellFormed {line : List Char} {is : List Instr} {p : Port} (h : parseLine line = some is)
    (hp : linePort line = some p ∨ lineText line = []) : streamWellFormed p is = true := by
  simp only [parseLine] at h
  split at h
  · cases h; rfl
  · next hne =>
    obtain ⟨q, hq, his⟩ := commandsOf_wellFormed h
    rw [linePort_eq] at hp
    have hport := leadingPort_takeWhile (hp.resolve_right hne)
    rwa [Option.some.inj (hport.symm.trans hq)]

theorem parseStream_wellFormed {p : Port} {lines : List (List Char)} {is : List Instr}
    (h : parseStream p lines = some is) : streamWellFormed p is = true := by
  induction lines generalizing is with
  | nil => cases h; rfl
  | cons line lines ih =>
    rw [parseStream] at h
    split at h
    · next hp =>
      split at h
      · next is js his hjs =>
        cases h
        rw [streamWellFormed_append, parseLine_wellFormed his hp, ih hjs, Bool.and_self]
      · cases h
    · cases h

theorem parseStream_of_other_port {p q : Port} {line : List Char} (hq : linePort line = some q) (hne : q ≠ p)
    (before after : List (List Char)) : parseStream p (before ++ line :: after) = none := by
  induction before with
  | nil =>
    have htext : lineText line ≠ [] := fun h => by simp [linePort, h] at hq
    simp [parseStream, hq, hne, htext]
  | cons l before ih =>
    rw [List.cons_append, parseStream, ih]
    cases parseLine l <;> simp

end Sys2Proof.Machine

/-! ### The obligations -/

namespace Sys2Proof.Proofs

open Sys2Proof.Machine Sys2Proof.Safety

/-- Settles O4: decoding a command is the inverse of encoding it, and well-formedness is the port test. -/
theorem decodeEncodeAgree : Obligations.DecodeEncodeAgree := by
  intro p w i
  rw [decode_eq_command_iff, Instr.wellFormed, decide_eq_true_iff]

/-- Settles O3: each word is the encoding of its command, and the reserved ones lie above END's. -/
theorem decodeOfSpecWords : Obligations.DecodeOfSpecWords := by
  refine ⟨decode_encode .dStart, decode_encode (.dBit 0x00#8), decode_encode (.dBit 0x01#8),
    decode_encode (.dBit 0x32#8), decode_encode .dEnd, decode_encode (.eSym 0x68#8), decode_encode (.eSym 0xFF#8),
    decode_encode .eStart, decode_encode .eEnd, fun p => ?_⟩
  simp [decode_eq_reserved_iff_toNat]

/-- Settles O5: the rows ask what R95's tests ask, and the reserved words are counted by number. -/
theorem decodeFollowsTheOpcodeTable : Obligations.DecodeFollowsTheOpcodeTable :=
  ⟨matchingMnemonics_eq, reserved_count⟩

/-- Settles O9: the reserved words by their fields; the step takes one and keeps the state. -/
theorem reservedWordChangesNothing : Obligations.ReservedWordChangesNothing :=
  ⟨fun _ _ => decode_eq_reserved_iff, fun _ _ _ _ hin hd => (step_cons hin).trans (takeEvent_reserved hd _)⟩

/-- Settles O38, field by field on the composed words; the spec's examples compute. -/
theorem treeWordFields : Obligations.TreeWordFields :=
  ⟨fun l r => ⟨kindOf_internalWord l r, leftOf_internalWord l r, rightOf_internalWord l r,
      treeWordWellFormed_of_internal (kindOf_internalWord l r)⟩,
    fun s => ⟨kindOf_leafWord s, symOf_leafWord s, treeWordWellFormed_leafWord s⟩, rfl, rfl, rfl, rfl⟩

/-- Settles O39, from the place of each bit of a composed entry. -/
theorem codeEntryFields : Obligations.CodeEntryFields := fun _ hp =>
  ⟨clenOf_codeEntry hp, codeOf_codeEntry hp, codeEntryWellFormed_codeEntry hp⟩

/-- Settles O40: the reads answer words alike in all that a command looks at. -/
theorem ignoredBitsHaveNoEffect : Obligations.IgnoredBitsHaveNoEffect := fun i _ =>
  ⟨fun _ h => exec_withTmem h i, fun _ h => exec_withCtab h i⟩

/-- Settles O6: the line splits into mnemonic and number, and the decimal digits of a byte read back as the byte. -/
theorem commandLinesReadBack : Obligations.CommandLinesReadBack := parseLine_lineOf

/-- Settles O7: inside the quotes nothing opens a comment, and the characters read back as the bits or bytes. -/
theorem pseudoCommandsExpand : Obligations.PseudoCommandsExpand :=
  ⟨fun B =>
    ⟨parseLine_bitString (m := "D_BITS") (by decide) (plain_of_all rfl) commandsOf_dBits B,
      parseLine_bitString (m := "D_DECODE") (by decide) (plain_of_all rfl) commandsOf_dDecode B⟩,
    fun _ hX =>
    ⟨parseLine_byteString (m := "E_STR") (by decide) (plain_of_all rfl) commandsOf_eStr hX,
      parseLine_byteString (m := "E_ENCODE") (by decide) (plain_of_all rfl) commandsOf_eEncode hX⟩⟩

/-- Settles O55: a line's commands are of the port its mnemonic names, which is the port its text names. -/
theorem streamHoldsOnePrefix : Obligations.StreamHoldsOnePrefix :=
  ⟨fun _ _ _ => parseStream_wellFormed, fun _ _ _ before after hq hne => parseStream_of_other_port hq hne before after⟩

end Sys2Proof.Proofs
end

section
/-! SUPPORT. Proofs of the statements of 40_host_reference.md on runs: a decoder run computes `dec` (R143), an
encoder run computes `enc` (R142), and the round trip through both engines for matching images (R151). -/

namespace Sys2Proof.Machine

/-! ### Streams of commands (R105) -/

theorem walkTo_setInbox (c : NodeIdx) (m : TreeWord) (evs : List HostEvent) (s : State) :
    walkTo c m (s.setInbox evs) = mapNext (·.setInbox evs) (walkTo c m s) := by
  unfold walkTo
  dsimp only [State.setInbox_dec]
  cases countUp s.dec.dpos 1 with
  | none => rfl
  | some pos =>
    cases kindOf m with
    | internal => rfl
    | leaf => cases countUp s.dec.dsyms 1 <;> rfl

/-- No command reads or changes what the host has yet to do. -/
theorem exec_setInbox (i : Instr) (evs : List HostEvent) (s : State) :
    exec i (s.setInbox evs) = mapNext (·.setInbox evs) (exec i s) := by
  cases i with
  | dStart | eStart => rfl
  | dBit v =>
    rw [exec_dBit, exec_dBit]
    rcases execDBit_cases v s with
      ⟨hr, h⟩ | ⟨hr, hv, h⟩ | ⟨hr, b, hb, ⟨hn, h⟩ | ⟨n, hn, ⟨hk, h⟩ | ⟨hk, ⟨hm, h⟩ | ⟨m, hm, h⟩⟩⟩⟩ <;> rw [h]
    · exact execDBit_of_not_run (s := s.setInbox evs) hr v
    · exact execDBit_malformed (s := s.setInbox evs) hr hv
    · exact execDBit_unwritten_node (s := s.setInbox evs) hr hb hn
    · exact execDBit_leaf (s := s.setInbox evs) hr hb hn hk
    · exact execDBit_unwritten_child (s := s.setInbox evs) hr hb hn hk hm
    · rw [execDBit_walk (s := s.setInbox evs) hr hb hn hk hm, walkTo_setInbox]
  | dEnd =>
    rw [exec_dEnd, exec_dEnd]
    rcases execDEnd_cases s with ⟨hr, h⟩ | ⟨hr, hc, h⟩ | ⟨hr, hc, h⟩ <;> rw [h]
    · exact execDEnd_of_not_run (s := s.setInbox evs) hr
    · exact execDEnd_root (s := s.setInbox evs) hr hc
    · exact execDEnd_midPath (s := s.setInbox evs) hr hc
  | eSym b =>
    rw [exec_eSym, exec_eSym]
    rcases execESym_cases b s with
      ⟨hr, h⟩ | ⟨hr, hn, h⟩ | ⟨hr, c, hc, ⟨h0, h⟩ | ⟨h0, hlimit, h⟩ | ⟨h0, hbits, hpos, h⟩⟩ <;> rw [h]
    · exact execESym_of_not_run (s := s.setInbox evs) hr b
    · exact execESym_unwritten (s := s.setInbox evs) hr hn
    · exact execESym_noCode (s := s.setInbox evs) hr hc h0
    · exact execESym_refused (s := s.setInbox evs) hr hc h0 hlimit
    · exact execESym_append (s := s.setInbox evs) hr hc h0 hbits hpos
  | eEnd =>
    rw [exec_eEnd, exec_eEnd]
    rcases execEEnd_cases s with ⟨hr, h⟩ | ⟨hr, h⟩ <;> rw [h]
    · exact execEEnd_of_not_run (s := s.setInbox evs) hr
    · exact execEEnd_run (s := s.setInbox evs) hr

theorem execAll_cons_next {i : Instr} {is : List Instr} {s t : State} (h : exec i s = .next t) :
    execAll (i :: is) s = execAll is t := by
  simp [execAll, h]

/-- A stream none of whose commands does anything leaves the state. -/
theorem execAll_of_ignored {is : List Instr} {s : State} (h : ∀ i ∈ is, exec i s = .next s) :
    execAll is s = .next s := by
  induction is with
  | nil => rfl
  | cons i is ih =>
    rw [execAll_cons_next (h i List.mem_cons_self)]
    exact ih fun j hj => h j (List.mem_cons_of_mem _ hj)

/-- The steps that take a presented stream run its commands one after the other. -/
theorem runSteps_present {is : List Instr} {s : State} {rest : List HostEvent} (h : s.inbox = present is ++ rest) :
    runSteps is.length s = execAll is (s.setInbox rest) := by
  induction is generalizing s with
  | nil =>
    subst h
    rfl
  | cons i is ih =>
    have hstep : step s = mapNext (·.setInbox (present is ++ rest)) (exec i s) :=
      (step_command h).trans (exec_setInbox i _ s)
    rw [List.length_cons, runSteps, execAll, hstep, exec_setInbox]
    cases exec i s with
    | next t => exact ih (s := t.setInbox (present is ++ rest)) rfl
    | fault f => rfl
    | refused r => rfl

/-! ### The decoder's run against `dec` (R143) -/

section
variable {root : Shape} {v : Byte} {b : Bool} (atRoot : Bool) (S out : List Byte)

theorem decGo_malformed (n : Shape) (hv : bitOfSymbol v = none) :
    decGo root n atRoot (v :: S) out = .error .malformedBit := by
  simp [decGo, hv]

theorem decGo_leaf (s : Byte) (hv : bitOfSymbol v = some b) :
    decGo root (.leaf s) atRoot (v :: S) out = .error .treeFault := by
  simp [decGo, hv]

theorem decGo_emit {l r : Shape} {s : Byte} (hv : bitOfSymbol v = some b) (hc : (if b then r else l) = .leaf s) :
    decGo root (.internal l r) atRoot (v :: S) out = decGo root root true S (out ++ [s]) := by
  simp [decGo, hv, hc]

theorem decGo_descend {l r l' r' : Shape} (hv : bitOfSymbol v = some b)
    (hc : (if b then r else l) = .internal l' r') :
    decGo root (.internal l r) atRoot (v :: S) out = decGo root (.internal l' r') false S out := by
  simp [decGo, hv, hc]

end

theorem TreeOf.of_leaf {M : Cells 19} {i : NodeIdx} {s : Byte} (h : TreeOf M i (.leaf s)) :
    ∃ w, Memory.read M i.toNat = some w ∧ kindOf w = .leaf ∧ symOf w = s := by
  cases h with
  | leaf _ w hw hk => exact ⟨w, hw, hk, rfl⟩

theorem TreeOf.of_internal {M : Cells 19} {i : NodeIdx} {l r : Shape} (h : TreeOf M i (.internal l r)) :
    ∃ w, Memory.read M i.toNat = some w ∧ kindOf w = .internal ∧
      ∀ b : Bool, TreeOf M (childOf w b) (if b then r else l) := by
  cases h with
  | internal _ w _ _ hw hk hl hr => exact ⟨w, hw, hk, fun b => by cases b <;> assumption⟩

theorem shapeNodes_child_lt (l r : Shape) (b : Bool) :
    Safety.shapeNodes (if b then r else l) < Safety.shapeNodes (.internal l r) := by
  cases b
  · exact Nat.lt_succ_of_le (Nat.le_add_right _ _)
  · exact Nat.lt_succ_of_le (Nat.le_add_left _ _)

/-- How a decoder run on `n` bit symbols ends when `dec` gives the answer: well with its bytes, or in its error kind
(R144 (b)). -/
def DecRunEnds (n : Nat) (t : State) : Except ErrKind (List Byte) → Prop
  | .ok out => Safety.DecEndsWell t ∧ t.dec.dout = out ∧ t.dec.dpos.toNat = n ∧ t.dec.dsyms.toNat = out.length
  | .error k => Safety.DecEndsInError t k

/-- The state with a leaf's symbol emitted and the walk back at the root (R195). -/
def State.emitSym (s : State) (x : Byte) : State :=
  s.setDec { s.dec with
    dpos := s.dec.dpos + 1#64, dsyms := s.dec.dsyms + 1#64, dcur := 0#9, dout := s.dec.dout ++ [x] }

/-- The state with the walk gone on to the internal child at `c` (R195). -/
def State.walkOn (s : State) (c : NodeIdx) : State := s.setDec { s.dec with dpos := s.dec.dpos + 1#64, dcur := c }

/-- The engine in a run stands where `go(n, S, out)` of R143 does: on the node `n`, at the root exactly when it says
so. The last clause keeps the walk from coming back to index 0 below the root. -/
structure DecWalk (tree n : Shape) (atRoot : Bool) (s : State) : Prop where
  run : s.dec.dstate = .run
  root : TreeOf s.dec.tmem 0#9 tree
  node : TreeOf s.dec.tmem s.dec.dcur n
  atRoot : atRoot = decide (s.dec.dcur = 0#9)
  syms : s.dec.dsyms.toNat = s.dec.dout.length
  order : s.dec.dsyms.toNat ≤ s.dec.dpos.toNat
  below : Safety.shapeNodes n ≤ Safety.shapeNodes tree

theorem decWalk_start {s : State} {T : Shape} (h : TreeOf s.dec.tmem 0#9 T) : DecWalk T T true (startDec s) :=
  ⟨rfl, h, h, rfl, rfl, le_rfl, le_rfl⟩

/-- A subtree with fewer nodes than the whole tree does not stand at index 0. -/
theorem ne_zero_of_shapeNodes_lt {M : Cells 19} {c : NodeIdx} {tree n : Shape} (hroot : TreeOf M 0#9 tree)
    (hn : TreeOf M c n) (hlt : Safety.shapeNodes n < Safety.shapeNodes tree) : c ≠ 0#9 := by
  rintro rfl
  rw [hroot.unique hn] at hlt
  exact lt_irrefl _ hlt

section
variable {tree l r : Shape} {atRoot b : Bool} {s : State} {v : Byte}

/-- A bit that leads to a leaf. -/
theorem DecWalk.emit {x : Byte} (h : DecWalk tree (.internal l r) atRoot s) (hv : bitOfSymbol v = some b)
    (hc : (if b then r else l) = .leaf x) (hfit : s.dec.dpos.toNat + 1 < 2 ^ 64) :
    exec (.dBit v) s = .next (s.emitSym x) ∧ DecWalk tree tree true (s.emitSym x) := by
  obtain ⟨w, hw, hk, hchild⟩ := h.node.of_internal
  obtain ⟨m, hm, hkm, rfl⟩ := (hc ▸ hchild b).of_leaf
  have hsyms : s.dec.dsyms.toNat + 1 < 2 ^ 64 := lt_of_le_of_lt (Nat.succ_le_succ h.order) hfit
  have hpos' := toNat_add_of_lt hfit
  have hsyms' := toNat_add_of_lt hsyms
  constructor
  · rw [exec_dBit, execDBit_walk h.run hv hw hk hm]
    rcases walkTo_cases (childOf w b) m s with ⟨-, hlimit⟩ | ⟨-, hi, -⟩ | ⟨-, -, -, hx⟩
    · omega
    · cases hkm.symm.trans hi
    · exact hx
  · exact ⟨h.run, h.root, h.root, rfl, by simp [State.emitSym, hsyms', h.syms],
      by simpa [State.emitSym, hsyms', hpos'] using h.order, le_rfl⟩

/-- A bit that leads to an internal child. -/
theorem DecWalk.descend {l' r' : Shape} (h : DecWalk tree (.internal l r) atRoot s) (hv : bitOfSymbol v = some b)
    (hc : (if b then r else l) = .internal l' r') (hfit : s.dec.dpos.toNat + 1 < 2 ^ 64) :
    ∃ c, exec (.dBit v) s = .next (s.walkOn c) ∧ DecWalk tree (.internal l' r') false (s.walkOn c) := by
  obtain ⟨w, hw, hk, hchild⟩ := h.node.of_internal
  have hsub : TreeOf s.dec.tmem (childOf w b) (.internal l' r') := hc ▸ hchild b
  obtain ⟨m, hm, hkm, -⟩ := hsub.of_internal
  have hlt := lt_of_lt_of_le (hc ▸ shapeNodes_child_lt l r b) h.below
  have hpos' := toNat_add_of_lt hfit
  refine ⟨childOf w b, ?_, ?_⟩
  · rw [exec_dBit, execDBit_walk h.run hv hw hk hm]
    rcases walkTo_cases (childOf w b) m s with ⟨-, hlimit | ⟨hl, -⟩⟩ | ⟨-, -, hx⟩ | ⟨-, -, hl, -⟩
    · omega
    · cases hkm.symm.trans hl
    · exact hx
    · cases hkm.symm.trans hl
  · exact ⟨h.run, h.root, hsub, (decide_eq_false (ne_zero_of_shapeNodes_lt h.root hsub hlt)).symm, h.syms,
      by simpa [State.walkOn, hpos'] using Nat.le_succ_of_le h.order, hlt.le⟩

end

/-- Once a run has ended, the rest of its stream is ignored (R204). -/
theorem execAll_dBits_of_not_run {s : State} (hr : s.dec.dstate ≠ .run) (S : List Byte) :
    execAll (S.map .dBit ++ [.dEnd]) s = .next s := by
  refine execAll_of_ignored fun i hi => ?_
  rcases List.mem_append.1 hi with hi | hi
  · obtain ⟨v, -, rfl⟩ := List.mem_map.1 hi
    exact execDBit_of_not_run hr v
  · rw [List.mem_singleton.1 hi]
    exact execDEnd_of_not_run hr

/-- From where `go(n, S, out)` stands, the engine ends the run as `go` says. -/
theorem DecWalk.execAll_dBits {tree n : Shape} {atRoot : Bool} {S : List Byte} {s : State} {k : Nat}
    (h : DecWalk tree n atRoot s) (hk : s.dec.dpos.toNat + S.length = k) (hfit : k < 2 ^ 64) :
    ∃ t, execAll (S.map .dBit ++ [.dEnd]) s = .next t ∧ t.inbox = s.inbox ∧ t.enc = s.enc ∧
      t.dec.tmem = s.dec.tmem ∧ DecRunEnds k t (decGo tree n atRoot S s.dec.dout) := by
  induction S generalizing s n atRoot with
  | nil =>
    rw [decGo, h.atRoot]
    by_cases h0 : s.dec.dcur = 0#9
    · refine ⟨_, execAll_cons_next (execDEnd_root h.run h0), rfl, rfl, rfl, ?_⟩
      rw [if_pos (decide_eq_true h0)]
      exact ⟨rfl, rfl, hk, h.syms⟩
    · refine ⟨_, execAll_cons_next (execDEnd_midPath h.run h0), rfl, rfl, rfl, ?_⟩
      rw [if_neg (by simpa using h0)]
      exact ⟨rfl, rfl⟩
  | cons v S ih =>
    rw [List.map_cons, List.cons_append]
    rw [List.length_cons] at hk
    cases hv : bitOfSymbol v with
    | none =>
      have hx : exec (.dBit v) s = _ := execDBit_malformed h.run hv
      rw [execAll_cons_next hx, execAll_dBits_of_not_run (by simp), decGo_malformed _ _ _ _ hv]
      exact ⟨_, rfl, rfl, rfl, rfl, rfl, rfl⟩
    | some b =>
      cases n with
      | leaf x =>
        obtain ⟨w, hw, hleaf, -⟩ := h.node.of_leaf
        have hx : exec (.dBit v) s = _ := execDBit_leaf h.run hv hw hleaf
        rw [execAll_cons_next hx, execAll_dBits_of_not_run (by simp), decGo_leaf _ _ _ _ hv]
        exact ⟨_, rfl, rfl, rfl, rfl, rfl, rfl⟩
      | internal l r =>
        have hpos : (s.dec.dpos + 1#64).toNat = s.dec.dpos.toNat + 1 := toNat_add_of_lt (by omega)
        cases hc : (if b then r else l) with
        | leaf x =>
          obtain ⟨hx, hwalk⟩ := h.emit hv hc (by omega)
          rw [execAll_cons_next hx, decGo_emit _ _ _ hv hc]
          exact ih hwalk (by rw [State.emitSym, State.setDec_dec, hpos]; omega)
        | internal l' r' =>
          obtain ⟨c, hx, hwalk⟩ := h.descend hv hc (by omega)
          rw [execAll_cons_next hx, decGo_descend _ _ _ hv hc]
          exact ih hwalk (by rw [State.walkOn, State.setDec_dec, hpos]; omega)

/-- A whole decoder run on an image of `T` computes `dec(T, S)` (R144 (b)). -/
theorem execAll_dRun {s : State} {T : Shape} {S : List Byte} (hT : TreeOf s.dec.tmem 0#9 T)
    (hlen : S.length < 2 ^ 64) :
    ∃ t, execAll (dRun S) s = .next t ∧ t.inbox = s.inbox ∧ t.enc = s.enc ∧ t.dec.tmem = s.dec.tmem ∧
      DecRunEnds S.length t (dec T S) := by
  have h := (decWalk_start hT).execAll_dBits (S := S) (Nat.zero_add _) hlen
  rwa [dRun, execAll_cons_next (exec_dStart s)]

@[simp] theorem dRun_length (S : List Byte) : (dRun S).length = S.length + 2 := by simp [dRun]
@[simp] theorem eEncode_length (X : List Byte) : (eEncode X).length = X.length + 2 := by simp [eEncode, eStr]

/-- The decoder run on a bit sequence is the one on its bit symbols. -/
theorem dDecode_eq_dRun (B : List Bool) : dDecode B = dRun (B.map symbolOfBit) := by
  simp [dDecode, dRun, dBits]

@[simp] theorem dDecode_length (B : List Bool) : (dDecode B).length = B.length + 2 := by simp [dDecode_eq_dRun]

/-! ### The encoder's output grows by the bits appended (R42, R166) -/

/-- With a bit set in the pending byte, on the free place of stream position `n`, position `n` reads as that bit and
every earlier one as before. -/
theorem packedBit_setPending {Y : List Byte} {acc : Byte} {n i : Nat} (v : Bool) (hlen : Y.length = n / 8)
    (hlow : ∀ k, k < 8 - n % 8 → acc.getLsbD k = false) (hi : i ≤ n) :
    packedBit (Y ++ [acc ||| ((BitVec.ofBool v).setWidth 8 <<< (7 - n % 8))]) i =
      if i = n then v else packedBit (Y ++ [acc]) i := by
  unfold packedBit
  rcases lt_or_eq_of_le (Nat.div_le_div_right (c := 8) hi) with hdiv | hdiv
  · rw [List.getD_append _ _ _ _ (by omega), List.getD_append _ _ _ _ (by omega), if_neg (by omega)]
  · by_cases hin : i = n
    · subst hin
      have hfree := hlow (7 - i % 8) (by omega)
      simp only [← hlen, List.getD_append_right _ _ _ _ le_rfl, Nat.sub_self, List.getD_cons_zero,
        BitVec.getLsbD_or, hfree]
      simp [show 7 - i % 8 < 8 by omega]
    · have hother : 7 - i % 8 - (7 - n % 8) ≠ 0 := by omega
      simp [hdiv, ← hlen, hin, hother]

theorem bitsOf_succ (Y : List Byte) (n : Nat) : bitsOf Y (n + 1) = bitsOf Y n ++ [packedBit Y n] := by
  simp [bitsOf, List.range_succ]

theorem bitsOf_setPending {Y : List Byte} {acc : Byte} {n : Nat} (v : Bool) (hlen : Y.length = n / 8)
    (hlow : ∀ k, k < 8 - n % 8 → acc.getLsbD k = false) :
    bitsOf (Y ++ [acc ||| ((BitVec.ofBool v).setWidth 8 <<< (7 - n % 8))]) (n + 1) = bitsOf (Y ++ [acc]) n ++ [v] := by
  rw [bitsOf_succ, packedBit_setPending v hlen hlow le_rfl, if_pos rfl]
  refine congrArg (· ++ [v]) (List.map_congr_left fun i hi => ?_)
  have hi := List.mem_range.1 hi
  rw [packedBit_setPending v hlen hlow hi.le, if_neg hi.ne]

end Sys2Proof.Machine

namespace Sys2Proof.Safety

open Sys2Proof.Machine

/-- `append_bit(v)` appends `v` to the encoded bits. -/
theorem OpenOutput.encodedBits_appendBit {e : Enc} (h : OpenOutput e) (v : Bool) (hfit : e.ebits.toNat + 1 < 2 ^ 64) :
    encodedBits (Machine.appendBit e v) = encodedBits e ++ [v] := by
  have hbits : (e.ebits + 1#64).toNat = e.ebits.toNat + 1 := toNat_add_of_lt hfit
  rw [encodedBits, encodedBits, ← bitsOf_setPending v h.bytes h.low, appendBit_eq]
  split
  · dsimp only
    rw [hbits, bitsOf_append_zero]
  · dsimp only
    rw [hbits]

theorem OpenOutput.encodedBits_appendBits {e : Enc} (h : OpenOutput e) {bs : List Bool}
    (hfit : e.ebits.toNat + bs.length < 2 ^ 64) :
    encodedBits (Machine.appendBits e bs) = encodedBits e ++ bs := by
  induction bs generalizing e with
  | nil => exact (List.append_nil _).symm
  | cons b bs ih =>
    rw [List.length_cons] at hfit
    have hbits : (Machine.appendBit e b).ebits.toNat = e.ebits.toNat + 1 := by
      obtain ⟨ys, hframe⟩ := appendBit_frame e b
      rw [hframe]
      exact toNat_add_of_lt (by omega)
    rw [appendBits_cons, ih (h.appendBit b (by omega)) (by omega), h.encodedBits_appendBit b (by omega),
      List.append_assoc, List.singleton_append]

theorem openOutput_start (s : State) : OpenOutput (startEnc s).enc :=
  ⟨by simp [startEnc], fun _ _ => BitVec.getLsbD_zero⟩

/-- The flushed output unpacks to the encoded bits (R42, R170). -/
theorem OpenOutput.unpack_flushBits {e : Enc} (h : OpenOutput e) :
    unpack (flushBits e).eout (flushBits e).ebits.toNat = some (encodedBits e) := by
  have hunpack := unpack_pack (encodedBits e)
  rwa [h.pack_encodedBits, ← flushBits_ebits e] at hunpack

end Sys2Proof.Safety

namespace Sys2Proof.Machine

/-! ### The encoder's run against `enc` (R142) -/

theorem enc_cons_of_none {CT : CodeTable} {b : Byte} (h : CT b = none) (X : List Byte) :
    enc CT (b :: X) = .error .internalEncoding := by
  simp [enc, h]

theorem enc_cons_of_some {CT : CodeTable} {b : Byte} {p : List Bool} (h : CT b = some p) (X : List Byte) :
    enc CT (b :: X) = (enc CT X).map (p ++ ·) := by
  cases hX : enc CT X <;> simp [enc, h, hX, Except.map]

/-- The length of a symbol's entry, 0 where none is written. -/
def codeLength (C : Cells 263) (b : Byte) : Nat :=
  match Memory.read C b.toNat with
  | some e => clenOf e
  | none => 0

theorem codeLength_of_read {C : Cells 263} {b : Byte} {e : CodeEntry} (h : Memory.read C b.toNat = some e) :
    codeLength C b = clenOf e := by
  simp [codeLength, h]

theorem tableOf_eq_none_of_read {C : Cells 263} {b : Byte} {e : CodeEntry} (h : Memory.read C b.toNat = some e)
    (h0 : clenOf e = 0) : tableOf C b = none := by
  simp [tableOf, h, h0]

theorem appendBits_ctab_eq (e : Enc) (bs : List Bool) : (appendBits e bs).ctab = e.ctab := by
  obtain ⟨ys, h⟩ := appendBits_frame e bs
  rw [h]

theorem flushBits_ctab_eq (e : Enc) : (flushBits e).ctab = e.ctab := by rw [flushBits_eq]

/-- The state with a code appended and the byte counted (R165). -/
def State.appendCode (s : State) (p : List Bool) : State :=
  s.setEnc { appendBits s.enc p with epos := s.enc.epos + 1#64 }

section
variable (s : State) (p : List Bool)

theorem State.appendCode_estate : (s.appendCode p).enc.estate = s.enc.estate := appendBits_estate s.enc p

theorem State.appendCode_ctab : (s.appendCode p).enc.ctab = s.enc.ctab := appendBits_ctab_eq s.enc p

theorem State.appendCode_epos (h : s.enc.epos.toNat + 1 < 2 ^ 64) :
    (s.appendCode p).enc.epos.toNat = s.enc.epos.toNat + 1 := toNat_add_of_lt h

variable {s p} (hfit : s.enc.ebits.toNat + p.length < 2 ^ 64)
include hfit

theorem State.appendCode_ebits : (s.appendCode p).enc.ebits.toNat = s.enc.ebits.toNat + p.length :=
  (congrArg BitVec.toNat (appendBits_ebits s.enc p)).trans (toNat_add_of_lt hfit)

theorem State.openOutput_appendCode (h : Safety.OpenOutput s.enc) : Safety.OpenOutput (s.appendCode p).enc := by
  obtain ⟨hbytes, hlow⟩ := h.appendBits hfit
  exact ⟨hbytes, hlow⟩

theorem State.encodedBits_appendCode (h : Safety.OpenOutput s.enc) :
    encodedBits (s.appendCode p).enc = encodedBits s.enc ++ p := h.encodedBits_appendBits hfit

end

/-- How an encoder run that has encoded `pos` bytes to the bits `A` ends on `X` when `enc` gives the answer: well with
the bits, or in error at the first byte with no entry (R144 (a), R173). -/
def EncRunEnds (CT : CodeTable) (A : List Bool) (pos : Nat) (X : List Byte) (t : State) :
    Except ErrKind (List Bool) → Prop
  | .ok B => Safety.EncEndsWell t ∧ unpack t.enc.eout t.enc.ebits.toNat = some (A ++ B) ∧
      t.enc.ebits.toNat = (A ++ B).length ∧ t.enc.epos.toNat = pos + X.length
  | .error k => k = .internalEncoding ∧ Safety.EncEndsInError t k ∧
      t.enc.epos.toNat = pos + X.findIdx (fun b => (CT b).isNone)

/-- With the first byte's code appended, the rest of the run ends as the whole one does. -/
theorem EncRunEnds.cons {CT : CodeTable} {A p : List Bool} {pos : Nat} {b : Byte} {X : List Byte} {t : State}
    (hp : CT b = some p) (h : EncRunEnds CT (A ++ p) (pos + 1) X t (enc CT X)) :
    EncRunEnds CT A pos (b :: X) t (enc CT (b :: X)) := by
  rw [enc_cons_of_some hp]
  cases hX : enc CT X with
  | ok B =>
    rw [hX] at h
    obtain ⟨hdone, hout, hbits, hpos⟩ := h
    rw [List.append_assoc] at hout hbits
    exact ⟨hdone, hout, hbits, by rw [hpos, List.length_cons]; omega⟩
  | error k =>
    rw [hX] at h
    obtain ⟨hk, herr, hpos⟩ := h
    exact ⟨hk, herr, by simp [hpos, List.findIdx_cons, hp]; omega⟩

/-- Once a run has ended, the rest of its stream is ignored (R174). -/
theorem execAll_eStr_of_not_run {s : State} (hr : s.enc.estate ≠ .run) (X : List Byte) :
    execAll (eStr X ++ [.eEnd]) s = .next s := by
  refine execAll_of_ignored fun i hi => ?_
  rcases List.mem_append.1 hi with hi | hi
  · obtain ⟨b, -, rfl⟩ := List.mem_map.1 hi
    exact execESym_of_not_run hr b
  · rw [List.mem_singleton.1 hi]
    exact execEEnd_of_not_run hr

/-- An engine in a run, with every entry written and room in the counters, ends the run as `enc` says. -/
theorem execAll_eStr {X : List Byte} {s : State} (hr : s.enc.estate = .run) (hopen : Safety.OpenOutput s.enc)
    (hw : AllWritten s.enc.ctab) (hbits : s.enc.ebits.toNat + (X.map (codeLength s.enc.ctab)).sum < 2 ^ 64)
    (hpos : s.enc.epos.toNat + X.length < 2 ^ 64) :
    ∃ t, execAll (eStr X ++ [.eEnd]) s = .next t ∧ t.inbox = s.inbox ∧ t.dec = s.dec ∧ t.enc.ctab = s.enc.ctab ∧
      EncRunEnds (tableOf s.enc.ctab) (encodedBits s.enc) s.enc.epos.toNat X t (enc (tableOf s.enc.ctab) X) := by
  induction X generalizing s with
  | nil =>
    refine ⟨_, execAll_cons_next (execEEnd_run hr), rfl, rfl, flushBits_ctab_eq _, rfl, ?_, ?_, ?_⟩
    · simpa using hopen.unpack_flushBits
    · simp [encodedBits]
    · simp
  | cons b X ih =>
    rw [List.map_cons, List.sum_cons] at hbits
    rw [List.length_cons] at hpos
    obtain ⟨e, he⟩ := hw b
    rw [codeLength_of_read he] at hbits
    by_cases h0 : clenOf e = 0
    · have hnone := tableOf_eq_none_of_read he h0
      have hx : exec (.eSym b) s = _ := execESym_noCode hr he h0
      rw [enc_cons_of_none hnone]
      refine ⟨_, (execAll_cons_next hx).trans (execAll_eStr_of_not_run (by simp) X), rfl, rfl, rfl, rfl, ⟨rfl, rfl⟩, ?_⟩
      simp [List.findIdx_cons, hnone]
    · have hx : exec (.eSym b) s = .next (s.appendCode (codeOf e)) :=
        execESym_append hr he h0 (by omega) (by omega)
      have hsome : tableOf s.enc.ctab b = some (codeOf e) := tableOf_eq_some.2 ⟨e, he, h0, rfl⟩
      have hctab := s.appendCode_ctab (codeOf e)
      have hpos' := s.appendCode_epos (codeOf e) (by omega)
      have hfit : s.enc.ebits.toNat + (codeOf e).length < 2 ^ 64 := by rw [codeOf_length]; omega
      obtain ⟨t, ht, hinbox, hdec, htab, hend⟩ := ih (s := s.appendCode (codeOf e))
        ((s.appendCode_estate _).trans hr) (State.openOutput_appendCode hfit hopen) (by rwa [hctab])
        (by rw [hctab, State.appendCode_ebits hfit, codeOf_length]; omega) (by omega)
      rw [hctab, hpos', State.encodedBits_appendCode hfit hopen] at hend
      exact ⟨t, (execAll_cons_next hx).trans ht, hinbox, hdec, htab.trans hctab, .cons hsome hend⟩

/-- A whole encoder run with every entry written computes `enc(CT, X)` (R144 (a)). -/
theorem execAll_eEncode {s : State} {X : List Byte} (hw : AllWritten s.enc.ctab)
    (hbits : (X.map (codeLength s.enc.ctab)).sum < 2 ^ 64) (hpos : X.length < 2 ^ 64) :
    ∃ t, execAll (eEncode X) s = .next t ∧ t.inbox = s.inbox ∧ t.dec = s.dec ∧ t.enc.ctab = s.enc.ctab ∧
      EncRunEnds (tableOf s.enc.ctab) [] 0 X t (enc (tableOf s.enc.ctab) X) := by
  rw [eEncode, execAll_cons_next (exec_eStart s)]
  exact execAll_eStr (s := startEnc s) rfl (Safety.openOutput_start s) hw
    (lt_of_eq_of_lt (Nat.zero_add _) hbits) (lt_of_eq_of_lt (Nat.zero_add _) hpos)

/-! ### Paths in an abstract tree (R63) -/

/-- The symbol of the leaf a path leads to: 0 takes the left child, 1 the right. -/
def symAt : Shape → List Bool → Option Byte
  | .leaf s, [] => some s
  | .leaf _, _ :: _ => none
  | .internal _ _, [] => none
  | .internal l r, b :: p => symAt (if b then r else l) p

/-- The leaves of an image are those of the tree it denotes. -/
theorem TreeOf.leaf_iff_symAt {M : Cells 19} {i : NodeIdx} {T : Shape} {p : List Bool} {s : Byte} (h : TreeOf M i T) :
    (∃ j w, nodeAt M i p = some j ∧ Memory.read M j.toNat = some w ∧ kindOf w = .leaf ∧ symOf w = s) ↔
      symAt T p = some s := by
  induction p generalizing i T with
  | nil =>
    cases h with
    | leaf _ w hw hk => simp [symAt, hw, hk]
    | internal _ w l r hw hk => simp [symAt, hw, hk]
  | cons b p ih =>
    cases T with
    | leaf x =>
      obtain ⟨w, hw, hk, -⟩ := h.of_leaf
      simp [symAt, nodeAt_cons_of_leaf hw hk]
    | internal l r =>
      obtain ⟨w, hw, hk, hchild⟩ := h.of_internal
      rw [nodeAt_cons_of_internal hw hk]
      exact ih (hchild b)

theorem leafAt_iff_symAt {M : Cells 19} {T : Shape} {p : List Bool} {s : Byte} (h : TreeOf M 0#9 T) :
    LeafAt M p s ↔ symAt T p = some s := h.leaf_iff_symAt

/-! ### `dec` undoes `enc` -/

/-- The bits of a path to a leaf make `go` emit the leaf's symbol. -/
theorem decGo_path {root l r : Shape} {p : List Bool} {s : Byte} (h : symAt (.internal l r) p = some s)
    (atRoot : Bool) (S out : List Byte) :
    decGo root (.internal l r) atRoot (p.map symbolOfBit ++ S) out = decGo root root true S (out ++ [s]) := by
  induction p generalizing l r atRoot with
  | nil => cases h
  | cons b p ih =>
    rw [symAt] at h
    cases hc : (if b then r else l) with
    | leaf x =>
      rw [hc] at h
      cases p with
      | nil =>
        obtain rfl := Option.some.inj h
        exact decGo_emit _ _ _ (bitOfSymbol_symbolOfBit b) hc
      | cons c p => cases h
    | internal l' r' =>
      rw [hc] at h
      exact (decGo_descend _ _ _ (bitOfSymbol_symbolOfBit b) hc).trans (ih h false)

/-- Where every byte's code is the path to its leaf, `enc` answers and `dec` gives the bytes back. -/
theorem exists_enc_dec {CT : CodeTable} {l r : Shape} {X : List Byte}
    (h : ∀ b ∈ X, ∃ p, CT b = some p ∧ symAt (.internal l r) p = some b) :
    ∃ B, enc CT X = .ok B ∧
      ∀ out, decGo (.internal l r) (.internal l r) true (B.map symbolOfBit) out = .ok (out ++ X) := by
  induction X with
  | nil => exact ⟨[], rfl, fun out => by simp [decGo]⟩
  | cons b X ih =>
    obtain ⟨p, hp, hpath⟩ := h b List.mem_cons_self
    obtain ⟨B, hB, hdec⟩ := ih fun c hc => h c (List.mem_cons_of_mem _ hc)
    refine ⟨p ++ B, by rw [enc_cons_of_some hp, hB]; rfl, fun out => ?_⟩
    rw [List.map_append, decGo_path hpath, hdec, List.append_assoc, List.singleton_append]

/-- The encoded sequence has the summed lengths of the codes. -/
theorem length_of_enc {C : Cells 263} {X : List Byte} {B : List Bool} (h : enc (tableOf C) X = .ok B) :
    B.length = (X.map (codeLength C)).sum := by
  induction X generalizing B with
  | nil => cases h; rfl
  | cons b X ih =>
    cases hp : tableOf C b with
    | none => rw [enc_cons_of_none hp] at h; cases h
    | some p =>
      obtain ⟨e, he, -, rfl⟩ := tableOf_eq_some.1 hp
      rw [enc_cons_of_some hp] at h
      cases hX : enc (tableOf C) X with
      | error k => rw [hX] at h; cases h
      | ok B' =>
        rw [hX] at h
        cases h
        simp [ih hX, codeLength_of_read he]

/-! ### Matching images (R68, R151) -/

theorem WfTree.exists_internal {M : Cells 19} (h : WfTree M) : ∃ l r, TreeOf M 0#9 (.internal l r) := by
  obtain ⟨T, hT⟩ := h.exists_treeOf (n := Config.tmemDepth) (p := []) (Nat.le_add_left _ _) nodeAt_nil
  cases T with
  | internal l r => exact ⟨l, r, hT⟩
  | leaf s =>
    obtain ⟨w, hw, hk⟩ := h.root
    obtain ⟨w', hw', hk', -⟩ := hT.of_leaf
    obtain rfl := Option.some.inj (hw.symm.trans hw')
    cases hk.symm.trans hk'

/-- The path to a symbol's leaf is its code; no path is empty, as the root is internal. -/
theorem Matches.tableOf_of_leafAt {M : Cells 19} {C : Cells 263} {b : Byte} {p : List Bool} (h : Matches M C)
    (hp : LeafAt M p b) : tableOf C b = some p := by
  obtain ⟨e, he, hcode, hlen⟩ := h.onLeaf b p hp
  obtain ⟨l, r, hT⟩ := h.wfTree.exists_internal
  refine tableOf_eq_some.2 ⟨e, he, fun h0 => ?_, hcode⟩
  obtain rfl := List.length_eq_zero_iff.1 (hlen.symm.trans h0)
  cases (leafAt_iff_symAt hT).1 hp

theorem codeLength_pos {C : Cells 263} {b : Byte} {p : List Bool} (h : tableOf C b = some p) :
    1 ≤ codeLength C b := by
  obtain ⟨e, he, h0, -⟩ := tableOf_eq_some.1 h
  rw [codeLength_of_read he]
  omega

/-- Bytes that all have a code are no more than the bits they encode to. -/
theorem length_le_sum_codeLength {C : Cells 263} {X : List Byte} (h : ∀ b ∈ X, ∃ p, tableOf C b = some p) :
    X.length ≤ (X.map (codeLength C)).sum := by
  have hone : ∀ n ∈ X.map (codeLength C), 1 ≤ n := fun n hn => by
    obtain ⟨b, hb, rfl⟩ := List.mem_map.1 hn
    obtain ⟨p, hp⟩ := h b hb
    exact codeLength_pos hp
  simpa using List.length_le_sum_of_one_le _ hone

section
variable {M : Cells 19} {C : Cells 263} {X : List Byte} (h : Matches M C) (hX : ∀ b ∈ X, ∃ p, LeafAt M p b)
include h hX

/-- Through matching images `enc` answers and `dec` gives the bytes back. -/
theorem Matches.exists_enc_dec :
    ∃ B T, enc (tableOf C) X = .ok B ∧ TreeOf M 0#9 T ∧ dec T (B.map symbolOfBit) = .ok X := by
  obtain ⟨l, r, hT⟩ := h.wfTree.exists_internal
  obtain ⟨B, hB, hdec⟩ := Machine.exists_enc_dec (CT := tableOf C) (l := l) (r := r) (X := X) fun b hb => by
    obtain ⟨p, hp⟩ := hX b hb
    exact ⟨p, h.tableOf_of_leafAt hp, (leafAt_iff_symAt hT).1 hp⟩
  exact ⟨B, _, hB, hT, hdec []⟩

/-- Round trip in the general form, for streams of commands run from any state with the image (R151). -/
theorem Matches.roundTrip (hbits : (X.map (codeLength C)).sum < 2 ^ 64) :
    ∃ B : List Bool, B.length = (X.map (codeLength C)).sum ∧
      (∀ s : State, s.enc.ctab = C → ∃ t, execAll (eEncode X) s = .next t ∧ t.inbox = s.inbox ∧
        EncRunEnds (tableOf C) [] 0 X t (.ok B)) ∧
      ∀ s : State, s.dec.tmem = M → ∃ t, execAll (dDecode B) s = .next t ∧ t.inbox = s.inbox ∧
        DecRunEnds B.length t (.ok X) := by
  obtain ⟨B, T, hB, hT, hdec⟩ := h.exists_enc_dec hX
  have hlen := length_of_enc hB
  refine ⟨B, hlen, ?_, ?_⟩
  · rintro s rfl
    have hX64 := length_le_sum_codeLength fun b hb => (hX b hb).imp fun p => h.tableOf_of_leafAt
    obtain ⟨t, hrun, hinbox, -, -, hend⟩ := execAll_eEncode h.allWritten hbits (hX64.trans_lt hbits)
    exact ⟨t, hrun, hinbox, hB ▸ hend⟩
  · rintro s rfl
    obtain ⟨t, hrun, hinbox, -, -, hend⟩ :=
      execAll_dRun (S := B.map symbolOfBit) hT (by rw [List.length_map, hlen]; exact hbits)
    rw [List.length_map, hdec] at hend
    exact ⟨t, by rwa [dDecode_eq_dRun], hinbox, hend⟩

end

end Sys2Proof.Machine

/-! ### The obligations -/

namespace Sys2Proof.Proofs

open Sys2Proof.Machine Sys2Proof.Safety

/-- Settles O43: the steps run the stream, and the engine stands where `go` does after every bit symbol. -/
theorem decRunComputesDec : Obligations.DecRunComputesDec := by
  intro s T S rest hT hlen hin
  obtain ⟨t, hrun, hinbox, henc, htmem, hend⟩ := execAll_dRun (s := s.setInbox rest) hT hlen
  refine ⟨t, ?_, hinbox, henc, htmem, fun out hout => ?_, fun k hk => ?_⟩
  · rw [← dRun_length S, runSteps_present hin, hrun]
  · rw [hout] at hend
    obtain ⟨hdone, hdout, hpos, -⟩ := hend
    exact ⟨hdone, hdout, hpos⟩
  · rwa [hk] at hend

/-- Settles O44: byte by byte, the engine appends the code `enc` takes, or stops where `enc` does. -/
theorem encRunComputesEnc : Obligations.EncRunComputesEnc := by
  intro s X rest hw hlen hbits hin
  obtain ⟨t, hrun, hinbox, hdec, hctab, hend⟩ := execAll_eEncode (s := s.setInbox rest) hw hbits hlen
  refine ⟨t, ?_, hinbox, hdec, hctab, fun B hB => ?_, fun k hk => ?_⟩
  · rw [← eEncode_length X, runSteps_present hin, hrun]
  · have hends : EncRunEnds _ _ _ _ _ (.ok B) := hB ▸ hend
    obtain ⟨hdone, hout, hcount, hpos⟩ := hends
    exact ⟨hdone, hout, hcount, hpos.trans (Nat.zero_add _)⟩
  · have hends : EncRunEnds _ _ _ _ _ (.error k) := hk ▸ hend
    obtain ⟨hkind, herr, hpos⟩ := hends
    exact ⟨hkind, herr, hpos.trans (Nat.zero_add _)⟩

/-- Settles O45: each run ends as its pure function does, and `dec` undoes `enc` as every code is a path to its leaf. -/
theorem roundTripUnderMatch : Obligations.RoundTripUnderMatch := by
  intro M C X h hX hbits
  obtain ⟨B, hlen, henc, hdec⟩ := h.roundTrip hX hbits
  refine ⟨B, hlen, fun s rest hs hin => ?_, fun s rest hs hin => ?_⟩
  · obtain ⟨t, hrun, hinbox, hdone, hout, hcount, -⟩ := henc (s.setInbox rest) hs
    exact ⟨t, by rw [← eEncode_length X, runSteps_present hin, hrun], hdone, hout, hcount, hinbox⟩
  · obtain ⟨t, hrun, hinbox, hdone, hout, hpos, hsyms⟩ := hdec (s.setInbox rest) hs
    exact ⟨t, by rw [← dDecode_length B, runSteps_present hin, hrun], hdone, hout, hpos, hsyms, hinbox⟩

end Sys2Proof.Proofs
end

section
/-! SUPPORT. Proofs of the statements of 40_host_reference.md on the tree builder: the frequency table (R121, R122),
the bounds of the tree (R128, R130, R131), and its least weighted external path length (R129). -/

namespace Sys2Proof.Machine

/-! ### The frequency table (R121, R122) -/

@[simp] theorem freq_length (X : List Byte) : (freq X).length = 256 := by simp [freq, Config.alphabet]

theorem freq_getD (X : List Byte) (b : Byte) : (freq X).getD b.toNat 0 = X.count b := by
  have hb : b.toNat < 256 := b.isLt
  have hsame : X.countP (fun x => decide (x.toNat = b.toNat)) = X.count b :=
    List.countP_congr fun x _ => by simp [BitVec.toNat_inj]
  simp [freq, Config.alphabet, List.getD_eq_getElem?_getD, hb, hsame]

/-- Every byte is counted in one entry. -/
theorem sum_range_of_byte (b : Byte) :
    ((List.range Config.alphabet).map (fun s => if b.toNat = s then 1 else 0)).sum = 1 := by
  have hb : b.toNat < Config.alphabet := b.isLt
  rw [List.sum_map_eq_nsmul_single b.toNat _ fun s hs _ => if_neg hs.symm,
    List.count_eq_one_of_mem List.nodup_range (List.mem_range.2 hb), if_pos rfl, one_nsmul]

theorem freq_sum (X : List Byte) : (freq X).sum = X.length := by
  induction X with
  | nil => simp [freq]
  | cons b X ih =>
    rw [List.length_cons, ← ih, ← sum_range_of_byte b, freq, freq, ← List.sum_map_add]
    simp only [List.countP_cons, decide_eq_true_eq]

/-! ### The builder's first queue (R124, R125) -/

/-- The bytes that occur in an input, in rising order. -/
def presentBytes (X : List Byte) : List Byte :=
  ((List.range Config.alphabet).map (BitVec.ofNat 8)).filter (fun b => decide (b ∈ X))

theorem mem_presentBytes {X : List Byte} {b : Byte} : b ∈ presentBytes X ↔ b ∈ X := by
  have hb : b.toNat < Config.alphabet := b.isLt
  simp only [presentBytes, List.mem_filter, decide_eq_true_eq, and_iff_right_iff_imp, List.mem_map, List.mem_range]
  exact fun _ => ⟨b.toNat, hb, BitVec.ofNat_toNat 8 b⟩

theorem nodup_presentBytes (X : List Byte) : (presentBytes X).Nodup := by
  refine (List.Nodup.map_on (fun a ha b hb hab => ?_) List.nodup_range).filter _
  rw [List.mem_range, Config.alphabet] at ha hb
  have h := congrArg BitVec.toNat hab
  simp only [BitVec.toNat_ofNat] at h
  omega

/-- The queue's first leaves: the bytes that occur, with their counts. -/
def countedBytes (X : List Byte) : List (Byte × Nat) := (presentBytes X).map (fun b => (b, X.count b))

/-- A leaf of a tree with its symbol and frequency. -/
def leafNode (c : Byte × Nat) : Tree := .leaf c.1 c.2

theorem initialQueue_freq (X : List Byte) : initialQueue (freq X) = (countedBytes X).map leafNode := by
  simp only [initialQueue, countedBytes, presentBytes, List.filter_map, List.map_map]
  rw [← List.filterMap_eq_map, ← List.filterMap_eq_filter, List.filterMap_filterMap]
  refine List.filterMap_congr fun s hs => ?_
  rw [List.mem_range, Config.alphabet] at hs
  have hcount : (freq X).getD s 0 = X.count (BitVec.ofNat 8 s) := by
    rw [← freq_getD, BitVec.toNat_ofNat, Nat.mod_eq_of_lt hs]
  rw [hcount]
  by_cases hmem : BitVec.ofNat 8 s ∈ X <;> simp [Option.guard, hmem, leafNode, List.count_eq_zero]

/-- The counts sum to the length. -/
theorem countedBytes_sum (X : List Byte) : ((countedBytes X).map Prod.snd).sum = X.length := by
  have hperm : (presentBytes X).Perm X.dedup :=
    (List.perm_ext_iff_of_nodup (nodup_presentBytes X) X.nodup_dedup).2 fun b => by
      rw [mem_presentBytes, List.mem_dedup]
  rw [countedBytes, List.map_map, (hperm.map _).sum_eq]
  exact X.sum_map_count_dedup_eq_length

theorem countedBytes_syms (X : List Byte) : (countedBytes X).map Prod.fst = presentBytes X := by
  simp [countedBytes, Function.comp_def]

/-- The leaves the merge loop starts from, the synthetic one among them (R125). -/
def startLeaves (X : List Byte) : List (Byte × Nat) :=
  match countedBytes X with
  | [c] => [c, (synSym c.1, 1)]
  | cs => cs

theorem withSynthetic_initialQueue (X : List Byte) :
    withSynthetic (initialQueue (freq X)) = (startLeaves X).map leafNode := by
  rw [initialQueue_freq, startLeaves]
  match countedBytes X with
  | [] => rfl
  | [c] => rfl
  | c :: d :: cs => rfl

/-- What the builder starts from, by how many bytes the input has: none, one, or several. -/
theorem startLeaves_cases (X : List Byte) :
    (X = [] ∧ startLeaves X = []) ∨
    (∃ b, X ≠ [] ∧ (∀ x ∈ X, x = b) ∧ startLeaves X = [(b, X.length), (synSym b, 1)]) ∨
    ((¬ ∃ b, ∀ x ∈ X, x = b) ∧ startLeaves X = countedBytes X ∧ 2 ≤ (presentBytes X).length) := by
  have hmem (b : Byte) : b ∈ presentBytes X ↔ b ∈ X := mem_presentBytes
  have hdistinct := nodup_presentBytes X
  unfold startLeaves countedBytes
  match hP : presentBytes X with
  | [] =>
    rw [hP] at hmem
    exact .inl ⟨List.eq_nil_iff_forall_not_mem.2 fun b hb => List.not_mem_nil ((hmem b).2 hb), rfl⟩
  | [b] =>
    rw [hP] at hmem
    have hall : ∀ x ∈ X, x = b := fun x hx => List.mem_singleton.1 ((hmem x).2 hx)
    have hcount : X.count b = X.length := List.count_eq_length.2 fun x hx => (hall x hx).symm
    exact .inr (.inl ⟨b, List.ne_nil_of_mem ((hmem b).1 List.mem_cons_self), hall, by simp [hcount]⟩)
  | b :: c :: bs =>
    rw [hP] at hmem hdistinct
    refine .inr (.inr ⟨?_, rfl, by simp⟩)
    rintro ⟨x, hx⟩
    have hb : b = x := hx b ((hmem b).1 (by simp))
    have hc : c = x := hx c ((hmem c).1 (by simp))
    simp [hb, hc] at hdistinct

theorem synSym_ne (b : Byte) : b ≠ synSym b := by
  unfold synSym
  split
  · next h => simp [h]
  · next h => exact h

theorem nodup_startLeaves (X : List Byte) : ((startLeaves X).map Prod.fst).Nodup := by
  rcases startLeaves_cases X with ⟨-, h⟩ | ⟨b, -, -, h⟩ | ⟨-, h, -⟩ <;> rw [h]
  · exact List.nodup_nil
  · simpa using synSym_ne b
  · rw [countedBytes_syms]
    exact nodup_presentBytes X

theorem mem_startLeaves {X : List Byte} {b : Byte} (hb : b ∈ X) : b ∈ (startLeaves X).map Prod.fst := by
  rcases startLeaves_cases X with ⟨rfl, -⟩ | ⟨c, -, hall, h⟩ | ⟨-, h, -⟩
  · cases hb
  · simp [h, hall b hb]
  · rw [h, countedBytes_syms]
    exact mem_presentBytes.2 hb

theorem startLeaves_eq_nil_iff {X : List Byte} : startLeaves X = [] ↔ X = [] := by
  rcases startLeaves_cases X with ⟨hX, h⟩ | ⟨b, hX, -, h⟩ | ⟨hX, h, hlen⟩
  · exact iff_of_true h hX
  · simp [hX, h]
  · have hne : X ≠ [] := by rintro rfl; exact hX ⟨0, nofun⟩
    have : startLeaves X ≠ [] := by
      rw [h, ← List.length_pos_iff, countedBytes, List.length_map]
      omega
    simp [hne, this]

theorem two_le_startLeaves {X : List Byte} (hX : X ≠ []) : 2 ≤ (startLeaves X).length := by
  rcases startLeaves_cases X with ⟨rfl, -⟩ | ⟨b, -, -, h⟩ | ⟨-, h, hlen⟩
  · exact absurd rfl hX
  · simp [h]
  · simpa [h, countedBytes] using hlen

/-! ### The merge loop (R126, R127) -/

theorem freqOf_le_of_keyLt {a b : Tree} (h : keyLt a b = true) : freqOf a ≤ freqOf b := by
  simp only [keyLt, Bool.or_eq_true, Bool.and_eq_true, decide_eq_true_eq] at h
  omega

theorem freqOf_le_of_not_keyLt {a b : Tree} (h : ¬ keyLt a b = true) : freqOf b ≤ freqOf a := by
  simp only [keyLt, Bool.or_eq_true, Bool.and_eq_true, decide_eq_true_eq] at h
  omega

theorem popLeast_eq_none {q : List Tree} : popLeast q = none ↔ q = [] := by
  cases q with
  | nil => simp [popLeast]
  | cons a q =>
    rw [popLeast]
    cases popLeast q with
    | none => simp
    | some c => by_cases hlt : keyLt c.1 a = true <;> simp [hlt]

/-- The member taken has the least frequency, and the others stay. -/
theorem popLeast_eq_some {q q' : List Tree} {a : Tree} (h : popLeast q = some (a, q')) :
    q.Perm (a :: q') ∧ ∀ t ∈ q', freqOf a ≤ freqOf t := by
  induction q generalizing a q' with
  | nil => cases h
  | cons c q ih =>
    rw [popLeast] at h
    cases hq : popLeast q with
    | none =>
      rw [hq] at h
      cases h
      simp [popLeast_eq_none.1 hq]
    | some d =>
      obtain ⟨b, p⟩ := d
      obtain ⟨hperm, hle⟩ := ih hq
      rw [hq] at h
      by_cases hlt : keyLt b c = true
      · simp only [hlt, if_true, Option.some.injEq, Prod.mk.injEq] at h
        obtain ⟨rfl, rfl⟩ := h
        exact ⟨(hperm.cons c).trans (.swap b c p), List.forall_mem_cons.2 ⟨freqOf_le_of_keyLt hlt, hle⟩⟩
      · simp only [hlt, Bool.false_eq_true, if_false, Option.some.injEq, Prod.mk.injEq] at h
        obtain ⟨rfl, rfl⟩ := h
        have hcb := freqOf_le_of_not_keyLt hlt
        refine ⟨.rfl, fun t ht => ?_⟩
        rcases List.mem_cons.1 (hperm.subset ht) with rfl | ht
        · exact hcb
        · exact hcb.trans (hle t ht)

/-- Merging two members of least frequency, again and again, makes one tree of a queue. The induction over a merge is
this relation's. -/
inductive Merges : List Tree → Tree → Prop where
  | single (t : Tree) : Merges [t] t
  | merge {q q' : List Tree} {a b T : Tree} (hq : q.Perm (a :: b :: q'))
      (hleast : ∀ t ∈ q', freqOf a ≤ freqOf t ∧ freqOf b ≤ freqOf t)
      (h : Merges (.internal (freqOf a + freqOf b) a b :: q') T) : Merges q T

/-- A queue that the passes are enough for is merged to one tree. -/
theorem exists_merges_mergeLoop {n : Nat} {q : List Tree} (hne : q ≠ []) (hn : q.length ≤ n + 1) :
    ∃ T, mergeLoop n q = some T ∧ Merges q T := by
  induction n generalizing q with
  | zero =>
    obtain ⟨t, rfl⟩ := List.length_eq_one_iff.1 (le_antisymm hn (List.length_pos_iff.2 hne))
    exact ⟨t, rfl, .single t⟩
  | succ n ih =>
    rw [mergeLoop]
    cases ha : popLeast q with
    | none => exact absurd (popLeast_eq_none.1 ha) hne
    | some c =>
      obtain ⟨a, q1⟩ := c
      obtain ⟨hpa, hla⟩ := popLeast_eq_some ha
      dsimp only
      cases hb : popLeast q1 with
      | none =>
        obtain rfl := popLeast_eq_none.1 hb
        obtain rfl := List.perm_singleton.1 hpa
        exact ⟨a, rfl, .single a⟩
      | some d =>
        obtain ⟨b, q2⟩ := d
        obtain ⟨hpb, hlb⟩ := popLeast_eq_some hb
        have hperm : q.Perm (a :: b :: q2) := hpa.trans (hpb.cons a)
        have hlen := hperm.length_eq
        simp only [List.length_cons] at hlen
        obtain ⟨T, hT, hm⟩ := ih (q := .internal (freqOf a + freqOf b) a b :: q2) (List.cons_ne_nil _ _)
          (by rw [List.length_cons]; omega)
        exact ⟨T, hT, .merge hperm (fun t ht => ⟨hla t (hpb.symm.subset (List.mem_cons_of_mem _ ht)), hlb t ht⟩) hm⟩

/-- `build` makes a tree of the first leaves by merging, unless there are none. -/
theorem exists_merges_build {X : List Byte} (hX : X ≠ []) :
    ∃ T, build (freq X) = some T ∧ Merges ((startLeaves X).map leafNode) T := by
  rw [build, withSynthetic_initialQueue]
  exact exists_merges_mergeLoop (by simpa using mt startLeaves_eq_nil_iff.1 hX) (Nat.le_succ _)

theorem build_freq_nil : build (freq []) = none := by
  rw [build, withSynthetic_initialQueue, startLeaves_eq_nil_iff.2 rfl]
  rfl

theorem build_freq_eq_none_iff {X : List Byte} : build (freq X) = none ↔ X = [] := by
  constructor
  · intro h
    by_contra hX
    obtain ⟨T, hT, -⟩ := exists_merges_build hX
    cases h.symm.trans hT
  · rintro rfl
    exact build_freq_nil

theorem merges_of_build {X : List Byte} {T : Tree} (h : build (freq X) = some T) :
    X ≠ [] ∧ Merges ((startLeaves X).map leafNode) T := by
  have hX : X ≠ [] := fun hnil => by cases (build_freq_eq_none_iff.2 hnil).symm.trans h
  obtain ⟨T', hT', hm⟩ := exists_merges_build hX
  obtain rfl := Option.some.inj (h.symm.trans hT')
  exact ⟨hX, hm⟩

/-! ### Leaves, nodes and depth of a tree -/

theorem leafSyms_eq (T : Tree) : leafSyms T = (leavesOf T).map Prod.fst := by
  induction T with
  | leaf s f => rfl
  | internal f l r ihl ihr => simp [leafSyms, leavesOf, ihl, ihr]

theorem leafFreqSum_eq (T : Tree) : leafFreqSum T = ((leavesOf T).map Prod.snd).sum := by
  induction T with
  | leaf s f => simp [leafFreqSum, leavesOf]
  | internal f l r ihl ihr => simp [leafFreqSum, leavesOf, ihl, ihr]

theorem nodeCount_succ (T : Tree) : nodeCount T + 1 = 2 * (leafSyms T).length := by
  induction T with
  | leaf s f => rfl
  | internal f l r ihl ihr => simp only [nodeCount, leafSyms, List.length_append]; omega

theorem depthOf_succ_le (T : Tree) : depthOf T + 1 ≤ (leafSyms T).length := by
  induction T with
  | leaf s f => exact le_rfl
  | internal f l r ihl ihr => simp only [depthOf, leafSyms, List.length_append]; omega

/-! ### What a merge keeps -/

/-- A merge keeps the leaves. -/
theorem Merges.leaves {q : List Tree} {T : Tree} (h : Merges q T) : (leavesOf T).Perm (q.flatMap leavesOf) := by
  induction h with
  | single t => simp
  | merge hq _ _ ih =>
    refine ih.trans (.trans ?_ (hq.flatMap_right leavesOf).symm)
    simp [leavesOf]

/-- A merge keeps that a node's frequency is the sum of its leaves' (R130). -/
theorem Merges.freqOf_eq {q : List Tree} {T : Tree} (h : Merges q T) (hq : ∀ t ∈ q, freqOf t = leafFreqSum t) :
    freqOf T = leafFreqSum T := by
  induction h with
  | single t => exact hq t List.mem_cons_self
  | merge hperm _ _ ih =>
    have hall := fun t ht => hq t (hperm.symm.subset ht)
    refine ih (List.forall_mem_cons.2 ⟨?_, fun t ht => hall t (by simp [ht])⟩)
    rw [freqOf, leafFreqSum, hall _ (by simp), hall _ (by simp)]

theorem flatMap_leavesOf_map_leafNode (cs : List (Byte × Nat)) : (cs.map leafNode).flatMap leavesOf = cs := by
  induction cs with
  | nil => rfl
  | cons c cs ih => exact congrArg (c :: ·) ih

theorem freqOf_leafNode {cs : List (Byte × Nat)} : ∀ t ∈ cs.map leafNode, freqOf t = leafFreqSum t := fun t ht => by
  obtain ⟨c, -, rfl⟩ := List.mem_map.1 ht
  rfl

/-! ### The built tree -/

section
variable {X : List Byte} {T : Tree} (h : build (freq X) = some T)
include h

/-- The leaves of the built tree are those the merge loop starts from. -/
theorem leavesOf_build : (leavesOf T).Perm (startLeaves X) := by
  obtain ⟨-, hm⟩ := merges_of_build h
  simpa only [flatMap_leavesOf_map_leafNode] using hm.leaves

theorem leafSyms_build : (leafSyms T).Perm ((startLeaves X).map Prod.fst) := by
  rw [leafSyms_eq]
  exact (leavesOf_build h).map _

theorem nodup_leafSyms_build : (leafSyms T).Nodup := (leafSyms_build h).nodup_iff.2 (nodup_startLeaves X)

theorem mem_leafSyms_build {b : Byte} (hb : b ∈ X) : b ∈ leafSyms T :=
  (leafSyms_build h).symm.subset (mem_startLeaves hb)

theorem two_le_leafSyms_build : 2 ≤ (leafSyms T).length := by
  obtain ⟨hX, -⟩ := merges_of_build h
  rw [(leafSyms_build h).length_eq, List.length_map]
  exact two_le_startLeaves hX

theorem leafSyms_build_le : (leafSyms T).length ≤ 256 := by
  simpa using ((nodup_leafSyms_build h).map BitVec.toFin_injective).length_le_card

theorem freqOf_build : freqOf T = leafFreqSum T := (merges_of_build h).2.freqOf_eq freqOf_leafNode

theorem freqOf_build_eq_sum : freqOf T = ((startLeaves X).map Prod.snd).sum := by
  rw [freqOf_build h, leafFreqSum_eq, ((leavesOf_build h).map _).sum_eq]

end

/-! ### Weights and path lengths (R19, R129) -/

/-- The frequencies of the leaves, in no order: all of a tree that the least path length depends on. -/
def leafWeights (t : Tree) : Multiset Nat := ((leavesOf t).map Prod.snd : List Nat)

@[simp] theorem leafWeights_leaf (s : Byte) (f : Nat) : leafWeights (.leaf s f) = {f} := rfl

@[simp] theorem leafWeights_internal (f : Nat) (l r : Tree) :
    leafWeights (.internal f l r) = leafWeights l + leafWeights r := by
  simp [leafWeights, leavesOf]

theorem leafFreqSum_eq_sum (t : Tree) : leafFreqSum t = (leafWeights t).sum := by
  rw [leafFreqSum_eq, leafWeights, Multiset.sum_coe]

/-- Every leaf of a subtree put `d` deeper counts its frequency `d` times more. -/
theorem weightedPathLength_eq (t : Tree) (d : Nat) :
    weightedPathLength t d = weightedPathLength t 0 + d * (leafWeights t).sum := by
  induction t generalizing d with
  | leaf s f => simp [weightedPathLength]
  | internal f l r ihl ihr =>
    rw [weightedPathLength, weightedPathLength, ihl, ihr, ihl (0 + 1), ihr (0 + 1), leafWeights_internal,
      Multiset.sum_add]
    ring

theorem le_sum_leafWeights {t : Tree} {m : Nat} (h : ∀ w ∈ leafWeights t, m ≤ w) : m ≤ (leafWeights t).sum := by
  have hne : leafWeights t ≠ 0 := by
    induction t with
    | leaf s f => simp
    | internal f l r ihl _ => simpa using fun hl => absurd hl (ihl fun w hw => h w (by simp [hw]))
  obtain ⟨w, hw⟩ := Multiset.exists_mem_of_ne_zero hne
  exact (h w hw).trans (Multiset.le_sum_of_mem hw)

/-! ### A tree seen from one of its leaves -/

/-- The tree with `t` at the end of a path and, from its sibling up to a child of the root, the trees of `C` beside
the path. -/
def plug : List Tree → Tree → Tree
  | [], t => t
  | s :: C, t => plug C (.internal 0 t s)

/-- The frequencies of the leaves beside the path. -/
def sideWeights (C : List Tree) : Multiset Nat := (C.map leafWeights).sum

/-- What the trees beside the path add to the weighted path length of the whole one, its root at depth `d`. -/
def sideCost : List Tree → Nat → Nat
  | [], _ => 0
  | s :: C, d => weightedPathLength s (C.length + 1 + d) + sideCost C d

theorem leafWeights_plug (C : List Tree) (t : Tree) : leafWeights (plug C t) = leafWeights t + sideWeights C := by
  induction C generalizing t with
  | nil => simp [plug, sideWeights]
  | cons s C ih => simp [plug, ih, sideWeights, add_assoc]

theorem weightedPathLength_plug (C : List Tree) (t : Tree) (d : Nat) :
    weightedPathLength (plug C t) d = weightedPathLength t (C.length + d) + sideCost C d := by
  induction C generalizing t with
  | nil => simp [plug, sideCost]
  | cons s C ih =>
    rw [plug, ih, weightedPathLength, sideCost, List.length_cons, Nat.add_right_comm C.length 1 d]
    ring

theorem sideCost_concat (C : List Tree) (s : Tree) (d : Nat) :
    sideCost (C ++ [s]) d = sideCost C (d + 1) + weightedPathLength s (d + 1) := by
  induction C with
  | nil => simp [sideCost, Nat.add_comm]
  | cons t C ih =>
    rw [List.cons_append, sideCost, sideCost, ih, List.length_append, List.length_singleton,
      show C.length + 1 + 1 + d = C.length + 1 + (d + 1) by omega]
    exact (Nat.add_assoc _ _ _).symm

/-- The tree, up to the order of children, is a leaf of frequency `w` at the end of a path, with `C` beside it. -/
structure BesidePath (t : Tree) (w : Nat) (C : List Tree) : Prop where
  weights : leafWeights t = w ::ₘ sideWeights C
  cost : ∀ d, weightedPathLength t d = (C.length + d) * w + sideCost C d

theorem BesidePath.node {l : Tree} {w : Nat} {C : List Tree} (h : BesidePath l w C) (f : Nat) (r : Tree) :
    BesidePath (.internal f l r) w (C ++ [r]) where
  weights := by simp [h.weights, sideWeights]
  cost d := by
    rw [weightedPathLength, h.cost, sideCost_concat, List.length_append, List.length_singleton,
      Nat.add_assoc C.length 1 d, Nat.add_comm 1 d, Nat.add_assoc]

theorem BesidePath.mirror {f w : Nat} {l r : Tree} {C : List Tree} (h : BesidePath (.internal f l r) w C) :
    BesidePath (.internal f r l) w C where
  weights := by rw [← h.weights, leafWeights_internal, leafWeights_internal, add_comm]
  cost d := by rw [← h.cost, weightedPathLength, weightedPathLength, add_comm]

theorem exists_besidePath {t : Tree} {w : Nat} (h : w ∈ leafWeights t) : ∃ C, BesidePath t w C := by
  induction t with
  | leaf s f =>
    obtain rfl := Multiset.mem_singleton.1 h
    exact ⟨[], rfl, fun d => by simp [weightedPathLength, sideCost]⟩
  | internal f l r ihl ihr =>
    rw [leafWeights_internal] at h
    rcases Multiset.mem_add.1 h with h | h
    · obtain ⟨C, hC⟩ := ihl h
      exact ⟨C ++ [r], hC.node f r⟩
    · obtain ⟨C, hC⟩ := ihr h
      exact ⟨C ++ [l], (hC.node f l).mirror⟩

/-! ### Two least leaves can be brought together (the exchange argument) -/

/-- A tree of the leaves of `t` with `a` and `b` made one leaf, and `R` the others, saves at least `a + b`. -/
def Merged (t : Tree) (a b : Nat) (R : Multiset Nat) : Prop :=
  ∃ t', leafWeights t' = (a + b) ::ₘ R ∧ weightedPathLength t' 0 + (a + b) ≤ weightedPathLength t 0

theorem Merged.mirror {f a b : Nat} {l r : Tree} {R : Multiset Nat} (h : Merged (.internal f l r) a b R) :
    Merged (.internal f r l) a b R := by
  rwa [Merged, weightedPathLength, add_comm (weightedPathLength r _)]

theorem Merged.swap {t : Tree} {a b : Nat} {R : Multiset Nat} (h : Merged t a b R) : Merged t b a R := by
  rwa [Merged, add_comm b a]

section
variable {f : Nat} {l r : Tree} {a b : Nat}

/-- With `a` at least as deep as `b` across the root: the sibling of `a` takes the place of `b`, and the leaf `a + b`
that of the parent of `a`. -/
theorem merged_across_of_le {C D : List Tree} (hle : D.length ≤ C.length) (hl : BesidePath l a C)
    (hr : BesidePath r b D) (hb : ∀ w ∈ sideWeights C, b ≤ w) :
    Merged (.internal f l r) a b (sideWeights C + sideWeights D) := by
  rw [Merged, weightedPathLength, hl.cost, hr.cost]
  cases C with
  | nil =>
    obtain rfl := List.length_eq_zero_iff.1 (Nat.le_zero.1 hle)
    exact ⟨.leaf 0 (a + b), by simp [sideWeights], by simp [weightedPathLength, sideCost]⟩
  | cons s C =>
    have hs : b ≤ (leafWeights s).sum := le_sum_leafWeights fun w hw => hb w (by simp [sideWeights, hw])
    obtain ⟨k, hk⟩ := Nat.exists_eq_add_of_le hle
    rw [List.length_cons] at hk
    -- The sibling moves `k` levels up and `b` as many down.
    have hexchange := Nat.mul_le_mul_left k hs
    refine ⟨.internal 0 (plug C (.leaf 0 (a + b))) (plug D s), ?_, ?_⟩
    · simp only [leafWeights_internal, leafWeights_plug, leafWeights_leaf, sideWeights, List.map_cons, List.sum_cons,
        ← Multiset.singleton_add]
      abel
    · rw [weightedPathLength, weightedPathLength_plug, weightedPathLength_plug, weightedPathLength, sideCost,
        weightedPathLength_eq s (D.length + (0 + 1)), weightedPathLength_eq s (C.length + 1 + (0 + 1)),
        List.length_cons, Nat.zero_add, hk]
      linarith

/-- The leaf `a` in one child of the root and `b` in the other. -/
theorem merged_across {L R : Multiset Nat} (hl : leafWeights l = a ::ₘ L) (hr : leafWeights r = b ::ₘ R)
    (hb : ∀ w ∈ L, b ≤ w) (ha : ∀ w ∈ R, a ≤ w) : Merged (.internal f l r) a b (L + R) := by
  obtain ⟨C, hC⟩ := exists_besidePath (hl ▸ Multiset.mem_cons_self a L)
  obtain ⟨D, hD⟩ := exists_besidePath (hr ▸ Multiset.mem_cons_self b R)
  obtain rfl := (Multiset.cons_inj_right a).1 (hl.symm.trans hC.weights)
  obtain rfl := (Multiset.cons_inj_right b).1 (hr.symm.trans hD.weights)
  rcases le_total D.length C.length with hle | hle
  · exact merged_across_of_le hle hC hD hb
  · rw [add_comm]
    exact (merged_across_of_le hle hD hC ha).swap.mirror

/-- Both leaves in one child of the root, brought together there. -/
theorem Merged.node {L : Multiset Nat} (hl : leafWeights l = a ::ₘ b ::ₘ L) (h : Merged l a b L) :
    Merged (.internal f l r) a b (L + leafWeights r) := by
  obtain ⟨l', hl', hcost⟩ := h
  refine ⟨.internal 0 l' r, by rw [leafWeights_internal, hl', Multiset.cons_add], ?_⟩
  rw [weightedPathLength, weightedPathLength, weightedPathLength_eq l', weightedPathLength_eq l (0 + 1), hl, hl']
  simp only [Multiset.sum_cons, Nat.zero_add]
  omega

/-- The leaf `a` in the first child of the root: `b` is there as well, or in the second. -/
theorem merged_of_mem {R : Multiset Nat} (h : leafWeights (.internal f l r) = a ::ₘ b ::ₘ R)
    (hR : ∀ w ∈ R, a ≤ w ∧ b ≤ w) (ha : a ∈ leafWeights l)
    (ih : ∀ {L : Multiset Nat}, leafWeights l = a ::ₘ b ::ₘ L → (∀ w ∈ L, a ≤ w ∧ b ≤ w) → Merged l a b L) :
    Merged (.internal f l r) a b R := by
  obtain ⟨L, hl⟩ := Multiset.exists_cons_of_mem ha
  have hrest : L + leafWeights r = b ::ₘ R := by
    rwa [leafWeights_internal, hl, Multiset.cons_add, Multiset.cons_inj_right] at h
  have hb : b ∈ L + leafWeights r := hrest ▸ Multiset.mem_cons_self b R
  rcases Multiset.mem_add.1 hb with hb | hb
  · obtain ⟨L', rfl⟩ := Multiset.exists_cons_of_mem hb
    rw [Multiset.cons_add, Multiset.cons_inj_right] at hrest
    subst hrest
    exact (ih hl fun w hw => hR w (Multiset.mem_add.2 (.inl hw))).node hl
  · obtain ⟨R', hr⟩ := Multiset.exists_cons_of_mem hb
    rw [hr, Multiset.add_cons, Multiset.cons_inj_right] at hrest
    subst hrest
    exact merged_across hl hr (fun w hw => (hR w (Multiset.mem_add.2 (.inl hw))).2)
      fun w hw => (hR w (Multiset.mem_add.2 (.inr hw))).1

end

/-- In any tree, two leaves of least frequency can be brought together at no cost. -/
theorem exists_merged {t : Tree} {a b : Nat} {R : Multiset Nat} (h : leafWeights t = a ::ₘ b ::ₘ R)
    (hR : ∀ w ∈ R, a ≤ w ∧ b ≤ w) : Merged t a b R := by
  induction t generalizing R with
  | leaf s f => simpa using congrArg Multiset.card h
  | internal f l r ihl ihr =>
    have ha : a ∈ leafWeights l + leafWeights r := by
      rw [← leafWeights_internal f, h]
      exact Multiset.mem_cons_self a _
    rcases Multiset.mem_add.1 ha with ha | ha
    · exact merged_of_mem h hR ha ihl
    · have h' : leafWeights (.internal f r l) = a ::ₘ b ::ₘ R := by
        rw [← h, leafWeights_internal, leafWeights_internal, add_comm]
      exact (merged_of_mem h' hR ha ihr).mirror

/-! ### The merged tree has the least weighted path length (R129) -/

/-- No tree with the queue's frequencies on its leaves is cheaper than the merged one, but for what the members of the
queue cost themselves. -/
theorem Merges.weightedPathLength_le {q : List Tree} {T T' : Tree} (h : Merges q T)
    (hq : ∀ t ∈ q, freqOf t = leafFreqSum t) (hT' : leafWeights T' = (q.map freqOf : List Nat)) :
    weightedPathLength T 0 ≤ weightedPathLength T' 0 + (q.map (weightedPathLength · 0)).sum := by
  induction h generalizing T' with
  | single t => simp
  | @merge q q' a b T hperm hleast _ ih =>
    have hall := fun t ht => hq t (hperm.symm.subset ht)
    have hsum (t : Tree) (ht : t ∈ a :: b :: q') : weightedPathLength t 1 = weightedPathLength t 0 + freqOf t := by
      rw [weightedPathLength_eq, hall t ht, leafFreqSum_eq_sum, Nat.one_mul]
    have hfreq : freqOf a + freqOf b = leafFreqSum (.internal (freqOf a + freqOf b) a b) := by
      rw [leafFreqSum, hall a (by simp), hall b (by simp)]
    obtain ⟨T'', hw, hcost⟩ := exists_merged (R := (q'.map freqOf : List Nat))
      (hT'.trans (Multiset.coe_eq_coe.2 (hperm.map freqOf))) fun w hw => by
        obtain ⟨t, ht, rfl⟩ := List.mem_map.1 (Multiset.mem_coe.1 hw)
        exact hleast t ht
    have hle := ih (List.forall_mem_cons.2 ⟨hfreq, fun t ht => hall t (by simp [ht])⟩) hw
    have hqsum := (hperm.map (weightedPathLength · 0)).sum_eq
    simp only [List.map_cons, List.sum_cons, weightedPathLength] at hle hqsum
    rw [Nat.zero_add, hsum a (by simp), hsum b (by simp)] at hle
    omega

/-- The first leaves cost nothing, and are the queue's frequencies. -/
theorem sum_weightedPathLength_leafNode (cs : List (Byte × Nat)) :
    ((cs.map leafNode).map (weightedPathLength · 0)).sum = 0 := by
  induction cs with
  | nil => rfl
  | cons c cs ih => simpa [leafNode, weightedPathLength] using ih

theorem freqOf_map_leafNode (cs : List (Byte × Nat)) : (cs.map leafNode).map freqOf = cs.map Prod.snd := by
  rw [List.map_map]
  rfl

end Sys2Proof.Machine

/-! ### The obligations -/

namespace Sys2Proof.Proofs

open Sys2Proof.Machine Sys2Proof.Safety

/-- Settles O46: adding a byte to the input adds one to one entry. -/
theorem frequencySumIsLength : Obligations.FrequencySumIsLength := fun X =>
  ⟨freq_length X, freq_sum X, freq_getD X⟩

/-- Settles O47: the leaves are those the merge loop starts from, and a merge keeps their frequencies' sum. -/
theorem builderBounds : Obligations.BuilderBounds := by
  refine fun X => ⟨build_freq_eq_none_iff, fun T h => ⟨two_le_leafSyms_build h, leafSyms_build_le h, nodeCount_succ T,
    depthOf_succ_le T, freqOf_build h, fun hone => ?_, fun hseveral => ?_⟩⟩ <;> rw [freqOf_build_eq_sum h]
  · obtain ⟨hX, -⟩ := merges_of_build h
    rcases startLeaves_cases X with ⟨hnil, -⟩ | ⟨b, -, -, hstart⟩ | ⟨hnot, -, -⟩
    · exact absurd hnil hX
    · simp [hstart]
    · exact absurd hone hnot
  · rcases startLeaves_cases X with ⟨rfl, -⟩ | ⟨b, -, hall, -⟩ | ⟨-, hstart, -⟩
    · exact absurd ⟨0, nofun⟩ hseveral
    · exact absurd ⟨b, hall⟩ hseveral
    · rw [hstart, countedBytes_sum]

/-- Settles O48: in any tree two least leaves can be brought together at no cost, so merging them first loses
nothing. -/
theorem builtTreeIsOptimal : Obligations.BuiltTreeIsOptimal := by
  intro X T T' h hperm
  have hweights : leafWeights T' = (((startLeaves X).map leafNode).map freqOf : List Nat) := by
    rw [freqOf_map_leafNode]
    exact Multiset.coe_eq_coe.2 ((hperm.trans (leavesOf_build h)).map _)
  have hle := (merges_of_build h).2.weightedPathLength_le freqOf_leafNode hweights
  rwa [sum_weightedPathLength_leafNode, Nat.add_zero] at hle

end Sys2Proof.Proofs
end

section
/-! SUPPORT. Proofs of the statements of 40_host_reference.md on what the host makes of a built tree: the code table
(R135, R136), the two images (R138, R139), and `compress` with `decompress` (R146, R147, R150). -/

namespace Sys2Proof.Machine

open Sys2Proof.Safety

/-! ### The leaves of an abstract tree and their paths -/

theorem symAt_internal_eq_some {l r : Shape} {q : List Bool} {s : Byte} :
    symAt (.internal l r) q = some s ↔ ∃ b p, q = b :: p ∧ symAt (if b then r else l) p = some s := by
  cases q <;> simp [symAt]

theorem symAt_leaf_eq_some {x s : Byte} {p : List Bool} : symAt (.leaf x) p = some s ↔ p = [] ∧ x = s := by
  cases p <;> simp [symAt]

/-- The leaves of a node are those of its two children, each a step further. -/
theorem exists_symAt_internal {P : List Bool → Prop} {l r : Shape} {s : Byte} :
    (∃ p, P p ∧ symAt (.internal l r) p = some s) ↔
      (∃ p, P (false :: p) ∧ symAt l p = some s) ∨ ∃ p, P (true :: p) ∧ symAt r p = some s := by
  constructor
  · rintro ⟨q, hP, hq⟩
    obtain ⟨b, p, rfl, hp⟩ := symAt_internal_eq_some.1 hq
    cases b
    · exact .inl ⟨p, hP, hp⟩
    · exact .inr ⟨p, hP, hp⟩
  · rintro (⟨p, hP, hp⟩ | ⟨p, hP, hp⟩)
    · exact ⟨false :: p, hP, hp⟩
    · exact ⟨true :: p, hP, hp⟩

theorem mem_shapeSyms_iff {T : Shape} {s : Byte} : s ∈ shapeSyms T ↔ ∃ p, symAt T p = some s := by
  induction T with
  | leaf x => simp only [shapeSyms, List.mem_singleton, symAt_leaf_eq_some]; simp [eq_comm]
  | internal l r ihl ihr =>
    rw [shapeSyms, List.mem_append, ihl, ihr]
    simpa using (exists_symAt_internal (P := fun _ => True)).symm

/-- A path to a leaf goes on to no other one. -/
theorem eq_of_symAt_prefix {T : Shape} {p q : List Bool} {s s' : Byte} (hp : symAt T p = some s)
    (hq : symAt T q = some s') (hpre : p <+: q) : p = q := by
  induction T generalizing p q with
  | leaf x => rw [(symAt_leaf_eq_some.1 hp).1, (symAt_leaf_eq_some.1 hq).1]
  | internal l r ihl ihr =>
    obtain ⟨b, p, rfl, hp⟩ := symAt_internal_eq_some.1 hp
    obtain ⟨c, q, rfl, hq⟩ := symAt_internal_eq_some.1 hq
    obtain ⟨rfl, htail⟩ := List.cons_prefix_cons.1 hpre
    cases b
    · rw [ihl hp hq htail]
    · rw [ihr hp hq htail]

/-- Where the symbols are pairwise different, a symbol has one path. -/
theorem eq_of_symAt {T : Shape} (hT : (shapeSyms T).Nodup) {p q : List Bool} {s : Byte} (hp : symAt T p = some s)
    (hq : symAt T q = some s) : p = q := by
  induction T generalizing p q with
  | leaf x => rw [(symAt_leaf_eq_some.1 hp).1, (symAt_leaf_eq_some.1 hq).1]
  | internal l r ihl ihr =>
    obtain ⟨hl, hr, hdisjoint⟩ := List.nodup_append.1 hT
    obtain ⟨b, p, rfl, hp⟩ := symAt_internal_eq_some.1 hp
    obtain ⟨c, q, rfl, hq⟩ := symAt_internal_eq_some.1 hq
    have hmem {S : Shape} {u : List Bool} (h : symAt S u = some s) : s ∈ shapeSyms S := mem_shapeSyms_iff.2 ⟨u, h⟩
    match b, c with
    | false, false => rw [ihl hl hp hq]
    | true, true => rw [ihr hr hp hq]
    | false, true => exact absurd rfl (hdisjoint s (hmem hp) s (hmem hq))
    | true, false => exact absurd rfl (hdisjoint s (hmem hq) s (hmem hp))

/-- A path to a leaf is shorter than the number of leaves. -/
theorem length_lt_of_symAt {T : Shape} {p : List Bool} {s : Byte} (h : symAt T p = some s) :
    p.length < leafCount T := by
  induction T generalizing p with
  | leaf x =>
    rw [(symAt_leaf_eq_some.1 h).1]
    exact Nat.one_pos
  | internal l r ihl ihr =>
    obtain ⟨b, p, rfl, h⟩ := symAt_internal_eq_some.1 h
    have hl := leafCount_pos l
    have hr := leafCount_pos r
    rw [List.length_cons, leafCount]
    cases b
    · have := ihl h; omega
    · have := ihr h; omega

/-! ### The code table of a tree (R135, R136) -/

theorem shapeSyms_shapeOf (T : Tree) : shapeSyms (shapeOf T) = leafSyms T := by
  induction T with
  | leaf s f => rfl
  | internal f l r ihl ihr => rw [shapeOf, shapeSyms, leafSyms, ihl, ihr]

/-- `walk` lists the leaves with their paths. -/
theorem mem_walkCodes {T : Tree} {p q : List Bool} {s : Byte} :
    (s, q) ∈ walkCodes T p ↔ ∃ u, q = p ++ u ∧ symAt (shapeOf T) u = some s := by
  induction T generalizing p with
  | leaf x f =>
    simp only [walkCodes, shapeOf, List.mem_singleton, symAt_leaf_eq_some, Prod.mk.injEq]
    simp [and_comm, eq_comm]
  | internal f l r ihl ihr =>
    rw [walkCodes, List.mem_append, ihl, ihr, shapeOf, exists_symAt_internal]
    simp

theorem symAt_of_codes {T : Tree} {s : Byte} {p : List Bool} (h : codes T s = some p) :
    symAt (shapeOf T) p = some s := by
  obtain ⟨l₁, l₂, hsplit, -⟩ := List.lookup_eq_some_iff.1 h
  have hmem : (s, p) ∈ walkCodes T [] := by rw [hsplit]; simp
  obtain ⟨u, rfl, hu⟩ := mem_walkCodes.1 hmem
  exact hu

theorem exists_codes_of_symAt {T : Tree} {s : Byte} {p : List Bool} (h : symAt (shapeOf T) p = some s) :
    ∃ q, codes T s = some q := by
  by_contra hnone
  have hlookup : (walkCodes T []).lookup s = none := Option.eq_none_iff_forall_ne_some.2 fun q hq => hnone ⟨q, hq⟩
  simpa using List.lookup_eq_none_iff.1 hlookup (s, p) (mem_walkCodes.2 ⟨p, rfl, h⟩)

/-- With pairwise different symbols, a symbol's code is the path to its leaf. -/
theorem codes_eq_some_iff {T : Tree} (hT : (leafSyms T).Nodup) {s : Byte} {p : List Bool} :
    codes T s = some p ↔ symAt (shapeOf T) p = some s := by
  refine ⟨symAt_of_codes, fun h => ?_⟩
  obtain ⟨q, hq⟩ := exists_codes_of_symAt h
  rw [hq, eq_of_symAt (by rwa [shapeSyms_shapeOf]) (symAt_of_codes hq) h]

theorem isSome_codes_iff {T : Tree} {s : Byte} : (codes T s).isSome = true ↔ s ∈ leafSyms T := by
  rw [Option.isSome_iff_exists, ← shapeSyms_shapeOf, mem_shapeSyms_iff]
  constructor
  · rintro ⟨p, hp⟩
    exact ⟨p, symAt_of_codes hp⟩
  · rintro ⟨p, hp⟩
    exact exists_codes_of_symAt hp

section
variable {X : List Byte} {T : Tree} (h : build (freq X) = some T)
include h

/-- The root of a built tree is internal. -/
theorem exists_internal_of_build : ∃ l r, shapeOf T = .internal l r := by
  have htwo := two_le_leafSyms_build h
  cases T with
  | leaf s f => exact absurd htwo (by simp [leafSyms])
  | internal f l r => exact ⟨_, _, rfl⟩

/-- Codes of a built tree have 1 to 255 bits (R153). -/
theorem length_codes_build {s : Byte} {p : List Bool} (hp : codes T s = some p) : 1 ≤ p.length ∧ p.length ≤ 255 := by
  have hpath := symAt_of_codes hp
  have hlt := length_lt_of_symAt hpath
  rw [← shapeSyms_length, shapeSyms_shapeOf] at hlt
  have hle := leafSyms_build_le h
  obtain ⟨l, r, hroot⟩ := exists_internal_of_build h
  rw [hroot] at hpath
  obtain ⟨b, u, rfl, -⟩ := symAt_internal_eq_some.1 hpath
  rw [List.length_cons] at hlt ⊢
  omega

end

/-! ### The pre-order image of a tree (R138) -/

theorem placeNode_snd (T : Tree) (i : Nat) : (placeNode T i).2 = i + nodeCount T := by
  induction T generalizing i with
  | leaf s f => rfl
  | internal f l r ihl ihr =>
    simp only [placeNode, nodeCount, ihl, ihr]
    omega

/-- The nodes stand at consecutive addresses. -/
theorem placeNode_addresses (T : Tree) (i : Nat) :
    (placeNode T i).1.map Prod.fst = List.range' i (nodeCount T) := by
  induction T generalizing i with
  | leaf s f => rfl
  | internal f l r ihl ihr =>
    simp only [placeNode, nodeCount, List.map_cons, List.map_append, ihl, ihr, placeNode_snd]
    rw [List.range'_append_1, List.range'_succ]

theorem wf_layout {T : Tree} {depth : Nat} (h : nodeCount T ≤ depth) : Memory.wf depth (layout T) := by
  have haddr := placeNode_addresses T 0
  constructor
  · rw [← List.pairwise_map (f := Prod.fst) (R := (· < ·)), layout, haddr]
    exact List.pairwise_lt_range'
  · intro c hc
    have hmem : c.1 ∈ (placeNode T 0).1.map Prod.fst := List.mem_map_of_mem hc
    rw [haddr, List.mem_range'_1] at hmem
    omega

/-- The words of a tree's nodes stand in a canonical TMEM from address `i` on. -/
structure Placed (M : Cells 19) (T : Tree) (i : Nat) : Prop where
  wf : Memory.wf Config.tmemDepth M
  words : (placeNode T i).1 ⊆ M
  fits : i + nodeCount T ≤ Config.tmemDepth

theorem placed_layout {T : Tree} (h : nodeCount T ≤ Config.tmemDepth) : Placed (layout T) T 0 :=
  ⟨wf_layout h, fun _ hc => hc, by rwa [Nat.zero_add]⟩

theorem toNat_nodeIdx {i : Nat} (h : i < Config.tmemDepth) : (BitVec.ofNat 9 i).toNat = i :=
  (BitVec.toNat_ofNat i 9).trans (Nat.mod_eq_of_lt h)

theorem nodeCount_pos (T : Tree) : 0 < nodeCount T := by cases T <;> exact Nat.succ_pos _

section
variable {M : Cells 19} {l r : Tree} {f i : Nat}

theorem Placed.toNat_index {T : Tree} (h : Placed M T i) : (BitVec.ofNat 9 i).toNat = i :=
  toNat_nodeIdx (lt_of_lt_of_le (Nat.lt_add_of_pos_right (nodeCount_pos T)) h.fits)

theorem Placed.read_leaf {s : Byte} (h : Placed M (.leaf s f) i) :
    Memory.read M (BitVec.ofNat 9 i).toNat = some (leafWord s) := by
  rw [h.toNat_index]
  exact Memory.read_of_mem h.wf (h.words List.mem_cons_self)

/-- The address of a child: the left one follows its parent, the right one the left subtree. -/
def childAddress (l : Tree) (i : Nat) (b : Bool) : Nat := if b then i + 1 + nodeCount l else i + 1

@[simp] theorem childAddress_false (l : Tree) (i : Nat) : childAddress l i false = i + 1 := rfl
@[simp] theorem childAddress_true (l : Tree) (i : Nat) : childAddress l i true = i + 1 + nodeCount l := rfl

theorem Placed.read_internal (h : Placed M (.internal f l r) i) :
    ∃ w, Memory.read M (BitVec.ofNat 9 i).toNat = some w ∧ kindOf w = .internal ∧
      ∀ b, childOf w b = BitVec.ofNat 9 (childAddress l i b) := by
  refine ⟨internalWord (BitVec.ofNat 9 (i + 1)) (BitVec.ofNat 9 (placeNode l (i + 1)).2), ?_,
    kindOf_internalWord _ _, fun b => ?_⟩
  · rw [h.toNat_index]
    exact Memory.read_of_mem h.wf (h.words List.mem_cons_self)
  · cases b
    · exact leftOf_internalWord _ _
    · exact (rightOf_internalWord _ _).trans (by rw [placeNode_snd]; rfl)

theorem Placed.child (h : Placed M (.internal f l r) i) (b : Bool) :
    Placed M (if b then r else l) (childAddress l i b) := by
  obtain ⟨hwf, hwords, hfits⟩ := h
  rw [nodeCount] at hfits
  rw [placeNode, placeNode_snd] at hwords
  obtain ⟨-, hchildren⟩ := List.cons_subset.1 hwords
  obtain ⟨hl, hr⟩ := List.append_subset.1 hchildren
  cases b
  · exact ⟨hwf, hl, show i + 1 + nodeCount l ≤ Config.tmemDepth by omega⟩
  · exact ⟨hwf, hr, show i + 1 + nodeCount l + nodeCount r ≤ Config.tmemDepth by omega⟩

theorem Placed.nodeAt_cons (h : Placed M (.internal f l r) i) (b : Bool) (p : List Bool) :
    nodeAt M (BitVec.ofNat 9 i) (b :: p) = nodeAt M (BitVec.ofNat 9 (childAddress l i b)) p := by
  obtain ⟨w, hw, hk, hchild⟩ := h.read_internal
  rw [nodeAt_cons_of_internal hw hk, hchild]

end

/-- The image denotes the tree. -/
theorem Placed.treeOf {M : Cells 19} {T : Tree} {i : Nat} (h : Placed M T i) :
    TreeOf M (BitVec.ofNat 9 i) (shapeOf T) := by
  induction T generalizing i with
  | leaf s f => exact symOf_leafWord s ▸ .leaf _ _ h.read_leaf (kindOf_leafWord s)
  | internal f l r ihl ihr =>
    obtain ⟨w, hw, hk, hchild⟩ := h.read_internal
    refine .internal _ w _ _ hw hk ?_ ?_
    · rw [← childOf_false, hchild]
      exact ihl (h.child false)
    · rw [← childOf_true, hchild]
      exact ihr (h.child true)

/-- A path leads to one of the tree's own addresses. -/
theorem Placed.address_of_nodeAt {M : Cells 19} {T : Tree} {i : Nat} {p : List Bool} {j : NodeIdx}
    (h : Placed M T i) (hp : nodeAt M (BitVec.ofNat 9 i) p = some j) :
    i ≤ j.toNat ∧ j.toNat < i + nodeCount T := by
  induction T generalizing i p with
  | leaf s f =>
    cases p with
    | nil =>
      obtain rfl := Option.some.inj hp
      rw [h.toNat_index]
      exact ⟨le_rfl, Nat.lt_succ_self i⟩
    | cons b p => cases (nodeAt_cons_of_leaf h.read_leaf (kindOf_leafWord s) b p).symm.trans hp
  | internal f l r ihl ihr =>
    rw [nodeCount]
    cases p with
    | nil =>
      obtain rfl := Option.some.inj hp
      rw [h.toNat_index]
      omega
    | cons b p =>
      rw [h.nodeAt_cons] at hp
      cases b
      · have hbounds := ihl (h.child false) hp
        rw [childAddress_false] at hbounds
        omega
      · have hbounds := ihr (h.child true) hp
        rw [childAddress_true] at hbounds
        omega

section
variable {M : Cells 19} {l r : Tree} {f i : Nat} {p q : List Bool} {j : NodeIdx}

/-- Below the left child lie other addresses than below the right one. -/
theorem Placed.not_both_children (h : Placed M (.internal f l r) i)
    (hp : nodeAt M (BitVec.ofNat 9 i) (false :: p) = some j)
    (hq : nodeAt M (BitVec.ofNat 9 i) (true :: q) = some j) : False := by
  rw [h.nodeAt_cons] at hp hq
  have hleft := (h.child false).address_of_nodeAt hp
  have hright := (h.child true).address_of_nodeAt hq
  simp only [childAddress_false, childAddress_true, Bool.false_eq_true, if_false] at hleft hright
  omega

/-- Below a node its own address does not come again. -/
theorem Placed.not_below_itself (h : Placed M (.internal f l r) i) {b : Bool}
    (hp : nodeAt M (BitVec.ofNat 9 i) (b :: p) = some (BitVec.ofNat 9 i)) : False := by
  rw [h.nodeAt_cons] at hp
  have hchild := (h.child b).address_of_nodeAt hp
  rw [h.toNat_index, childAddress] at hchild
  split at hchild <;> omega

end

/-- No address is reached by two paths. -/
theorem Placed.path_unique {M : Cells 19} {T : Tree} {i : Nat} {p q : List Bool} {j : NodeIdx} (h : Placed M T i)
    (hp : nodeAt M (BitVec.ofNat 9 i) p = some j) (hq : nodeAt M (BitVec.ofNat 9 i) q = some j) : p = q := by
  induction T generalizing i p q with
  | leaf s f =>
    have hnil {u : List Bool} (hu : nodeAt M (BitVec.ofNat 9 i) u = some j) : u = [] := by
      cases u with
      | nil => rfl
      | cons b u => cases (nodeAt_cons_of_leaf h.read_leaf (kindOf_leafWord s) b u).symm.trans hu
    rw [hnil hp, hnil hq]
  | internal f l r ihl ihr =>
    match p, q with
    | [], [] => rfl
    | [], b :: q =>
      obtain rfl := Option.some.inj hp
      exact (h.not_below_itself hq).elim
    | b :: p, [] =>
      obtain rfl := Option.some.inj hq
      exact (h.not_below_itself hp).elim
    | false :: p, true :: q => exact (h.not_both_children hp hq).elim
    | true :: p, false :: q => exact (h.not_both_children hq hp).elim
    | false :: p, false :: q =>
      rw [h.nodeAt_cons] at hp hq
      rw [ihl (h.child false) hp hq]
    | true :: p, true :: q =>
      rw [h.nodeAt_cons] at hp hq
      rw [ihr (h.child true) hp hq]

/-! ### The images of a built tree (R138, R139) -/

/-- Every node a path leads to has a tree, hence a word. -/
theorem TreeOf.exists_read {M : Cells 19} {i j : NodeIdx} {T : Shape} {p : List Bool} (h : TreeOf M i T)
    (hp : nodeAt M i p = some j) : ∃ w, Memory.read M j.toNat = some w := by
  induction p generalizing i T with
  | nil =>
    obtain rfl := Option.some.inj hp
    cases h with
    | leaf _ w hw _ => exact ⟨w, hw⟩
    | internal _ w _ _ hw _ _ _ => exact ⟨w, hw⟩
  | cons b p ih =>
    cases T with
    | leaf s =>
      obtain ⟨w, hw, hk, -⟩ := h.of_leaf
      cases (nodeAt_cons_of_leaf hw hk b p).symm.trans hp
    | internal l r =>
      obtain ⟨w, hw, hk, hchild⟩ := h.of_internal
      rw [nodeAt_cons_of_internal hw hk] at hp
      exact ih (hchild b) hp

section
variable {X : List Byte} {T : Tree} (h : build (freq X) = some T)
include h

theorem nodeCount_build_le : nodeCount T ≤ Config.tmemDepth := by
  have hnodes := nodeCount_succ T
  have hleaves := leafSyms_build_le h
  rw [Config.tmemDepth]
  omega

theorem placed_build : Placed (layout T) T 0 := placed_layout (nodeCount_build_le h)

theorem treeOf_build : TreeOf (layout T) 0#9 (shapeOf T) := (placed_build h).treeOf

theorem leafAt_build_iff {p : List Bool} {s : Byte} : LeafAt (layout T) p s ↔ codes T s = some p :=
  (leafAt_iff_symAt (treeOf_build h)).trans (codes_eq_some_iff (nodup_leafSyms_build h)).symm

theorem wfTree_build : WfTree (layout T) where
  written _ _ hp := (treeOf_build h).exists_read hp
  root := by
    obtain ⟨l, r, hroot⟩ := exists_internal_of_build h
    obtain ⟨w, hw, hk, -⟩ := (hroot ▸ treeOf_build h).of_internal
    exact ⟨w, hw, hk⟩
  unshared _ _ _ hp hq := (placed_build h).path_unique hp hq
  distinct _ _ _ hp hq :=
    Option.some.inj (((leafAt_build_iff h).1 hp).symm.trans ((leafAt_build_iff h).1 hq))

end

theorem read_ctabImage_of_some {CT : CodeTable} {b : Byte} {p : List Bool} (h : CT b = some p) :
    Memory.read (ctabImage CT) b.toNat = some (codeEntry p) :=
  (Memory.read_table (n := Config.alphabet) _ b.isLt).trans (by simp [h])

theorem read_ctabImage_of_none {CT : CodeTable} {b : Byte} (h : CT b = none) :
    Memory.read (ctabImage CT) b.toNat = some 0#263 :=
  (Memory.read_table (n := Config.alphabet) _ b.isLt).trans (by simp [h])

/-- The two images of a built tree match (R139). -/
theorem matches_build {X : List Byte} {T : Tree} (h : build (freq X) = some T) :
    Matches (layout T) (ctabImage (codes T)) where
  wfTree := wfTree_build h
  onLeaf b p hp := by
    have hcode := (leafAt_build_iff h).1 hp
    obtain ⟨-, hlen⟩ := length_codes_build h hcode
    exact ⟨codeEntry p, read_ctabImage_of_some hcode, codeOf_codeEntry hlen, clenOf_codeEntry hlen⟩
  offLeaf b hb := by
    have hnone : codes T b = none := Option.eq_none_iff_forall_ne_some.2 fun p hp => hb ⟨p, (leafAt_build_iff h).2 hp⟩
    exact ⟨0#263, read_ctabImage_of_none hnone, by simp [clenOf]⟩

/-! ### `compress` and `decompress` (R146, R147) -/

/-- A stream that completes with every byte coded has not overrun `EBITS` (R48). -/
theorem sum_codeLength_lt_of_execAll {X : List Byte} {s t : State} (hr : s.enc.estate = .run)
    (hX : ∀ b ∈ X, ∃ p, tableOf s.enc.ctab b = some p) (h : execAll (eStr X ++ [.eEnd]) s = .next t) :
    s.enc.ebits.toNat + (X.map (codeLength s.enc.ctab)).sum < 2 ^ 64 := by
  induction X generalizing s with
  | nil => exact s.enc.ebits.isLt
  | cons b X ih =>
    obtain ⟨p, hp⟩ := hX b List.mem_cons_self
    obtain ⟨e, he, h0, -⟩ := tableOf_eq_some.1 hp
    rw [List.map_cons, List.sum_cons, codeLength_of_read he]
    cases hx : exec (.eSym b) s with
    | fault k => simp [eStr, execAll, hx] at h
    | refused k => simp [eStr, execAll, hx] at h
    | next u =>
      have hrest : execAll (eStr X ++ [.eEnd]) u = .next t := (execAll_cons_next hx).symm.trans h
      rcases exec_eSym_next hx with ⟨hr', -⟩ | ⟨-, e', he', ⟨h0', -⟩ | ⟨-, hbits, -, rfl⟩⟩
      · exact absurd hr hr'
      · obtain rfl := Option.some.inj (he.symm.trans he')
        exact absurd h0' h0
      · obtain rfl := Option.some.inj (he.symm.trans he')
        have hctab : (appendBits s.enc (codeOf e)).ctab = s.enc.ctab := appendBits_ctab_eq _ _
        have hle := ih ((appendBits_estate _ _).trans hr)
          (fun c hc => by simpa [hctab] using hX c (List.mem_cons_of_mem _ hc)) hrest
        simp only [State.setEnc_enc, hctab, appendBits_ebits, codeOf_length, toNat_add_of_lt hbits] at hle
        omega

theorem codeLength_le (C : Cells 263) (b : Byte) : codeLength C b ≤ 255 := by
  unfold codeLength
  split
  · exact clenOf_le _
  · exact Nat.zero_le _

theorem sum_codeLength_le (C : Cells 263) (X : List Byte) : (X.map (codeLength C)).sum ≤ X.length * 255 := by
  have hle := List.sum_le_card_nsmul (X.map (codeLength C)) 255 fun n hn => by
    obtain ⟨b, -, rfl⟩ := List.mem_map.1 hn
    exact codeLength_le C b
  simpa using hle

section
variable {X : List Byte} {T : Tree} (h : build (freq X) = some T)
include h

theorem exists_leafAt_build {b : Byte} (hb : b ∈ X) : ∃ p, LeafAt (layout T) p b := by
  obtain ⟨p, hp⟩ := Option.isSome_iff_exists.1 (isSome_codes_iff.2 (mem_leafSyms_build h hb))
  exact ⟨p, (leafAt_build_iff h).2 hp⟩

/-- An input whose encoding `EBITS` can count is compressed, and comes back (R150). -/
theorem decompress_compress_of_lt (hbits : (X.map (codeLength (ctabImage (codes T)))).sum < 2 ^ 64) :
    ∃ B, compress X = .ok (B, some T) ∧ decompress B (some T) = .ok X := by
  obtain ⟨B, -, henc, hdec⟩ := (matches_build h).roundTrip (fun b => exists_leafAt_build h) hbits
  obtain ⟨t, hrun, -, hdone, hout, -⟩ := henc (launchEnc (ctabImage (codes T))) rfl
  obtain ⟨u, hrun', -, hdone', hout', -⟩ := hdec (launchDec (layout T)) rfl
  refine ⟨B, ?_, ?_⟩
  · simp [compress, h, hrun, encResult, hdone, hout]
  · simp [decompress, hrun', decResult, hdone', hout']

/-- `compress` is refused where the encoding overruns `EBITS`. -/
theorem sum_codeLength_lt_of_compress (hne : compress X ≠ .refused) :
    (X.map (codeLength (ctabImage (codes T)))).sum < 2 ^ 64 := by
  cases hrun : execAll (eEncode X) (launchEnc (ctabImage (codes T))) with
  | fault k => exact absurd (by simp [compress, h, hrun]) hne
  | refused k => exact absurd (by simp [compress, h, hrun]) hne
  | next t =>
    rw [eEncode, execAll_cons_next (exec_eStart _)] at hrun
    have hfit := sum_codeLength_lt_of_execAll rfl
      (fun b hb => (exists_leafAt_build h hb).imp fun p => (matches_build h).tableOf_of_leafAt) hrun
    exact lt_of_eq_of_lt (Nat.zero_add _).symm hfit

end

/-- The empty input (R150). -/
theorem decompress_compress_nil : compress [] = .ok ([], none) ∧ decompress [] none = .ok [] := by
  constructor
  · simp [compress, build_freq_nil]
  · rfl

end Sys2Proof.Machine

/-! ### The obligations -/

namespace Sys2Proof.Proofs

open Sys2Proof.Machine Sys2Proof.Safety

/-- Settles O49: a code is the path to its leaf, and no path to a leaf goes on to another. -/
theorem codesOfBuiltTree : Obligations.CodesOfBuiltTree := by
  refine fun X T h => ⟨fun b => isSome_codes_iff, fun b => mem_leafSyms_build h, fun b p => length_codes_build h,
    fun b b' p p' hne hp hp' hpre => ?_⟩
  have hpath := symAt_of_codes hp
  have hpath' := symAt_of_codes hp'
  rw [eq_of_symAt_prefix hpath hpath' hpre] at hpath
  exact hne (Option.some.inj (hpath.symm.trans hpath'))

/-- Settles O50: the words stand in pre-order at consecutive addresses, so no two paths meet. -/
theorem layoutIsWellFormedImage : Obligations.LayoutIsWellFormedImage := fun _ _ h =>
  ⟨wfTree_build h, treeOf_build h, (placed_build h).wf⟩

/-- Settles O51: the leaves of the one image stand at the ends of the codes in the other. -/
theorem imagesOfBuiltTreeMatch : Obligations.ImagesOfBuiltTreeMatch := fun _ _ => matches_build

/-- Settles O54: by the round trip through matching images; `compress` is refused only where `EBITS` is overrun, and
codes have at most 255 bits. -/
theorem decompressInvertsCompress : Obligations.DecompressInvertsCompress := by
  intro X
  cases h : build (freq X) with
  | none =>
    obtain rfl := build_freq_eq_none_iff.1 h
    obtain ⟨hcompress, hdecompress⟩ := decompress_compress_nil
    exact ⟨fun _ => ⟨[], none, hcompress, hdecompress⟩, fun _ => by simp [hcompress]⟩
  | some T =>
    refine ⟨fun hne => ?_, fun hlen => ?_⟩
    · obtain ⟨B, hcompress, hdecompress⟩ := decompress_compress_of_lt h (sum_codeLength_lt_of_compress h hne)
      exact ⟨B, some T, hcompress, hdecompress⟩
    · have hsum := sum_codeLength_le (ctabImage (codes T)) X
      obtain ⟨B, hcompress, -⟩ := decompress_compress_of_lt h (by omega)
      simp [hcompress]

end Sys2Proof.Proofs
end

section
/-! SUPPORT. Proofs of the statements of 41_encoder.md: what ENC's commands do and leave unchanged (R161, R165, R170,
R176), the commands ignored outside a run (R174, R204), and the empty runs (R172, R202). -/

namespace Sys2Proof.Machine

/-! ### What a command leaves unchanged (R160) -/

/-- No command takes from or adds to what the host has yet to do. -/
theorem exec_next_inbox {i : Instr} {s t : State} (h : exec i s = .next t) : t.inbox = s.inbox := by
  have hcommutes : exec i s = mapNext (·.setInbox s.inbox) (exec i s) := exec_setInbox i s.inbox s
  rw [h] at hcommutes
  have hset : t = t.setInbox s.inbox := Host.Outcome.next.inj hcommutes
  rw [hset, State.setInbox_inbox]

/-- No command stores to CTAB. -/
theorem exec_next_ctab {i : Instr} {s t : State} (h : exec i s = .next t) : t.enc.ctab = s.enc.ctab := by
  cases i with
  | eStart => cases h; rfl
  | eSym b =>
    rcases exec_eSym_next h with ⟨-, rfl⟩ | ⟨-, e, -, ⟨-, rfl⟩ | ⟨-, -, -, rfl⟩⟩
    · rfl
    · rfl
    · exact s.appendCode_ctab (codeOf e)
  | eEnd =>
    rcases exec_eEnd_next h with ⟨-, rfl⟩ | ⟨-, rfl⟩
    · rfl
    · exact flushBits_ctab_eq s.enc
  | dStart | dBit _ | dEnd => rw [exec_dec_next_enc rfl h]

@[simp] theorem appendBits_eerr (e : Enc) (bs : List Bool) : (appendBits e bs).eerr = e.eerr := by
  obtain ⟨ys, h⟩ := appendBits_frame e bs
  rw [h]

@[simp] theorem appendBits_ebad (e : Enc) (bs : List Bool) : (appendBits e bs).ebad = e.ebad := by
  obtain ⟨ys, h⟩ := appendBits_frame e bs
  rw [h]

@[simp] theorem flushBits_eerr (e : Enc) : (flushBits e).eerr = e.eerr := by rw [flushBits_eq]

@[simp] theorem flushBits_ebad (e : Enc) : (flushBits e).ebad = e.ebad := by rw [flushBits_eq]

section
variable (s : State) (p : List Bool)

theorem State.appendCode_eerr : (s.appendCode p).enc.eerr = s.enc.eerr := appendBits_eerr s.enc p

theorem State.appendCode_ebad : (s.appendCode p).enc.ebad = s.enc.ebad := appendBits_ebad s.enc p

/-- A code appended stands behind what `EOUT` held. -/
theorem State.exists_appendCode_eout : ∃ ys, (s.appendCode p).enc.eout = s.enc.eout ++ ys := by
  obtain ⟨ys, h⟩ := eout_prefix_appendBits s.enc p
  exact ⟨ys, h.symm⟩

end

/-- `E_SYM` leaves the state and error registers or, where it raises, the accumulator, the counters and the stream. -/
theorem exec_eSym_frame {b : Byte} {s t : State} (h : exec (.eSym b) s = .next t) :
    (t.enc.estate = s.enc.estate ∧ t.enc.eerr = s.enc.eerr ∧ t.enc.ebad = s.enc.ebad ∧
      ∃ ys, t.enc.eout = s.enc.eout ++ ys) ∨
    (t.enc.estate = .error ∧ t.enc.eacc = s.enc.eacc ∧ t.enc.epos = s.enc.epos ∧ t.enc.ebits = s.enc.ebits ∧
      t.enc.eout = s.enc.eout) := by
  rcases exec_eSym_next h with ⟨-, rfl⟩ | ⟨-, e, -, ⟨-, rfl⟩ | ⟨-, -, -, rfl⟩⟩
  · exact .inl ⟨rfl, rfl, rfl, [], (List.append_nil _).symm⟩
  · exact .inr ⟨rfl, rfl, rfl, rfl, rfl⟩
  · exact .inl ⟨s.appendCode_estate _, s.appendCode_eerr _, s.appendCode_ebad _, s.exists_appendCode_eout _⟩

/-- `E_END` leaves the counters and the error registers. -/
theorem exec_eEnd_frame {s t : State} (h : exec .eEnd s = .next t) :
    t.enc.epos = s.enc.epos ∧ t.enc.ebits = s.enc.ebits ∧ t.enc.eerr = s.enc.eerr ∧ t.enc.ebad = s.enc.ebad := by
  rcases exec_eEnd_next h with ⟨-, rfl⟩ | ⟨-, rfl⟩
  · exact ⟨rfl, rfl, rfl, rfl⟩
  · exact ⟨flushBits_epos _, flushBits_ebits _, flushBits_eerr _, flushBits_ebad _⟩

/-! ### The empty runs (R172, R202) -/

/-- The decoder is back at the root from START on, so END finds it there. -/
theorem execAll_dRun_nil (s : State) :
    execAll (dRun []) s = .next ((startDec s).setDec { (startDec s).dec with dstate := .done }) :=
  (execAll_cons_next (exec_dStart s)).trans (execAll_cons_next (execDEnd_root rfl rfl))

/-- Nothing is pending right after START, so END flushes nothing. -/
theorem execAll_eEncode_nil (s : State) :
    execAll (eEncode []) s = .next ((startEnc s).setEnc { (startEnc s).enc with estate := .done }) := by
  have hflush : flushBits (startEnc s).enc = (startEnc s).enc := if_pos rfl
  have hend : exec .eEnd (startEnc s) = _ := execEEnd_run rfl
  rw [hflush] at hend
  exact (execAll_cons_next (exec_eStart s)).trans (execAll_cons_next hend)

end Sys2Proof.Machine

namespace Sys2Proof.Safety

open Sys2Proof.Machine

/-- Between two states with their output in form, `n` bits further on, the pending bits and the new ones have filled
`floor((p + n) / 8)` bytes (R176). -/
theorem OpenOutput.length_new_bytes {e e' : Enc} {ys : List Byte} {n : Nat} (h : OpenOutput e) (h' : OpenOutput e')
    (hout : e'.eout = e.eout ++ ys) (hbits : e'.ebits.toNat = e.ebits.toNat + n) :
    ys.length = (e.ebits.toNat % 8 + n) / 8 := by
  have hbytes := h.bytes
  have hbytes' := h'.bytes
  rw [hout, hbits, List.length_append] at hbytes'
  omega

/-- The flushed output has a byte for every eight bits, the last one begun included (R170). -/
theorem OpenOutput.length_flushBits_eout {e : Enc} (h : OpenOutput e) :
    (flushBits e).eout.length = (e.ebits.toNat + 7) / 8 := by
  have hlen := pack_fst_length (encodedBits e)
  rwa [h.pack_encodedBits, encodedBits, bitsOf_length] at hlen

end Sys2Proof.Safety

/-! ### The obligations -/

namespace Sys2Proof.Proofs

open Sys2Proof.Machine Sys2Proof.Safety

/-- Settles O19: the code's bits are appended one by one to an output in form, which fixes how many bytes they fill. -/
theorem eSymAppendsTheCode : Obligations.ESymAppendsTheCode := by
  intro s b e hinv hr he h0 hbits hpos
  have hopen := hinv.openOutput_of_run hr
  have hfit : s.enc.ebits.toNat + (codeOf e).length < 2 ^ 64 := by rwa [codeOf_length]
  have hcount := State.appendCode_ebits hfit
  rw [codeOf_length] at hcount
  obtain ⟨ys, hys⟩ := s.exists_appendCode_eout (codeOf e)
  have hlen := hopen.length_new_bytes (State.openOutput_appendCode hfit hopen) hys hcount
  have hmax := clenOf_le e
  exact ⟨s.appendCode (codeOf e), ys, execESym_append hr he h0 hbits hpos,
    State.encodedBits_appendCode hfit hopen, hcount, rfl, hys, hlen, by omega,
    (s.appendCode_estate _).trans hr, s.appendCode_eerr _, s.appendCode_ebad _, s.appendCode_ctab _, rfl, rfl⟩

/-- Settles O21: the flush writes the pending byte, and the flushed output is the packed form of the encoded bits. -/
theorem eEndFlushesAndEndsWell : Obligations.EEndFlushesAndEndsWell := by
  refine fun s => ⟨fun hr => ⟨_, execEEnd_run hr, ?_, fun hinv => ?_⟩, execEEnd_of_not_run⟩
  · rw [flushBits_eq]
    rfl
  · have hopen := hinv.openOutput_of_run hr
    rw [State.setEnc_enc, flushBits_ebits]
    exact ⟨hopen.pack_encodedBits, hopen.flushBits_eacc, hopen.length_flushBits_eout⟩

/-- Settles O28, from the frame of each command. -/
theorem encoderCommandFrame : Obligations.EncoderCommandFrame := by
  intro i s t h hi
  have hdec := exec_enc_next_dec hi h
  have hctab := exec_next_ctab h
  refine ⟨hdec, exec_next_inbox h, fun j => ?_, fun b => ?_, hctab, ?_, ?_⟩
  · rw [readTmem, hdec, readTmem]
  · rw [readCtab, hctab, readCtab]
  · rintro b rfl
    exact exec_eSym_frame h
  · rintro rfl
    exact exec_eEnd_frame h

/-- Settles O17: each of the four commands tests the run state first. -/
theorem commandsOutsideRunIgnored : Obligations.CommandsOutsideRunIgnored := fun _ =>
  ⟨fun hr => ⟨execDBit_of_not_run hr, execDEnd_of_not_run hr⟩,
    fun hr => ⟨execESym_of_not_run hr, execEEnd_of_not_run hr⟩⟩

/-- Settles O18: the registers START writes do not depend on what they held. -/
theorem eStartBeginsCleanRun : Obligations.EStartBeginsCleanRun := fun s =>
  ⟨startEnc s, exec_eStart s, rfl, exec_eStart (startEnc s)⟩

/-- Settles O20: the step is the error entry alone. -/
theorem eSymWithoutCodeRaises : Obligations.ESymWithoutCodeRaises := fun _ _ _ => execESym_noCode

/-- Settles O42: the steps run START and END, neither of which reads a memory. -/
theorem emptyRunsEndWell : Obligations.EmptyRunsEndWell := by
  refine ⟨fun s rest hin => ?_, fun s rest hin => ?_⟩
  · exact ⟨_, (runSteps_present hin).trans (execAll_dRun_nil _), rfl, rfl, rfl, rfl, rfl, rfl, rfl, rfl⟩
  · exact ⟨_, (runSteps_present hin).trans (execAll_eEncode_nil _), rfl, rfl, rfl, rfl, rfl, rfl, rfl, rfl, rfl⟩

end Sys2Proof.Proofs
end

section
/-! SUPPORT. Proofs of the statements of 42_decoder.md: what DEC's commands do and leave unchanged (R190, R191, R195,
R200, R207), and where `TREE_FAULT` comes from (R197, R234). -/

namespace Sys2Proof.Machine

/-! ### What a command leaves unchanged (R190) -/

/-- No command stores to TMEM. -/
theorem exec_next_tmem {i : Instr} {s t : State} (h : exec i s = .next t) : t.dec.tmem = s.dec.tmem := by
  cases i with
  | dStart => cases h; rfl
  | dBit v =>
    rcases exec_dBit_next h with
      ⟨-, rfl⟩ | ⟨-, -, rfl⟩ | ⟨-, b, -, n, -, ⟨-, rfl⟩ | ⟨-, m, -, -, ⟨-, rfl⟩ | ⟨-, -, rfl⟩⟩⟩ <;> rfl
  | dEnd => rcases exec_dEnd_next h with ⟨-, rfl⟩ | ⟨-, -, rfl⟩ | ⟨-, -, rfl⟩ <;> rfl
  | eStart | eSym _ | eEnd => rw [exec_enc_next_dec rfl h]

/-- `D_BIT` leaves the state and error registers, with a symbol counted only where one is emitted and the pointer is
back at the root, or, where it raises, the pointer, the counters and the stream. -/
theorem exec_dBit_frame {v : Byte} {s t : State} (h : exec (.dBit v) s = .next t) :
    (t.dec.dstate = s.dec.dstate ∧ t.dec.derr = s.dec.derr ∧ t.dec.dbad = s.dec.dbad ∧
      (t.dec.dsyms = s.dec.dsyms ∧ t.dec.dout = s.dec.dout ∨ t.dec.dcur = 0#9 ∧ ∃ y, t.dec.dout = s.dec.dout ++ [y])) ∨
    (t.dec.dstate = .error ∧ t.dec.dcur = s.dec.dcur ∧ t.dec.dpos = s.dec.dpos ∧ t.dec.dsyms = s.dec.dsyms ∧
      t.dec.dout = s.dec.dout) := by
  rcases exec_dBit_next h with
    ⟨-, rfl⟩ | ⟨-, -, rfl⟩ | ⟨-, b, -, n, -, ⟨-, rfl⟩ | ⟨-, m, -, -, ⟨-, rfl⟩ | ⟨-, -, rfl⟩⟩⟩
  · exact .inl ⟨rfl, rfl, rfl, .inl ⟨rfl, rfl⟩⟩
  · exact .inr ⟨rfl, rfl, rfl, rfl, rfl⟩
  · exact .inr ⟨rfl, rfl, rfl, rfl, rfl⟩
  · exact .inl ⟨rfl, rfl, rfl, .inl ⟨rfl, rfl⟩⟩
  · exact .inl ⟨rfl, rfl, rfl, .inr ⟨rfl, symOf m, rfl⟩⟩

/-- `D_END` leaves all of DEC but the state and error registers. -/
theorem exec_dEnd_frame {s t : State} (h : exec .dEnd s = .next t) :
    t.dec.dcur = s.dec.dcur ∧ t.dec.dpos = s.dec.dpos ∧ t.dec.dsyms = s.dec.dsyms ∧ t.dec.dbad = s.dec.dbad ∧
      t.dec.dout = s.dec.dout := by
  rcases exec_dEnd_next h with ⟨-, rfl⟩ | ⟨-, -, rfl⟩ | ⟨-, -, rfl⟩ <;> exact ⟨rfl, rfl, rfl, rfl, rfl⟩

/-! ### The walk, by the kind of the child (R195) -/

section
variable {s : State} {m : TreeWord} (c : NodeIdx)

theorem walkTo_internal (hk : kindOf m = .internal) (hpos : s.dec.dpos.toNat + 1 < 2 ^ 64) :
    walkTo c m s = .next (s.walkOn c) := by
  simp [walkTo, hk, countUp_eq_some.2 ⟨hpos, rfl⟩, State.walkOn]

theorem walkTo_leaf (hk : kindOf m = .leaf) (hpos : s.dec.dpos.toNat + 1 < 2 ^ 64)
    (hsyms : s.dec.dsyms.toNat + 1 < 2 ^ 64) : walkTo c m s = .next (s.emitSym (symOf m)) := by
  simp [walkTo, hk, countUp_eq_some.2 ⟨hpos, rfl⟩, countUp_eq_some.2 ⟨hsyms, rfl⟩, State.emitSym]

end

/-! ### Where `TREE_FAULT` comes from (R197) -/

/-- A `D_BIT` that puts `TREE_FAULT` into `DERR` read a leaf word at the pointer. -/
theorem exec_dBit_treeFault {v : Byte} {s t : State} (h : exec (.dBit v) s = .next t)
    (hs : s.dec.derr ≠ .treeFault) (ht : t.dec.derr = .treeFault) :
    ∃ n, readTmem s.dec.dcur s = some n ∧ kindOf n = .leaf := by
  rcases exec_dBit_next h with
    ⟨-, rfl⟩ | ⟨-, -, rfl⟩ | ⟨-, b, -, n, hn, ⟨hk, rfl⟩ | ⟨-, m, -, -, ⟨-, rfl⟩ | ⟨-, -, rfl⟩⟩⟩
  · exact absurd ht hs
  · cases ht
  · exact ⟨n, hn, hk⟩
  · exact absurd ht hs
  · exact absurd ht hs

/-- The root of a well-formed image is no leaf (R64 (b)). -/
theorem WfTree.kindOf_root_ne_leaf {M : Cells 19} {w : TreeWord} (h : WfTree M) (hw : Memory.read M 0 = some w) :
    kindOf w ≠ .leaf := by
  obtain ⟨r, hr, hk⟩ := h.root
  obtain rfl : r = w := Option.some.inj (hr.symm.trans hw)
  simp [hk]

end Sys2Proof.Machine

namespace Sys2Proof.Safety

open Sys2Proof.Machine

/-- In a run that meets the invariant, the leaf word behind a `TREE_FAULT` is the root's (R28, R197). -/
theorem DecInv.leafRoot_of_treeFault {s t : State} {v : Byte} (h : DecInv s.dec) (hr : s.dec.dstate = .run)
    (hx : exec (.dBit v) s = .next t) (ht : t.dec.derr = .treeFault) :
    s.dec.dcur = 0#9 ∧ ∃ w, readTmem 0#9 s = some w ∧ kindOf w = .leaf := by
  obtain ⟨n, hn, hk⟩ := exec_dBit_treeFault hx (by simp [h.derr_of_run hr]) ht
  have h0 := h.dcur_of_leaf hr hn hk
  exact ⟨h0, n, h0 ▸ hn, hk⟩

end Sys2Proof.Safety

/-! ### The obligations -/

namespace Sys2Proof.Proofs

open Sys2Proof.Machine Sys2Proof.Safety

/-- Settles O15: only a leaf word raises it, and by the pointer invariant a run can stand on one at the root alone. -/
theorem treeFaultOnlyOnLeafRoot : Obligations.TreeFaultOnlyOnLeafRoot := by
  refine fun s t v hinv hr hx => ⟨hinv.leafRoot_of_treeFault hr hx, fun hwf ht => ?_⟩
  obtain ⟨-, w, hw, hk⟩ := hinv.leafRoot_of_treeFault hr hx ht
  exact hwf.kindOf_root_ne_leaf hw hk

/-- Settles O27, from the frame of each command. -/
theorem decoderCommandFrame : Obligations.DecoderCommandFrame := by
  intro i s t h hi
  have henc := exec_dec_next_enc hi h
  have htmem := exec_next_tmem h
  refine ⟨henc, exec_next_inbox h, fun j => ?_, fun b => ?_, htmem, ?_, ?_⟩
  · rw [readTmem, htmem, readTmem]
  · rw [readCtab, henc, readCtab]
  · rintro v rfl
    exact exec_dBit_frame h
  · rintro rfl
    exact exec_dEnd_frame h

/-- Settles O11: the registers START writes do not depend on what they held. -/
theorem dStartBeginsCleanRun : Obligations.DStartBeginsCleanRun := fun s =>
  ⟨startDec s, exec_dStart s, rfl, exec_dStart (startDec s)⟩

/-- Settles O12: with the checks passed the step is the walk, which turns on the kind of the child. -/
theorem dBitWalksOneEdge : Obligations.DBitWalksOneEdge := by
  intro s v n m c hr hv hn hk hm hpos
  obtain ⟨b, hb, rfl⟩ := exists_bit_of_child hv
  rw [exec_dBit, execDBit_walk hr hb hn hk hm]
  exact ⟨fun hkm => walkTo_internal _ hkm hpos, fun hkm hsyms => walkTo_leaf _ hkm hpos hsyms⟩

/-- Settles O14: both bits pass the symbol check, and the word at the pointer is looked at next. -/
theorem dBitOnLeafRaisesTreeFault : Obligations.DBitOnLeafRaisesTreeFault := by
  rintro s v n hr (rfl | rfl) hn hk
  · exact execDBit_leaf hr (bitOfSymbol_symbolOfBit false) hn hk
  · exact execDBit_leaf hr (bitOfSymbol_symbolOfBit true) hn hk

/-- Settles O16: END tests the run state, then the pointer. -/
theorem dEndChecksTheRoot : Obligations.DEndChecksTheRoot := fun _ =>
  ⟨execDEnd_root, execDEnd_midPath, execDEnd_of_not_run⟩

end Sys2Proof.Proofs
end

section
/-! SUPPORT. Proofs of the statements of 60_exceptions.md: what an error entry changes (R230, R236), how ERROR is left
(R239), and interleavings of the commands of the two engines (R252, R254). -/

namespace Sys2Proof.Machine

/-! ### Error entries (R230, R236) -/

/-- A command that brings DEC into ERROR is one of the three that raise there, and its step is the error entry. -/
theorem exec_next_decError {i : Instr} {s t : State} (h : exec i s = .next t) (hs : s.dec.dstate ≠ .error)
    (ht : t.dec.dstate = .error) :
    (∃ v, i = .dBit v ∧ bitOfSymbol v = none ∧ t = raise (.malformedBit v) s) ∨
    (∃ v, i = .dBit v ∧ bitOfSymbol v ≠ none ∧ t = raise .treeFault s) ∨
    (i = .dEnd ∧ s.dec.dcur ≠ 0#9 ∧ t = raise .truncatedStream s) := by
  cases i with
  | dStart => cases h; cases ht
  | dBit v =>
    rcases exec_dBit_next h with
      ⟨-, rfl⟩ | ⟨-, hv, rfl⟩ | ⟨-, b, hb, n, -, ⟨-, rfl⟩ | ⟨-, m, -, -, ⟨-, rfl⟩ | ⟨-, -, rfl⟩⟩⟩
    · exact absurd ht hs
    · exact .inl ⟨v, rfl, hv, rfl⟩
    · exact .inr (.inl ⟨v, rfl, by simp [hb], rfl⟩)
    · exact absurd ht hs
    · exact absurd ht hs
  | dEnd =>
    rcases exec_dEnd_next h with ⟨-, rfl⟩ | ⟨-, -, rfl⟩ | ⟨-, hc, rfl⟩
    · exact absurd ht hs
    · cases ht
    · exact .inr (.inr ⟨rfl, hc, rfl⟩)
  | eStart | eSym _ | eEnd => exact absurd (exec_enc_next_dec rfl h ▸ ht) hs

/-- A command that brings ENC into ERROR is an `E_SYM`, and its step is the error entry. -/
theorem exec_next_encError {i : Instr} {s t : State} (h : exec i s = .next t) (hs : s.enc.estate ≠ .error)
    (ht : t.enc.estate = .error) : ∃ b, i = .eSym b ∧ t = raise (.internalEncoding b) s := by
  cases i with
  | eStart => cases h; cases ht
  | eSym b =>
    rcases exec_eSym_next h with ⟨-, rfl⟩ | ⟨-, e, -, ⟨-, rfl⟩ | ⟨-, -, -, rfl⟩⟩
    · exact absurd ht hs
    · exact ⟨b, rfl, rfl⟩
    · exact absurd ((s.appendCode_estate (codeOf e)).symm.trans ht) hs
  | eEnd =>
    rcases exec_eEnd_next h with ⟨-, rfl⟩ | ⟨-, rfl⟩
    · exact absurd ht hs
    · cases ht
  | dStart | dBit _ | dEnd => exact absurd (exec_dec_next_enc rfl h ▸ ht) hs

/-! ### Outside a run only START and reset change an engine's registers (R174, R204, R239) -/

theorem exec_next_dec_of_not_run {i : Instr} {s t : State} (h : exec i s = .next t) (hr : s.dec.dstate ≠ .run)
    (hi : i ≠ .dStart) : t.dec = s.dec := by
  cases i with
  | dStart => exact absurd rfl hi
  | dBit v => cases (execDBit_of_not_run hr v).symm.trans h; rfl
  | dEnd => cases (execDEnd_of_not_run hr).symm.trans h; rfl
  | eStart | eSym _ | eEnd => exact exec_enc_next_dec rfl h

theorem exec_next_enc_of_not_run {i : Instr} {s t : State} (h : exec i s = .next t) (hr : s.enc.estate ≠ .run)
    (hi : i ≠ .eStart) : t.enc = s.enc := by
  cases i with
  | eStart => exact absurd rfl hi
  | eSym b => cases (execESym_of_not_run hr b).symm.trans h; rfl
  | eEnd => cases (execEEnd_of_not_run hr).symm.trans h; rfl
  | dStart | dBit _ | dEnd => exact exec_dec_next_enc rfl h

section
variable {s t : State} {ev : HostEvent} {rest : List HostEvent} (hin : s.inbox = ev :: rest)
include hin

/-- A table write reaches TMEM outside a run; no other register of DEC. -/
theorem step_next_dec_of_not_run (h : step s = .next t) (hr : s.dec.dstate ≠ .run) (hstart : ¬ Safety.isStart .dec ev)
    (hreset : ev ≠ .reset) : t.dec = { s.dec with tmem := t.dec.tmem } := by
  rcases step_next hin h with ⟨i, rfl, hx⟩ | ⟨p, w, -, -, rfl⟩ | ⟨i, w, -, -, rfl⟩ | ⟨b, e, -, -, rfl⟩ | ⟨rfl, -⟩
  · have hsame : t.dec = s.dec :=
      exec_next_dec_of_not_run (s := s.setInbox rest) hx hr fun hi => hstart (isStart_command_iff.2 hi)
    rw [hsame]
  · rfl
  · rfl
  · rfl
  · exact absurd rfl hreset

/-- A table write reaches CTAB outside a run; no other register of ENC. -/
theorem step_next_enc_of_not_run (h : step s = .next t) (hr : s.enc.estate ≠ .run) (hstart : ¬ Safety.isStart .enc ev)
    (hreset : ev ≠ .reset) : t.enc = { s.enc with ctab := t.enc.ctab } := by
  rcases step_next hin h with ⟨i, rfl, hx⟩ | ⟨p, w, -, -, rfl⟩ | ⟨i, w, -, -, rfl⟩ | ⟨b, e, -, -, rfl⟩ | ⟨rfl, -⟩
  · have hsame : t.enc = s.enc :=
      exec_next_enc_of_not_run (s := s.setInbox rest) hx hr fun hi => hstart (isStart_command_iff.2 hi)
    rw [hsame]
  · rfl
  · rfl
  · rfl
  · exact absurd rfl hreset

theorem step_isStart {p : Port} (hstart : Safety.isStart p ev) : step s = exec (startCommand p) (s.setInbox rest) := by
  obtain ⟨w, rfl, hd⟩ := hstart
  rw [step_cons hin, takeEvent_command hd]

theorem step_reset (hreset : ev = .reset) : step s = .next (State.reset.setInbox rest) := by
  subst hreset
  exact step_cons hin

end

/-- A step with nothing presented. -/
theorem step_nil {s : State} (hin : s.inbox = []) : step s = .next s := by
  simp [step, fetch, hin]

/-! ### Streams of one engine's commands (R252) -/

theorem State.eq_setDec {s t : State} (henc : t.enc = s.enc) (hinbox : t.inbox = s.inbox) : t = s.setDec t.dec := by
  rw [State.setDec, ← henc, ← hinbox]

theorem State.eq_setEnc {s t : State} (hdec : t.dec = s.dec) (hinbox : t.inbox = s.inbox) : t = s.setEnc t.enc := by
  rw [State.setEnc, ← hdec, ← hinbox]

/-- What every command of a stream carries through, the stream carries through. -/
theorem execAll_mapNext {f : State → State} {is : List Instr}
    (hf : ∀ i ∈ is, ∀ s, exec i (f s) = mapNext f (exec i s)) (s : State) :
    execAll is (f s) = mapNext f (execAll is s) := by
  induction is generalizing s with
  | nil => rfl
  | cons i is ih =>
    rw [execAll, execAll, hf i List.mem_cons_self]
    cases exec i s with
    | next t => exact ih (fun j hj => hf j (List.mem_cons_of_mem i hj)) t
    | fault k => rfl
    | refused r => rfl

/-- No stream of commands takes from or adds to what the host has yet to do. -/
theorem execAll_next_inbox {is : List Instr} {s t : State} (h : execAll is s = .next t) : t.inbox = s.inbox := by
  have hset := execAll_mapNext (fun i _ => exec_setInbox i s.inbox) s (is := is)
  rw [h] at hset
  rw [Host.Outcome.next.inj (h.symm.trans hset), State.setInbox_inbox]

/-- The commands of a stream that are for one engine, in their order. -/
def portCommands (p : Port) (is : List Instr) : List Instr := is.filter (fun i => decide (i.port = p))

theorem port_of_mem_portCommands {p : Port} {is : List Instr} {i : Instr} (h : i ∈ portCommands p is) : i.port = p :=
  of_decide_eq_true (List.mem_filter.1 h).2

theorem portCommands_cons_of_eq {p : Port} {i : Instr} (hi : i.port = p) (is : List Instr) :
    portCommands p (i :: is) = i :: portCommands p is :=
  List.filter_cons_of_pos (decide_eq_true hi)

theorem portCommands_cons_of_ne {p : Port} {i : Instr} (hi : i.port ≠ p) (is : List Instr) :
    portCommands p (i :: is) = portCommands p is :=
  List.filter_cons_of_neg (by simpa using hi)

section
variable {is : List Instr} {s t : State}

/-- DEC's commands run the same whatever ENC holds. -/
theorem execAll_dec_setEnc (h : execAll (portCommands .dec is) s = .next t) (e : Enc) :
    execAll (portCommands .dec is) (s.setEnc e) = .next (t.setEnc e) := by
  rw [execAll_mapNext (f := (·.setEnc e)) (fun i hi => exec_setEnc_of_dec (port_of_mem_portCommands hi) e), h]
  rfl

/-- ENC's commands run the same whatever DEC holds. -/
theorem execAll_enc_setDec (h : execAll (portCommands .enc is) s = .next t) (d : Dec) :
    execAll (portCommands .enc is) (s.setDec d) = .next (t.setDec d) := by
  rw [execAll_mapNext (f := (·.setDec d)) (fun i hi => exec_setDec_of_enc (port_of_mem_portCommands hi) d), h]
  rfl

/-- DEC's commands change DEC only. -/
theorem execAll_dec_next (h : execAll (portCommands .dec is) s = .next t) : t = s.setDec t.dec := by
  have hset : t = t.setEnc s.enc := Host.Outcome.next.inj (h.symm.trans (execAll_dec_setEnc h s.enc))
  exact State.eq_setDec ((congrArg State.enc hset).trans (State.setEnc_enc t s.enc)) (execAll_next_inbox h)

/-- ENC's commands change ENC only. -/
theorem execAll_enc_next (h : execAll (portCommands .enc is) s = .next t) : t = s.setEnc t.enc := by
  have hset : t = t.setDec s.dec := Host.Outcome.next.inj (h.symm.trans (execAll_enc_setDec h s.dec))
  exact State.eq_setEnc ((congrArg State.dec hset).trans (State.setDec_dec t s.dec)) (execAll_next_inbox h)

end

/-- What DEC's commands do to DEC can be said from a state with any ENC. -/
theorem execAll_dec_setEnc_iff (is : List Instr) (s : State) (d : Dec) (e : Enc) :
    execAll (portCommands .dec is) (s.setEnc e) = .next ((s.setEnc e).setDec d) ↔
      execAll (portCommands .dec is) s = .next (s.setDec d) :=
  ⟨fun h => execAll_dec_setEnc h s.enc, fun h => execAll_dec_setEnc h e⟩

/-- What ENC's commands do to ENC can be said from a state with any DEC. -/
theorem execAll_enc_setDec_iff (is : List Instr) (s : State) (d : Dec) (e : Enc) :
    execAll (portCommands .enc is) (s.setDec d) = .next ((s.setDec d).setEnc e) ↔
      execAll (portCommands .enc is) s = .next (s.setEnc e) :=
  ⟨fun h => execAll_enc_setDec h s.dec, fun h => execAll_enc_setDec h d⟩

/-! ### Interleavings (R252) -/

/-- A stream completes with the two engines' ends exactly when each engine's commands alone complete with its end:
the stream's next command moves its own engine, and the other engine's commands do not see that. -/
theorem execAll_eq_next_iff (is : List Instr) (s : State) (d : Dec) (e : Enc) :
    execAll is s = .next ((s.setDec d).setEnc e) ↔
      execAll (portCommands .dec is) s = .next (s.setDec d) ∧ execAll (portCommands .enc is) s = .next (s.setEnc e) := by
  induction is generalizing s with
  | nil =>
    obtain ⟨sd, se, evs⟩ := s
    simp [execAll, portCommands, State.setDec, State.setEnc]
  | cons i is ih =>
    cases hp : i.port with
    | dec =>
      rw [portCommands_cons_of_eq hp, portCommands_cons_of_ne (p := .enc) (by simp [hp])]
      cases hx : exec i s with
      | next u =>
        rw [execAll_cons_next hx, execAll_cons_next hx,
          State.eq_setDec (exec_dec_next_enc hp hx) (exec_next_inbox hx)]
        exact (ih (s.setDec u.dec)).trans (and_congr_right' (execAll_enc_setDec_iff is s u.dec e))
      | fault f => simp [execAll, hx]
      | refused r => simp [execAll, hx]
    | enc =>
      rw [portCommands_cons_of_eq hp, portCommands_cons_of_ne (p := .dec) (by simp [hp])]
      cases hx : exec i s with
      | next u =>
        rw [execAll_cons_next hx, execAll_cons_next hx,
          State.eq_setEnc (exec_enc_next_dec hp hx) (exec_next_inbox hx)]
        exact (ih (s.setEnc u.enc)).trans (and_congr_left' (execAll_dec_setEnc_iff is s d u.enc))
      | fault f => simp [execAll, hx]
      | refused r => simp [execAll, hx]

end Sys2Proof.Machine

/-! ### The obligations -/

namespace Sys2Proof.Proofs

open Sys2Proof.Machine Sys2Proof.Safety

/-- Settles O41: a stream's end is the pair of the ends of the two engines' own streams. -/
theorem interleavingsAgreeWithEachEngineAlone : Obligations.InterleavingsAgreeWithEachEngineAlone := by
  refine fun is s => ⟨fun t h => ?_, fun d e hd he => ?_⟩
  · have ht : t = (s.setDec t.dec).setEnc t.enc := State.eq_setEnc rfl (execAll_next_inbox (s := s) h)
    exact (execAll_eq_next_iff is s t.dec t.enc).1 (h.trans (congrArg Host.Outcome.next ht))
  · have hdec : d = s.setDec d.dec := execAll_dec_next hd
    have henc : e = s.setEnc e.enc := execAll_enc_next he
    exact (execAll_eq_next_iff is s d.dec e.enc).2
      ⟨hd.trans (congrArg Host.Outcome.next hdec), he.trans (congrArg Host.Outcome.next henc)⟩

/-- Settles O29, from the commands that raise and their error entries. -/
theorem errorEntryIsPrecise : Obligations.ErrorEntryIsPrecise := fun _ _ _ h =>
  ⟨exec_next_decError h, exec_next_encError h⟩

/-- Settles O30: an engine in ERROR is outside a run, where its commands but START are ignored. -/
theorem errorIsSticky : Obligations.ErrorIsSticky := by
  refine fun s t ev rest hin h => ⟨fun herr => ⟨?_, fun hstart => ?_, fun hreset => ?_⟩,
    fun herr => ⟨?_, fun hstart => ?_, fun hreset => ?_⟩⟩
  · exact step_next_dec_of_not_run hin h (by simp [herr])
  · cases (step_isStart hin hstart).symm.trans h
    exact ⟨rfl, rfl⟩
  · cases (step_reset hin hreset).symm.trans h
    exact ⟨rfl, rfl⟩
  · exact step_next_enc_of_not_run hin h (by simp [herr])
  · cases (step_isStart hin hstart).symm.trans h
    exact ⟨rfl, rfl⟩
  · cases (step_reset hin hreset).symm.trans h
    exact ⟨rfl, rfl⟩

/-- Settles O10: there is no event to fetch. -/
theorem noCommandKeepsState : Obligations.NoCommandKeepsState := fun _ => step_nil

/-- Settles O13: the symbol is checked before any word of TMEM is read. -/
theorem dBitMalformedRaises : Obligations.DBitMalformedRaises := fun _ _ hr h0 h1 =>
  execDBit_malformed hr (bitOfSymbol_eq_none.2 ⟨h0, h1⟩)

end Sys2Proof.Proofs
end

section
/-! SUPPORT. Proofs of the statements of 70_reset_and_hazards.md: the reset event (R270, R271) and host writes to the
table of an engine in RUN (R285). -/

namespace Sys2Proof.Machine

/-! ### Commands with no run open (R174, R204, R270) -/

/-- With neither engine in RUN, every command but the two START commands keeps the whole state. -/
theorem exec_of_not_run {i : Instr} {s : State} (hdec : s.dec.dstate ≠ .run) (henc : s.enc.estate ≠ .run)
    (hd : i ≠ .dStart) (he : i ≠ .eStart) : exec i s = .next s := by
  cases i with
  | dStart => exact absurd rfl hd
  | dBit v => exact execDBit_of_not_run hdec v
  | dEnd => exact execDEnd_of_not_run hdec
  | eStart => exact absurd rfl he
  | eSym b => exact execESym_of_not_run henc b
  | eEnd => exact execEEnd_of_not_run henc

/-! ### Host writes during the owner's run (R285) -/

theorem hostTWrite_of_run {s : State} (hr : s.dec.dstate = .run) (i : NodeIdx) (w : TreeWord) :
    hostTWrite i w s = .refused .tmemWriteDuringRun :=
  if_pos (decRunning_iff.2 hr)

theorem hostCWrite_of_run {s : State} (hr : s.enc.estate = .run) (b : Byte) (e : CodeEntry) :
    hostCWrite b e s = .refused .ctabWriteDuringRun :=
  if_pos (encRunning_iff.2 hr)

end Sys2Proof.Machine

/-! ### The obligations -/

namespace Sys2Proof.Proofs

open Sys2Proof.Machine Sys2Proof.Safety

/-- Settles O2: the step ends in the reset state with the host's later events, where both engines are IDLE. -/
theorem resetEventClearsBothEngines : Obligations.ResetEventClearsBothEngines := by
  intro s rest hin
  have hdec : (State.reset.setInbox rest).dec.dstate ≠ .run := nofun
  have henc : (State.reset.setInbox rest).enc.estate ≠ .run := nofun
  exact ⟨State.reset.setInbox rest, step_reset hin rfl, rfl, rfl, fun _ => rfl, fun _ => rfl,
    fun _ => exec_of_not_run hdec henc⟩

/-- Settles O36: taking the event off the inbox leaves the engine in RUN, and there the write is refused. -/
theorem hostWriteDuringRunRefused : Obligations.HostWriteDuringRunRefused :=
  ⟨fun s i w rest hin hr => (step_cons hin).trans (hostTWrite_of_run (s := s.setInbox rest) hr i w),
    fun s b e rest hin hr => (step_cons hin).trans (hostCWrite_of_run (s := s.setInbox rest) hr b e)⟩

end Sys2Proof.Proofs
end
